-- ==== Sys2Proof/Word.lean ====
section
/-! DEFINITION. The word types and the names of lines, levels and driver states (spec 00_scope R8, R9). -/

namespace Sys2Proof

/-- A 32-bit word: command words, result words, the numbered registers, ticks (R30, R80, R96). -/
abbrev Word := BitVec 32

/-- A data byte (R6 DATA_BITS, R89). -/
abbrev Byte := BitVec 8

/-- The two open-drain lines (R11). -/
inductive Line where
  | sda
  | scl
deriving DecidableEq, Repr, Inhabited

/-- The electrical level of a line, `LO` or `HI` (R9). -/
inductive Level where
  | lo
  | hi
deriving DecidableEq, Repr, Inhabited

/-- What the block's driver does to a line: `DRV_LO` pulls it low, `REL` releases it (R9). -/
inductive Drv where
  | low
  | rel
deriving DecidableEq, Repr, Inhabited

end Sys2Proof
end

