-- ==== Sys2Proof/Config.lean ====
section
/-! DEFINITION. What the spec leaves to the platform or to the environment: the OPEN parameters of creation (R6) and the
free values an oracle answers with where State lists no answer (R21, R22). None has a body, so no proof can see a value.
Logged in notes/assumptions 2, 3, 5, 6, 8 and 16. -/

namespace Sys2Proof

/-- HALF_BIT_DELAY_US, the creation argument `half` of the bus State.reset describes (R6). DESIGN CHOICE, log 5. -/
opaque Config.halfBitDelayUs : Word

/-- CLOCK_TIMEOUT_TICKS, the creation argument `timeout`; 0 means unset (R6). DESIGN CHOICE, log 5. -/
opaque Config.clockTimeoutTicks : Word

/-- ADDRESS_RETRIES, the creation argument `retries` (R6). DESIGN CHOICE, log 5. -/
opaque Config.addressRetries : Word

/-- READ_ADDRESS_PHASE, OPEN with no default (R6). DESIGN CHOICE, log 5. -/
opaque Config.readAddressPhase : Bool

/-- SCL_READABLE, OPEN: whether the pin port given at creation can read SCL (R6). DESIGN CHOICE, log 5. -/
opaque Config.sclReadable : Bool

/-- The number behind TICKS_PER_SECOND, before 0 is ruled out. DESIGN CHOICE, log 16. -/
opaque Config.ticksPerSecondRaw : Word

/-- A tick rate: a word that is at least 1, as TICKS_PER_SECOND is (R6, R32). That it fits 32 bits is DEDUCED, log 16. -/
structure TickRate where
  word : Word
  pos : word ≠ 0#32
deriving DecidableEq, Repr

/-- TICKS_PER_SECOND, OPEN, an integer of at least 1 (R6, R32): every value from 1 to 2^32 - 1 is possible here.
DESIGN CHOICE, log 16. -/
def Config.ticksPerSecond : TickRate :=
  if h : Config.ticksPerSecondRaw = 0#32 then { word := 1#32, pos := by decide }
  else { word := Config.ticksPerSecondRaw, pos := h }

/-- What the platform's tick clock shows when the bus is created (R226). DESIGN CHOICE, log 6. -/
opaque Config.tickAtCreation : Word

/-- The environment's answer to a sample of SCL that State lists no answer for (R22). Free value, log 2. -/
opaque Config.freeScl : Nat → Level

/-- The environment's answer to a sample of SDA that State lists no answer for (R22). Free value, log 2. -/
opaque Config.freeSda : Nat → Level

/-- The ticks that pass before a `Now()` that State lists none for (R21). Free value, log 3. -/
opaque Config.freeTicks : Nat → Nat

/-- The mutex's choice among the waiters where State lists none (R65.4). Free value, log 8. -/
opaque Config.freeGrant : Nat → Nat

end Sys2Proof
end

