-- ==== Sys2Proof/Syntax.lean ====
section
/-! DEFINITION. The commands (spec 30_encoding R80, R81, R86): one constructor for each row of the opcode table, each
operand a bit vector of exactly its field's width, and the two pseudo-instructions that expand to them (R101). -/

namespace Sys2Proof

/-- The nine commands of R103. -/
inductive Instr where
  /-- XFER.W addr, byte (R176) -/
  | xferW (addr : BitVec 16) (byte : Byte)
  /-- XFER.R addr, init (R177) -/
  | xferR (addr : BitVec 16) (init : Byte)
  /-- SCLW (R116) -/
  | sclw
  /-- START (R130) -/
  | start
  /-- STOP (R132) -/
  | stop
  /-- FNACK (R134) -/
  | fnack
  /-- WBIT b (R150) -/
  | wbit (b : BitVec 1)
  /-- WBYTE v (R152) -/
  | wbyte (v : Byte)
  /-- RBYTE (R155) -/
  | rbyte
deriving DecidableEq, Repr, Inhabited

/-- SEND addr, flags, byte is XFER.W addr, byte whatever `flags` holds (R101, R190). -/
def sendCommand (addr : BitVec 16) (_flags : Word) (byte : Byte) : Instr := .xferW addr byte

/-- RECV addr, flags is XFER.R addr, 0 whatever `flags` holds (R101, R191). -/
def recvCommand (addr : BitVec 16) (_flags : Word) : Instr := .xferR addr 0#8

end Sys2Proof
end

