-- ==== Sys2Proof/WellFormed.lean ====
section
/-! DEFINITION. Well-formedness (spec 30_encoding R100 to R102). A command's operands have exactly their field's width by
type, so every `Instr` is well-formed; what can be ill-formed is a line of assembler, whose operands are numbers. -/

namespace Sys2Proof

/-- Every operand of every command has its field's width by type (R80, R82, R83): nothing is left to check. -/
def Instr.wf : Instr → Bool
  | .xferW _ _ => true
  | .xferR _ _ => true
  | .sclw => true
  | .start => true
  | .stop => true
  | .fnack => true
  | .wbit _ => true
  | .wbyte _ => true
  | .rbyte => true

/-- One line of assembler (R100), pseudo-instruction (R101) or the creation directive (R102), operands as written. -/
inductive AsmLine where
  | xferW (addr byte : Nat)
  /-- the initial byte may be left out and is then 0 -/
  | xferR (addr : Nat) (init : Option Nat)
  | sclw
  | start
  | stop
  | fnack
  | wbit (b : Nat)
  | wbyte (byte : Nat)
  | rbyte
  | send (addr flags byte : Nat)
  | recv (addr flags : Nat)
  /-- `retries` may be left out and is then 0 (R6, R102) -/
  | create (half timeout : Nat) (retries : Option Nat) (rdaddr sclrd : Nat)
deriving DecidableEq, Repr

/-- The operand ranges of R100 to R102: addr 0..0xFFFF, byte and init 0..0xFF, b 0 or 1, the creation arguments u32 and
one bit. `flags` is accepted whatever it is (R101). -/
def AsmLine.wf : AsmLine → Bool
  | .xferW addr byte => decide (addr < 2 ^ 16) && decide (byte < 2 ^ 8)
  | .xferR addr init => decide (addr < 2 ^ 16) && decide (init.getD 0 < 2 ^ 8)
  | .sclw => true
  | .start => true
  | .stop => true
  | .fnack => true
  | .wbit b => decide (b < 2)
  | .wbyte byte => decide (byte < 2 ^ 8)
  | .rbyte => true
  | .send addr _ byte => decide (addr < 2 ^ 16) && decide (byte < 2 ^ 8)
  | .recv addr _ => decide (addr < 2 ^ 16)
  | .create half timeout retries rdaddr sclrd =>
    decide (half < 2 ^ 32) && decide (timeout < 2 ^ 32) && decide (retries.getD 0 < 2 ^ 32) &&
      decide (rdaddr < 2) && decide (sclrd < 2)

end Sys2Proof
end

