-- ==== Sys2Proof/Decode.lean ====
section
/-! DEFINITION. The decoder of spec 30_encoding R85, total on every 32-bit word, with a name for every reason to refuse
(R93), and after it the encoder written from the same field table (R80, R86). -/

namespace Sys2Proof

/-- Why a command word is refused (R85, R93). -/
inductive Reject where
  /-- bits [7:5] are not 0 -/
  | reservedBits
  /-- OP is 0x0, 0x2 to 0x7 or 0xF -/
  | reservedOp
  /-- a must-be-zero field (DIR, BYTE or ADDR) of the OP is not 0 -/
  | nonzeroField
deriving DecidableEq, Repr

/-- What the decoder makes of a word. -/
inductive Decoded where
  | ok (i : Instr)
  | refused (why : Reject)
deriving DecidableEq, Repr

/-- Bits `[lo + width - 1 : lo]` of a command word (R8). -/
def field (cmd : Word) (lo width : Nat) : BitVec width := cmd.extractLsb' lo width

/-- An operand-less micro-op: every bit above OP must be 0 (R85). -/
def decodeBare (cmd : Word) (i : Instr) : Decoded :=
  if field cmd 4 28 = 0#28 then .ok i else .refused .nonzeroField

/-- The decoder of R85. -/
def decode (cmd : Word) : Decoded :=
  let op := field cmd 0 4
  if field cmd 5 3 ≠ 0#3 then .refused .reservedBits
  else if op = 0x1#4 then
    if field cmd 4 1 = 0#1 then .ok (.xferW (field cmd 16 16) (field cmd 8 8))
    else .ok (.xferR (field cmd 16 16) (field cmd 8 8))
  else if op = 0x8#4 then decodeBare cmd .sclw
  else if op = 0x9#4 then decodeBare cmd .start
  else if op = 0xA#4 then decodeBare cmd .stop
  else if op = 0xB#4 then decodeBare cmd .fnack
  else if op = 0xC#4 then
    if field cmd 9 23 = 0#23 ∧ field cmd 4 4 = 0#4 then .ok (.wbit (field cmd 8 1)) else .refused .nonzeroField
  else if op = 0xD#4 then
    if field cmd 16 16 = 0#16 ∧ field cmd 4 4 = 0#4 then .ok (.wbyte (field cmd 8 8)) else .refused .nonzeroField
  else if op = 0xE#4 then decodeBare cmd .rbyte
  else .refused .reservedOp

/-- The command word of a command (R80, R82, R83). -/
def encode : Instr → Word
  | .xferW addr byte => addr ++ byte ++ 0x01#8
  | .xferR addr init => addr ++ init ++ 0x11#8
  | .sclw => 0x00000008#32
  | .start => 0x00000009#32
  | .stop => 0x0000000A#32
  | .fnack => 0x0000000B#32
  | .wbit b => 0#23 ++ b ++ 0x0C#8
  | .wbyte v => 0#16 ++ v ++ 0x0D#8
  | .rbyte => 0x0000000E#32

/-- A row of the match and mask table of R86. -/
structure TableRow where
  matchBits : Word
  mask : Word
deriving DecidableEq, Repr

/-- Whether a word is a row's command: `CMD & mask = match` (R86). -/
def TableRow.accepts (r : TableRow) (cmd : Word) : Bool := cmd &&& r.mask == r.matchBits

/-- The row of R86 a command belongs to. -/
def Instr.row : Instr → TableRow
  | .xferW _ _ => ⟨0x00000001#32, 0x000000FF#32⟩
  | .xferR _ _ => ⟨0x00000011#32, 0x000000FF#32⟩
  | .sclw => ⟨0x00000008#32, 0xFFFFFFFF#32⟩
  | .start => ⟨0x00000009#32, 0xFFFFFFFF#32⟩
  | .stop => ⟨0x0000000A#32, 0xFFFFFFFF#32⟩
  | .fnack => ⟨0x0000000B#32, 0xFFFFFFFF#32⟩
  | .wbit _ => ⟨0x0000000C#32, 0xFFFFFEFF#32⟩
  | .wbyte _ => ⟨0x0000000D#32, 0xFFFF00FF#32⟩
  | .rbyte => ⟨0x0000000E#32, 0xFFFFFFFF#32⟩

/-- The nine rows of R86, in the table's order. -/
def opcodeTable : List TableRow :=
  [⟨0x00000001#32, 0x000000FF#32⟩, ⟨0x00000011#32, 0x000000FF#32⟩, ⟨0x00000008#32, 0xFFFFFFFF#32⟩,
   ⟨0x00000009#32, 0xFFFFFFFF#32⟩, ⟨0x0000000A#32, 0xFFFFFFFF#32⟩, ⟨0x0000000B#32, 0xFFFFFFFF#32⟩,
   ⟨0x0000000C#32, 0xFFFFFEFF#32⟩, ⟨0x0000000D#32, 0xFFFF00FF#32⟩, ⟨0x0000000E#32, 0xFFFFFFFF#32⟩]

/-- The command whose bits are `w`; every command is one 32-bit word, handed over whole, so there is no byte order
(R67, R80, R94) and `nbits` is 32 for every row. -/
def decodeTableWord (_nbits w : Nat) : Option Instr :=
  match decode (BitVec.ofNat 32 w) with
  | .ok i => some i
  | .refused _ => none

end Sys2Proof
end

