-- ==== Sys2Proof/Machine/State.lean ====
section
/-! DEFINITION. The state of one bus (spec 10_state), as plain data: the registers the spec names, the guard, and the
outside world as the lists of inputs and outputs the ports carry. Creation is the reset (R240). -/

namespace Sys2Proof.Machine

open Sys2Proof

/-- The three error kinds (R14, R97). -/
inductive Err where
  | timeout
  | noAcknowledge
  | io
deriving DecidableEq, Repr

/-- PHASE (R44); the attempt number of ADDR is ATTEMPT. -/
inductive Phase where
  | idle
  | started
  | addr
  | data
  | stopped
deriving DecidableEq, Repr

/-- GUARD (R47): `FREE` or `HELD(c)`. -/
inductive Guard where
  | free
  | held (caller : Nat)
deriving DecidableEq, Repr

/-- A member of WAITERS (R47): a blocked caller, with its command, decoded when it was issued (R194). -/
structure Waiter where
  caller : Nat
  command : Instr
deriving DecidableEq, Repr

/-- One port event (R11, R12, R13), with its argument or its answer. -/
inductive Event where
  | drive (l : Line) (d : Drv)
  | sample (l : Line) (v : Level)
  | delayUs (n : Word)
  | now (t : Word)
  | sleepTicks (n : Nat)
  | acquire (caller : Nat)
  | release (caller : Nat)
deriving DecidableEq, Repr

/-- What a micro-op's result word reports (R96). -/
inductive ResKind where
  /-- nothing but CODE 0 -/
  | unit
  /-- ACKR = ACK -/
  | ack
  /-- BYTER = SHIFT -/
  | byte
  /-- CODE 1 -/
  | timedOut
deriving DecidableEq, Repr

/-- One line of the pseudocode, as STEP lists the lines still to run (R45): one event, one register transfer, or the
place where a `Timeout` of the lines before it is caught (R130, R178, R227). DESIGN CHOICE of form, log 14. -/
inductive Micro where
  | drive (l : Line) (d : Drv)
  | half
  /-- `T0 <- Now()` -/
  | nowT0
  /-- `s <- Sample(SCL)` in SCLW's loop -/
  | pollScl
  /-- `t <- Now()` and the timeout test -/
  | checkTime
  /-- `SleepTicks(POLL)` -/
  | sleepPoll
  | setShift (v : Byte)
  | setBit (k : Fin 8)
  /-- `s <- Sample(SDA)` of the acknowledge pulse -/
  | sampleAck
  | setAck (a : Bool)
  /-- `s <- Sample(SDA)` of a read bit, and the shift -/
  | sampleBit
  | loadMessage (addr : BitVec 16) (dir : BitVec 1) (byte : Byte)
  | setPhase (p : Phase)
  | clearAttempt
  | nextAttempt
  /-- what the address phase does with WBYTE's `Ok(ack)` -/
  | addrDecide
  /-- what the write data phase does with WBYTE's `Ok(ack)` -/
  | writeDecide
  /-- `MSG_BYTE <- value(r)` -/
  | takeByte
  | setErr (e : Err)
  | setLastError
  /-- START ignores its SCLW's result -/
  | catchIgnore
  /-- a micro-op reports a `Timeout` in its result word -/
  | catchMicro
  /-- a transfer goes to FINISH with ERR = Timeout -/
  | catchTransfer
  /-- `Release(GUARD)` and the result word of a micro-op -/
  | endMicro (k : ResKind)
  /-- `Release(GUARD)` and the result word of a transfer -/
  | endTransfer
deriving DecidableEq, Repr

/-- Whose move is next where several agents are active (R7); the model's own, log 8. -/
inductive Turn where
  /-- the engine performs its next line, or the free guard is granted -/
  | engine
  /-- the caller of the port's first word issues it -/
  | caller
deriving DecidableEq, Repr

/-- A command word and the caller that issues it (R23). -/
structure Request where
  caller : Nat
  word : Word
deriving DecidableEq, Repr

/-- What a caller gets back: the result word of an accepted command (R96), or the refusal of its word (R93). -/
inductive Answer where
  | result (res : Word)
  | refused (why : Reject)
deriving DecidableEq, Repr

/-- An answer and the caller it goes to. -/
structure Reply where
  caller : Nat
  answer : Answer
deriving DecidableEq, Repr

/-- The numbered registers 0 to 5 (R30). -/
structure NumRegs where
  cfgHalf : Word
  cfgTimeout : Word
  cfgRetries : Word
  cfgPolicy : Word
  cap : Word
  lastError : Word
deriving DecidableEq, Repr

/-- The working registers of the datapath (R34 to R40). -/
structure WorkRegs where
  msgAddr : BitVec 16
  msgDir : BitVec 1
  msgByte : Byte
  shift : Byte
  bit : Fin 8
  attempt : Word
  ack : Bool
  err : Option Err
  t0 : Word
deriving DecidableEq, Repr

/-- SDA_DRV and SCL_DRV (R42). -/
structure Lines where
  sda : Drv
  scl : Drv
deriving DecidableEq, Repr

/-- PHASE (R44) and STEP (R45). -/
structure Sequencer where
  phase : Phase
  pos : List Micro
deriving DecidableEq, Repr

/-- GUARD and WAITERS (R47). -/
structure Lock where
  guard : Guard
  waiters : List Waiter
deriving DecidableEq, Repr

/-- The oracles' side (R21, R22, R65): the tick clock and the answers still to come. -/
structure Env where
  tick : Word
  sclIn : List Level
  sdaIn : List Level
  ticksIn : List Nat
  grantIn : List Nat
  draws : Nat
deriving DecidableEq, Repr

/-- The callers' side of the command port (R23, R247). -/
structure HostPort where
  created : Bool
  turns : List Turn
  port : List Request
  issuer : Nat
  replies : List Reply
deriving DecidableEq, Repr

/-- One bus. `trace` is every port event since creation, oldest first (R24). -/
structure State where
  regs : NumRegs
  work : WorkRegs
  lines : Lines
  seq : Sequencer
  lock : Lock
  env : Env
  host : HostPort
  trace : List Event
deriving DecidableEq, Repr

/-- Why the machine stops. -/
inductive Fault where
  /-- Raised by an engine move when the guard is held and STEP lists no line. No run reaches such a state, so this is
  safe. DESIGN CHOICE, log 22. -/
  | noLineLeft
deriving DecidableEq, Repr

/-- Why something is refused outright. -/
inductive Refusal where
  /-- Raised by exec for an instruction that has no meaning yet. Safe. -/
  | notModelled (mnemonic : String)
  /-- Raised by step when a command is issued to a bus that was never created (R247). Safe. -/
  | busNotCreated
  /-- Raised by create when a precondition of R241 fails. Safe. -/
  | creationRefused
deriving DecidableEq, Repr

/-- The pin capability (R20): which operations it provides. -/
structure PinPort where
  driveSda : Bool
  driveScl : Bool
  readSda : Bool
  readScl : Bool
  delayUs : Bool
deriving DecidableEq, Repr

/-- The time port (R21): which operations it provides. -/
structure TimePort where
  now : Bool
  sleepTicks : Bool
deriving DecidableEq, Repr

/-- The arguments of CREATE (R240) and the platform's TICKS_PER_SECOND and tick clock. An omitted `retries` is 0 (R6). -/
structure CreateArgs where
  pins : Option PinPort
  time : TimePort
  half : Word
  timeout : Word
  retries : Word := 0#32
  rdaddr : Bool
  ticksPerSecond : TickRate
  tick : Word
deriving DecidableEq, Repr

/-- One bit in bit 0 of a 32-bit register, the reserved bits 0 (R30). -/
def bitReg (b : Bool) : Word := if b then 1#32 else 0#32

/-- The numbered registers after creation (R240). -/
def CreateArgs.regs (a : CreateArgs) : NumRegs where
  cfgHalf := a.half
  cfgTimeout := if a.timeout = 0#32 then a.ticksPerSecond.word else a.timeout
  cfgRetries := a.retries
  cfgPolicy := bitReg a.rdaddr
  cap := bitReg ((a.pins.map PinPort.readScl).getD false)
  lastError := 0#32

/-- The working registers after creation: the spec gives no value (R52, R242); ERR is none (R48). DESIGN CHOICE, log 4. -/
def WorkRegs.fresh : WorkRegs where
  msgAddr := 0#16
  msgDir := 0#1
  msgByte := 0#8
  shift := 0#8
  bit := 0
  attempt := 0#32
  ack := false
  err := none
  t0 := 0#32

/-- The bus creation gives (R240, R242): both drivers released, IDLE, the guard free, no event emitted. -/
def CreateArgs.bus (a : CreateArgs) : State where
  regs := a.regs
  work := WorkRegs.fresh
  lines := { sda := .rel, scl := .rel }
  seq := { phase := .idle, pos := [] }
  lock := { guard := .free, waiters := [] }
  env := { tick := a.tick, sclIn := [], sdaIn := [], ticksIn := [], grantIn := [], draws := 0 }
  host := { created := true, turns := [], port := [], issuer := 0, replies := [] }
  trace := []

/-- The creation arguments of the bus State.reset describes: every one an open parameter (R6). DESIGN CHOICE, log 5. -/
def CreateArgs.platform : CreateArgs where
  pins := some { driveSda := true, driveScl := true, readSda := true, readScl := Config.sclReadable, delayUs := true }
  time := { now := true, sleepTicks := true }
  half := Config.halfBitDelayUs
  timeout := Config.clockTimeoutTicks
  retries := Config.addressRetries
  rdaddr := Config.readAddressPhase
  ticksPerSecond := Config.ticksPerSecond
  tick := Config.tickAtCreation

/-- The machine right after reset, which is creation (R240). -/
def State.reset : State := CreateArgs.platform.bus

/-- A handle to no bus: creation was refused or has not returned (R241, R247). -/
def State.uncreated : State :=
  { State.reset with host := { State.reset.host with created := false } }

end Sys2Proof.Machine
end

