-- ==== Sys2Proof/Machine/Operands.lean ====
section
/-! DEFINITION. What the commands compute from operands and registers: capability and policy bits, POLL, the address
byte, the drive of a bit, elapsed ticks and the ticks a time source may show (spec R20, R21, R41, R92, R115, R170, R171). -/

namespace Sys2Proof.Machine

open Sys2Proof

/-- CAP.SCL_READABLE (R30). -/
def NumRegs.sclReadable (r : NumRegs) : Bool := r.cap.getLsbD 0

/-- CFG_POLICY.READ_ADDRESS_PHASE (R30). -/
def NumRegs.readAddressPhase (r : NumRegs) : Bool := r.cfgPolicy.getLsbD 0

/-- POLL = ceil(CFG_TIMEOUT / 2), exact (R41). -/
def NumRegs.poll (r : NumRegs) : Nat := (r.cfgTimeout.toNat + 1) / 2

/-- Whether a transfer of this direction runs the address phase (R171). -/
def NumRegs.addressed (r : NumRegs) (dir : BitVec 1) : Bool := dir == 0#1 || r.readAddressPhase

/-- The address byte `MSG_ADDR[6:0] : MSG_DIR` (R88, R170). -/
def addressByte (addr : BitVec 16) (dir : BitVec 1) : Byte := addr.extractLsb' 0 7 ++ dir

/-- The drive of a bit value: 1 releases, 0 pulls low (R92, R111). -/
def drvOf (b : Bool) : Drv := if b then .rel else .low

/-- A sampled level as a bit: HI is 1 (R92). -/
def levelBit (v : Level) : Bool :=
  match v with
  | .hi => true
  | .lo => false

/-- A read bit enters bit 0 of the accumulator: `SHIFT[6:0] : b` (R35, R155). -/
def shiftIn (shift : Byte) (v : Level) : Byte := shift.extractLsb' 0 7 ++ BitVec.ofBool (levelBit v)

/-- The level of a line: low when the block's driver or any other party pulls it low (R43). `others` is the level the
rest of the bus leaves it at. -/
def wiredAnd (d : Drv) (others : Level) : Level :=
  match d with
  | .low => .lo
  | .rel => others

/-- The ticks elapsed since T0 that a `Now()` inside SCLW shows, from the least number `lo` the sleeps allow and a free
number `extra` of ticks beyond it (R21): at least `lo`, below `2^32`, and not so late that the sleep that must follow
would itself pass `2^32`. Every answer R21 admits comes out for some `extra`. DESIGN CHOICE, log 3. -/
def admittedElapsed (lo timeout poll extra : Nat) : Nat :=
  let e := lo + extra % (2 ^ 32 - lo)
  if e < timeout ∧ 2 ^ 32 ≤ e + poll then timeout else e

end Sys2Proof.Machine
end

