-- ==== Sys2Proof/Machine/Flags.lean ====
section
/-! DEFINITION. The flags ACK, ERR and LAST_ERROR and the result word (spec R48, R91, R96, R97). -/

namespace Sys2Proof.Machine

open Sys2Proof

/-- The code of an error, 0 for none (R97). -/
def errCode : Option Err → BitVec 2
  | none => 0#2
  | some .timeout => 1#2
  | some .noAcknowledge => 2#2
  | some .io => 3#2

/-- The acknowledge of a byte write: SDA sampled LO is ACK (R91). -/
def ackOf (v : Level) : Bool :=
  match v with
  | .lo => true
  | .hi => false

/-- The result word `RES` (R96): CODE [1:0], ACKR [4], BYTER [15:8], every other bit 0. -/
def resWord (code : BitVec 2) (ackr : Bool) (byter : Byte) : Word :=
  0#16 ++ byter ++ 0#3 ++ BitVec.ofBool ackr ++ 0#2 ++ code

/-- The CODE field of a result word (R96). -/
def resCode (res : Word) : BitVec 2 := res.extractLsb' 0 2

/-- The BYTER field of a result word (R96). -/
def resByte (res : Word) : Byte := res.extractLsb' 8 8

/-- The ACKR field of a result word (R96). -/
def resAck (res : Word) : Bool := res.getLsbD 4

/-- What RECV returns: the byte on CODE 0, else no byte (R191). -/
def recvByte (res : Word) : Option Byte := if resCode res = 0#2 then some (resByte res) else none

/-- LAST_ERROR as the end of a transfer writes it: the code in [1:0], the reserved bits 0 (R30, R33). -/
def lastErrorWord (e : Option Err) : Word := 0#30 ++ errCode e

end Sys2Proof.Machine
end

