-- ==== Sys2Proof/Machine/Ops.lean ====
section
/-! DEFINITION. The shared operations over the state: one for each port event (spec R11 to R13), the register transfers
every command uses, and taking an error and returning from it (R220, R222), which is what stands in for a trap here. -/

namespace Sys2Proof.Machine

open Sys2Proof

/-- `Ok(v)` or `Err(e)` of a primitive (R14). -/
inductive Ret (α : Type) where
  | ok (v : α)
  | err (e : Err)
deriving DecidableEq, Repr

/-- One port event happens (R60): it is recorded, nothing else. -/
def emit (e : Event) (s : State) : State := { s with trace := s.trace ++ [e] }

/-- A driver takes a state (R42). -/
def Lines.set (l : Line) (d : Drv) (x : Lines) : Lines :=
  match l with
  | .sda => { x with sda := d }
  | .scl => { x with scl := d }

/-- The driver state of a line (R42). -/
def Lines.get (l : Line) (x : Lines) : Drv :=
  match l with
  | .sda => x.sda
  | .scl => x.scl

/-- `Drive(line, d)`: one event, emitted whether or not the driver changes (R110). -/
def drive (l : Line) (d : Drv) (s : State) : State :=
  emit (.drive l d) { s with lines := s.lines.set l d }

/-- `HB()`: one `DelayUs(CFG_HALF)` event (R112). -/
def halfBit (s : State) : State := emit (.delayUs s.regs.cfgHalf) s

/-- What the rest of the bus leaves a line at: the next listed answer, else a free value (R22, log 2). -/
def Env.others (l : Line) (e : Env) : Level :=
  match l with
  | .sda => e.sdaIn.headD (Config.freeSda e.draws)
  | .scl => e.sclIn.headD (Config.freeScl e.draws)

/-- The environment after it answered a sample of a line. -/
def Env.answered (l : Line) (e : Env) : Env :=
  match l with
  | .sda => { e with sdaIn := e.sdaIn.tail, draws := e.draws + 1 }
  | .scl => { e with sclIn := e.sclIn.tail, draws := e.draws + 1 }

/-- The level `Sample(line)` finds (R43, R113). -/
def sampled (l : Line) (s : State) : Level := wiredAnd (s.lines.get l) (s.env.others l)

/-- `Sample(line)`: one event, no block state changed (R113); `sampled` is its answer. -/
def sample (l : Line) (s : State) : State :=
  emit (.sample l (sampled l s)) { s with env := s.env.answered l }

/-- The ticks that pass before the next `Now()` beyond the sleeps: the next listed number, else a free value (R21, log 3). -/
def Env.extraTicks (e : Env) : Nat := e.ticksIn.headD (Config.freeTicks e.draws)

/-- The environment after a `Now()` that found the clock at `t`. -/
def Env.ticked (t : Word) (e : Env) : Env :=
  { e with tick := t, ticksIn := e.ticksIn.tail, draws := e.draws + 1 }

/-- The tick the first `Now()` of a wait finds: any amount of time may have passed (R21). -/
def Env.laterTick (e : Env) : Word := e.tick + BitVec.ofNat 32 e.extraTicks

/-- `T0 <- Now()` (R40, R116). -/
def nowT0 (s : State) : State :=
  emit (.now s.env.laterTick)
    { s with work := { s.work with t0 := s.env.laterTick }, env := s.env.ticked s.env.laterTick }

/-- `(t - T0) mod 2^32` for a tick `t` (R115). -/
def elapsed (s : State) (t : Word) : Nat := (t - s.work.t0).toNat

/-- The tick a `Now()` inside SCLW's loop finds (R21). -/
def checkTick (s : State) : Word :=
  s.work.t0 + BitVec.ofNat 32
    (admittedElapsed (elapsed s s.env.tick) s.regs.cfgTimeout.toNat s.regs.poll s.env.extraTicks)

/-- `t <- Now()` inside SCLW's loop (R116); the tick found is then `s.env.tick`. -/
def nowCheck (s : State) : State := emit (.now (checkTick s)) { s with env := s.env.ticked (checkTick s) }

/-- The timeout test on the tick just read (R115). -/
def timedOut (s : State) : Bool := decide (s.regs.cfgTimeout.toNat ≤ elapsed s s.env.tick)

/-- `SleepTicks(POLL)`: one event, POLL ticks pass (R114, R228). -/
def sleepPoll (s : State) : State :=
  emit (.sleepTicks s.regs.poll)
    { s with env := { s.env with tick := s.env.tick + BitVec.ofNat 32 s.regs.poll } }

/-- `Acquire(GUARD)` by the issuing caller, when the guard is free (R13). -/
def acquire (s : State) : State :=
  emit (.acquire s.host.issuer) { s with lock := { s.lock with guard := .held s.host.issuer } }

/-- The answer goes to the caller whose command ran (R23). -/
def answer (a : Answer) (s : State) : State :=
  { s with host := { s.host with replies := s.host.replies ++ [{ caller := s.host.issuer, answer := a }] } }

/-- `Release(GUARD)`, and then the result word (R76). -/
def release (res : Word) (s : State) : State :=
  answer (.result res)
    (emit (.release s.host.issuer) { s with lock := { s.lock with guard := .free } })

/-- A command issued while the guard is held: the caller waits with its decoded command and nothing is emitted (R194). -/
def waitForGuard (i : Instr) (s : State) : State :=
  { s with lock := { s.lock with waiters := s.lock.waiters ++ [{ caller := s.host.issuer, command := i }] } }

/-- A command runs whole when its caller gets the guard, and waits when another caller holds it (R65, R194, R231). -/
def whenGranted (i : Instr) (run : State → State) (s : State) : Host.Outcome State Fault Refusal :=
  match s.lock.guard with
  | .free => .next (run s)
  | .held _ => .next (waitForGuard i s)

def setShift (v : Byte) (s : State) : State := { s with work := { s.work with shift := v } }

def setBit (k : Fin 8) (s : State) : State := { s with work := { s.work with bit := k } }

def setAck (a : Bool) (s : State) : State := { s with work := { s.work with ack := a } }

def setPhase (p : Phase) (s : State) : State := { s with seq := { s.seq with phase := p } }

/-- The copy-in of the message, and ERR cleared (R39, R70). -/
def loadMessage (addr : BitVec 16) (dir : BitVec 1) (byte : Byte) (s : State) : State :=
  { s with work := { s.work with msgAddr := addr, msgDir := dir, msgByte := byte, err := none } }

def setMsgByte (b : Byte) (s : State) : State := { s with work := { s.work with msgByte := b } }

def setAttempt (n : Word) (s : State) : State := { s with work := { s.work with attempt := n } }

/-- Entry of an error: ERR is written, the only state saved (R220). The caller of this operation then goes to FINISH. -/
def enterError (e : Err) (s : State) : State := { s with work := { s.work with err := some e } }

/-- LAST_ERROR <- code(ERR) (R33). -/
def setLastError (s : State) : State :=
  { s with regs := { s.regs with lastError := lastErrorWord s.work.err } }

/-- The result word of a transfer (R96, R178). -/
def transferRes (s : State) : Word := resWord (errCode s.work.err) false s.work.msgByte

/-- The return of a transfer: LAST_ERROR, IDLE, the guard released, the result word (R185, R222). -/
def returnFromTransfer (s : State) : State :=
  let s := setPhase .idle (setLastError s)
  release (transferRes s) s

/-- A host read of a numbered register (R30, R33, R51): at any time, also during a transfer. Reserved bits read 0; there
is no register beyond 5. -/
def hostRead (n : Nat) (s : State) : Option Word :=
  match n with
  | 0 => some s.regs.cfgHalf
  | 1 => some s.regs.cfgTimeout
  | 2 => some s.regs.cfgRetries
  | 3 => some (s.regs.cfgPolicy &&& 0x00000001#32)
  | 4 => some (s.regs.cap &&& 0x00000001#32)
  | 5 => some (s.regs.lastError &&& 0x00000003#32)
  | _ => none

end Sys2Proof.Machine
end

