-- ==== Sys2Proof/Machine/LineTiming.lean ====
section
/-! DEFINITION. SCLW, the clock-release wait with clock-stretch detection (spec 40_line_timing R110 to R122), and the
frame every micro-op command has (60_exceptions R227, R231). -/

namespace Sys2Proof.Machine

open Sys2Proof

/-- SCLW's loop (R116): sample; on HI settle and return; on LO read the clock, time out, or sleep and go round again.
`n` is the number of further rounds: under R21 the third check always times out (R117), so two are enough and the `0`
case is never reached (Laws.Spec, pollScl_third_check). DEDUCED, log 15. -/
def pollScl (n : Nat) (s : State) : Ret Unit × State :=
  match sampled .scl s with
  | .hi => (.ok (), halfBit (sample .scl s))
  | .lo =>
    let s := nowCheck (sample .scl s)
    if timedOut s then (.err .timeout, s)
    else
      match n with
      | 0 => (.err .timeout, s)
      | n + 1 => pollScl n (sleepPoll s)

/-- SCLW (R116): release SCL; without read-back settle once; with it take T0 and poll. -/
def sclw (s : State) : Ret Unit × State :=
  let s := drive .scl .rel s
  if s.regs.sclReadable then pollScl 2 (nowT0 s) else (.ok (), halfBit s)

/-- The result word of a micro-op that returns nothing but `Ok` or `Err(Timeout)` (R96, R98). -/
def unitRes : Ret Unit → Word
  | .ok _ => resWord 0#2 false 0#8
  | .err e => resWord (errCode (some e)) false 0#8

/-- The SCLW micro-op between its Acquire and Release (R227). -/
def runSclw (s : State) : State :=
  let r := sclw (acquire s)
  release (unitRes r.1) r.2

/-- SCLW (R116). -/
def execSclw (s : State) : Host.Outcome State Fault Refusal := whenGranted .sclw runSclw s

end Sys2Proof.Machine
end

