-- ==== Sys2Proof/Machine/Conditions.lean ====
section
/-! DEFINITION. The start and stop conditions and the forced no-acknowledge (spec 41_conditions R130 to R137). -/

namespace Sys2Proof.Machine

open Sys2Proof

/-- START (R130): the result of its SCLW is ignored. -/
def start (s : State) : State :=
  let s := drive .sda .rel s
  let s := (sclw s).2
  let s := halfBit s
  let s := drive .sda .low s
  let s := halfBit s
  drive .scl .low s

/-- STOP (R132): it never waits and never fails. -/
def stop (s : State) : State :=
  let s := drive .sda .low s
  let s := halfBit s
  let s := drive .scl .rel s
  let s := halfBit s
  let s := drive .sda .rel s
  halfBit s

/-- FNACK (R134): the acknowledge pulse of a read with SDA released; SDA is not sampled. -/
def fnack (s : State) : State :=
  let s := halfBit s
  let s := drive .sda .rel s
  let s := drive .scl .rel s
  let s := halfBit s
  let s := drive .scl .low s
  let s := halfBit s
  let s := drive .sda .low s
  halfBit s

/-- The START micro-op (R227). -/
def runStart (s : State) : State := release (unitRes (.ok ())) (start (acquire s))

/-- The STOP micro-op (R227). -/
def runStop (s : State) : State := release (unitRes (.ok ())) (stop (acquire s))

/-- The FNACK micro-op (R227). -/
def runFnack (s : State) : State := release (unitRes (.ok ())) (fnack (acquire s))

/-- START (R130). -/
def execStart (s : State) : Host.Outcome State Fault Refusal := whenGranted .start runStart s

/-- STOP (R132). -/
def execStop (s : State) : Host.Outcome State Fault Refusal := whenGranted .stop runStop s

/-- FNACK (R134). -/
def execFnack (s : State) : Host.Outcome State Fault Refusal := whenGranted .fnack runFnack s

end Sys2Proof.Machine
end

