-- ==== Sys2Proof/Machine/Shift.lean ====
section
/-! DEFINITION. The bit and byte shifters (spec 42_shift R150 to R160). -/

namespace Sys2Proof.Machine

open Sys2Proof

/-- WBIT (R150): one bit on SDA with one SCL pulse. -/
def wbit (b : Bool) (s : State) : Ret Unit × State :=
  let s := drive .scl .low s
  let s := drive .sda (drvOf b) s
  sclw (halfBit s)

/-- WBYTE's bit loop, BIT from `n - 1` down to 0 (R152). -/
def wbits : Nat → State → Ret Unit × State
  | 0, s => (.ok (), s)
  | n + 1, s =>
    let s := setBit (Fin.ofNat 8 n) s
    match wbit (s.work.shift.getLsbD n) s with
    | (.err e, s) => (.err e, s)
    | (.ok _, s) => wbits n s

/-- WBYTE's acknowledge pulse (R152): SCL low first (90_conflicts C4), SDA released and sampled, ACK written. -/
def ackPulse (s : State) : Ret Bool × State :=
  let s := drive .scl .low s
  let s := drive .sda .rel s
  match sclw (halfBit s) with
  | (.err e, s) => (.err e, s)
  | (.ok _, s) =>
    let a := ackOf (sampled .sda s)
    (.ok a, setAck a (drive .scl .low (sample .sda s)))

/-- WBYTE (R152): eight bits, most significant first, then the acknowledge pulse. -/
def wbyte (v : Byte) (s : State) : Ret Bool × State :=
  match wbits 8 (setShift v s) with
  | (.err e, s) => (.err e, s)
  | (.ok _, s) => ackPulse s

/-- RBYTE's bit loop, BIT from `n - 1` down to 0 (R155). -/
def rbits : Nat → State → Ret Unit × State
  | 0, s => (.ok (), s)
  | n + 1, s =>
    match sclw (setBit (Fin.ofNat 8 n) s) with
    | (.err e, s) => (.err e, s)
    | (.ok _, s) =>
      let s := setShift (shiftIn s.work.shift (sampled .sda s)) (sample .sda s)
      rbits n (halfBit (drive .scl .low s))

/-- RBYTE (R155): SDA released, eight bits sampled, most significant first; on a timeout no partial byte. -/
def rbyte (s : State) : Ret Byte × State :=
  let s := halfBit (drive .sda .rel s)
  match rbits 8 (setShift 0#8 s) with
  | (.err e, s) => (.err e, s)
  | (.ok _, s) => (.ok s.work.shift, s)

/-- The result word of WBYTE: ACKR = ACK on Ok (R96). -/
def ackRes : Ret Bool → Word
  | .ok a => resWord 0#2 a 0#8
  | .err e => resWord (errCode (some e)) false 0#8

/-- The result word of RBYTE: BYTER = the byte on Ok, 0 on a timeout (R96). -/
def byteRes : Ret Byte → Word
  | .ok b => resWord 0#2 false b
  | .err e => resWord (errCode (some e)) false 0#8

/-- The WBIT micro-op (R227). -/
def runWbit (b : Bool) (s : State) : State :=
  let r := wbit b (acquire s)
  release (unitRes r.1) r.2

/-- The WBYTE micro-op (R227). -/
def runWbyte (v : Byte) (s : State) : State :=
  let r := wbyte v (acquire s)
  release (ackRes r.1) r.2

/-- The RBYTE micro-op (R227). -/
def runRbyte (s : State) : State :=
  let r := rbyte (acquire s)
  release (byteRes r.1) r.2

/-- WBIT b (R150). -/
def execWbit (b : BitVec 1) (s : State) : Host.Outcome State Fault Refusal :=
  whenGranted (.wbit b) (runWbit (b.getLsbD 0)) s

/-- WBYTE v (R152). -/
def execWbyte (v : Byte) (s : State) : Host.Outcome State Fault Refusal :=
  whenGranted (.wbyte v) (runWbyte v) s

/-- RBYTE (R155). -/
def execRbyte (s : State) : Host.Outcome State Fault Refusal := whenGranted .rbyte runRbyte s

end Sys2Proof.Machine
end

