-- ==== Sys2Proof/Machine/Transfer.lean ====
section
/-! DEFINITION. The address and data phase sequencer: XFER.W and XFER.R (spec 43_transfer R170 to R192). -/

namespace Sys2Proof.Machine

open Sys2Proof

/-- The address phase (R180, R181): attempt ATTEMPT sends `ab`; a NACK with `n` retries left resynchronises by STOP and
START and goes on; with none left it is NoAcknowledge; a timeout is not retried. `n` is CFG_RETRIES - ATTEMPT (log 20). -/
def addressPhase (n : Nat) (ab : Byte) (s : State) : Ret Unit × State :=
  match wbyte ab (setPhase .addr s) with
  | (.err e, s) => (.err e, s)
  | (.ok true, s) => (.ok (), s)
  | (.ok false, s) =>
    match n with
    | 0 => (.err .noAcknowledge, s)
    | n + 1 =>
      let s := start (stop s)
      addressPhase n ab (setAttempt (s.work.attempt + 1#32) s)

/-- The write data phase (R182): a NACK is Io, a timeout is Timeout; never retried. -/
def writePhase (s : State) : State :=
  match wbyte s.work.msgByte s with
  | (.err e, s) => enterError e s
  | (.ok true, s) => s
  | (.ok false, s) => enterError .io s

/-- The read data phase (R183): on Ok MSG_BYTE takes the byte and FNACK follows; on a timeout neither. -/
def readPhase (s : State) : State :=
  match rbyte s with
  | (.err e, s) => enterError e s
  | (.ok b, s) => fnack (setMsgByte b s)

/-- The data phase of the message's direction (R178). -/
def dataPhase (s : State) : State :=
  let s := setPhase .data s
  if s.work.msgDir = 0#1 then writePhase s else readPhase s

/-- The phases between START and FINISH (R178). An error of the address phase skips the data phase (R220). -/
def phases (s : State) : State :=
  if s.regs.addressed s.work.msgDir then
    match addressPhase s.regs.cfgRetries.toNat (addressByte s.work.msgAddr s.work.msgDir) (setAttempt 0#32 s) with
    | (.err e, s) => enterError e s
    | (.ok _, s) => dataPhase s
  else dataPhase s

/-- FINISH (R185): the one final STOP on every path, then the return. -/
def finish (s : State) : State := returnFromTransfer (stop (setPhase .stopped s))

/-- TRANSFER(addr16, dir, byte) (R178). -/
def transfer (addr : BitVec 16) (dir : BitVec 1) (byte : Byte) (s : State) : State :=
  let s := loadMessage addr dir byte (acquire s)
  finish (phases (start (setPhase .started s)))

/-- XFER.W addr, byte (R176). -/
def execXferW (addr : BitVec 16) (byte : Byte) (s : State) : Host.Outcome State Fault Refusal :=
  whenGranted (.xferW addr byte) (transfer addr 0#1 byte) s

/-- XFER.R addr, init (R177). -/
def execXferR (addr : BitVec 16) (init : Byte) (s : State) : Host.Outcome State Fault Refusal :=
  whenGranted (.xferR addr init) (transfer addr 1#1 init) s

end Sys2Proof.Machine
end

