-- ==== Sys2Proof/Machine/Engine.lean ====
section
/-! DEFINITION. The same commands one pseudocode line at a time (spec 10_state R45, 20_memory R60): `codeOf` lists a
command's lines, `tick` runs the first line of STEP. This is the grain at which PHASE, STEP and GUARD are seen in the
middle of a command and at which other callers act (R33, R62, R186, R194). Log 7, log 14. -/

namespace Sys2Proof.Machine

open Sys2Proof

/-- SCLW (R116); `rd` is SCL_READABLE. -/
def sclwCode (rd : Bool) : List Micro :=
  .drive .scl .rel :: (if rd then [.nowT0, .pollScl] else [.half])

/-- START (R130). -/
def startCode (rd : Bool) : List Micro :=
  .drive .sda .rel :: (sclwCode rd ++ [.catchIgnore, .half, .drive .sda .low, .half, .drive .scl .low])

/-- STOP (R132). -/
def stopCode : List Micro :=
  [.drive .sda .low, .half, .drive .scl .rel, .half, .drive .sda .rel, .half]

/-- FNACK (R134). -/
def fnackCode : List Micro :=
  [.half, .drive .sda .rel, .drive .scl .rel, .half, .drive .scl .low, .half, .drive .sda .low, .half]

/-- WBIT (R150). -/
def wbitCode (rd b : Bool) : List Micro :=
  .drive .scl .low :: .drive .sda (drvOf b) :: .half :: sclwCode rd

/-- WBYTE's bits `n - 1` down to 0 (R152). -/
def wbitsCode (rd : Bool) (v : Byte) : Nat → List Micro
  | 0 => []
  | n + 1 => .setBit (Fin.ofNat 8 n) :: (wbitCode rd (v.getLsbD n) ++ wbitsCode rd v n)

/-- WBYTE (R152). -/
def wbyteCode (rd : Bool) (v : Byte) : List Micro :=
  .setShift v ::
    (wbitsCode rd v 8 ++ (.drive .scl .low :: .drive .sda .rel :: .half :: (sclwCode rd ++ [.sampleAck])))

/-- RBYTE's bits `n - 1` down to 0 (R155). -/
def rbitsCode (rd : Bool) : Nat → List Micro
  | 0 => []
  | n + 1 => .setBit (Fin.ofNat 8 n) :: (sclwCode rd ++ (.sampleBit :: .drive .scl .low :: .half :: rbitsCode rd n))

/-- RBYTE (R155). -/
def rbyteCode (rd : Bool) : List Micro :=
  .drive .sda .rel :: .half :: .setShift 0#8 :: rbitsCode rd 8

/-- FINISH (R178, R185). -/
def finishCode : List Micro :=
  .setPhase .stopped :: (stopCode ++ [.setLastError, .setPhase .idle, .endTransfer])

/-- One attempt of the address phase (R180). -/
def attemptCode (rd : Bool) (ab : Byte) : List Micro :=
  .setPhase .addr :: (wbyteCode rd ab ++ [.catchTransfer, .addrDecide])

/-- The data phase and FINISH (R182, R183). -/
def dataCode (rd : Bool) (dir : BitVec 1) (byte : Byte) : List Micro :=
  .setPhase .data ::
    (if dir = 0#1 then wbyteCode rd byte ++ (.catchTransfer :: .writeDecide :: finishCode)
     else rbyteCode rd ++ (.catchTransfer :: .takeByte :: (fnackCode ++ finishCode)))

/-- A transfer after its Acquire (R178). -/
def transferCode (r : NumRegs) (addr : BitVec 16) (dir : BitVec 1) (byte : Byte) : List Micro :=
  .loadMessage addr dir byte :: .setPhase .started ::
    (startCode r.sclReadable ++
      (if r.addressed dir then .clearAttempt :: attemptCode r.sclReadable (addressByte addr dir)
       else dataCode r.sclReadable dir byte))

/-- The lines of a command after its Acquire (R178, R227). -/
def codeOf (r : NumRegs) : Instr → List Micro
  | .xferW addr byte => transferCode r addr 0#1 byte
  | .xferR addr init => transferCode r addr 1#1 init
  | .sclw => sclwCode r.sclReadable ++ [.catchMicro, .endMicro .unit]
  | .start => startCode r.sclReadable ++ [.endMicro .unit]
  | .stop => stopCode ++ [.endMicro .unit]
  | .fnack => fnackCode ++ [.endMicro .unit]
  | .wbit b => wbitCode r.sclReadable (b.getLsbD 0) ++ [.catchMicro, .endMicro .unit]
  | .wbyte v => wbyteCode r.sclReadable v ++ [.catchMicro, .endMicro .ack]
  | .rbyte => rbyteCode r.sclReadable ++ [.catchMicro, .endMicro .byte]

/-- Where the sequencer goes on an `Err(Timeout)`: past the rest of the failing primitive (R220) to START's next line
(R130), to the micro-op's result word (R223), or to FINISH with ERR = Timeout (R178). -/
def unwind : List Micro → List Micro
  | [] => []
  | m :: rest =>
    match m with
    | .catchIgnore => rest
    | .catchMicro => [.endMicro .timedOut]
    | .catchTransfer => .setErr .timeout :: finishCode
    | _ => unwind rest

/-- The lines after an address attempt that completed with ACK = `ack` (R180). -/
def afterAttempt (s : State) : List Micro :=
  if s.work.ack then dataCode s.regs.sclReadable s.work.msgDir s.work.msgByte
  else if s.work.attempt = s.regs.cfgRetries then .setErr .noAcknowledge :: finishCode
  else
    stopCode ++ (startCode s.regs.sclReadable ++
      (.nextAttempt :: attemptCode s.regs.sclReadable (addressByte s.work.msgAddr s.work.msgDir)))

/-- The result word of a micro-op (R96). -/
def microRes (k : ResKind) (s : State) : Word :=
  match k with
  | .unit => resWord 0#2 false 0#8
  | .ack => resWord 0#2 s.work.ack 0#8
  | .byte => resWord 0#2 false s.work.shift
  | .timedOut => resWord (errCode (some .timeout)) false 0#8

/-- STEP moves on. -/
def goto (rest : List Micro) (s : State) : State := { s with seq := { s.seq with pos := rest } }

/-- One line of the pseudocode, `rest` being the lines after it (R45, R60). -/
def runLine (m : Micro) (rest : List Micro) (s : State) : State :=
  match m with
  | .drive l d => goto rest (drive l d s)
  | .half => goto rest (halfBit s)
  | .nowT0 => goto rest (nowT0 s)
  | .pollScl =>
    match sampled .scl s with
    | .hi => goto (.half :: rest) (sample .scl s)
    | .lo => goto (.checkTime :: rest) (sample .scl s)
  | .checkTime =>
    let s := nowCheck s
    if timedOut s then goto (unwind rest) s else goto (.sleepPoll :: .pollScl :: rest) s
  | .sleepPoll => goto rest (sleepPoll s)
  | .setShift v => goto rest (setShift v s)
  | .setBit k => goto rest (setBit k s)
  | .sampleAck => goto (.drive .scl .low :: .setAck (ackOf (sampled .sda s)) :: rest) (sample .sda s)
  | .setAck a => goto rest (setAck a s)
  | .sampleBit => goto rest (setShift (shiftIn s.work.shift (sampled .sda s)) (sample .sda s))
  | .loadMessage addr dir byte => goto rest (loadMessage addr dir byte s)
  | .setPhase p => goto rest (setPhase p s)
  | .clearAttempt => goto rest (setAttempt 0#32 s)
  | .nextAttempt => goto rest (setAttempt (s.work.attempt + 1#32) s)
  | .addrDecide => goto (afterAttempt s) s
  | .writeDecide => goto rest (if s.work.ack then s else enterError .io s)
  | .takeByte => goto rest (setMsgByte s.work.shift s)
  | .setErr e => goto rest (enterError e s)
  | .setLastError => goto rest (setLastError s)
  | .catchIgnore => goto rest s
  | .catchMicro => goto rest s
  | .catchTransfer => goto rest s
  | .endMicro k => goto rest (release (microRes k s) s)
  | .endTransfer => goto rest (release (transferRes s) s)

/-- The engine's next line (R45). -/
def tick (s : State) : State :=
  match s.seq.pos with
  | [] => s
  | m :: rest => runLine m rest s

/-- The engine's next `n` lines. -/
def ticks : Nat → State → State
  | 0, s => s
  | n + 1, s => ticks n (tick s)

/-- The guard is granted to the issuing caller and its command begins: one `Acquire` event (R13, R178). -/
def beginCommand (i : Instr) (s : State) : State := goto (codeOf s.regs i) (acquire s)

end Sys2Proof.Machine
end

