-- ==== Sys2Proof/Machine/Callers.lean ====
section
/-! DEFINITION. The callers and the guard (spec 10_state R47, 20_memory R62 to R65, 43_transfer R193, R194): issuing a
command, granting the free guard to any waiter, the moves of a schedule, and fetching the next command to run whole. -/

namespace Sys2Proof.Machine

open Sys2Proof

/-- Whether a caller is blocked: it holds the guard or waits for it, so it cannot issue another command (R65.3, log 10). -/
def blocked (c : Nat) (s : State) : Bool :=
  s.lock.guard == .held c || s.lock.waiters.any (fun w => w.caller == c)

/-- A refused word: no event, no state of the block changed; its caller is told (R93). -/
def refuseWord (c : Nat) (why : Reject) (s : State) : State :=
  { s with host := { s.host with replies := s.host.replies ++ [{ caller := c, answer := .refused why }] } }

/-- The caller of the port's first word issues it, unless it is blocked: the word is decoded at once, a refused word
never waits, a decoded one waits for the guard (R194). -/
def callerMove (s : State) : State :=
  match s.host.port with
  | [] => s
  | r :: rest =>
    if blocked r.caller s then s
    else
      let s := { s with host := { s.host with port := rest } }
      match decode r.word with
      | .refused why => refuseWord r.caller why s
      | .ok i => { s with lock := { s.lock with waiters := s.lock.waiters ++ [{ caller := r.caller, command := i }] } }

/-- The mutex's choice among the waiters: the next listed number, else a free value (R65.4, log 8). -/
def Env.grantChoice (e : Env) : Nat := e.grantIn.headD (Config.freeGrant e.draws)

/-- The free guard goes to a waiter `w :: ws`, whichever the mutex chooses: the waiter, and the state in which it is the
issuing caller and waits no longer. -/
def takeWaiter (w : Waiter) (ws : List Waiter) (s : State) : Waiter × State :=
  let k := s.env.grantChoice % (ws.length + 1)
  let chosen := (w :: ws).getD k w
  (chosen,
    { s with
      lock := { s.lock with waiters := (w :: ws).eraseIdx k }
      env := { s.env with grantIn := s.env.grantIn.tail, draws := s.env.draws + 1 }
      host := { s.host with issuer := chosen.caller } })

/-- A move of the engine: the next line of the running command; with the guard free, the grant to a waiter; with no
waiter, nothing (R46). -/
def engineMove (s : State) : Host.Outcome State Fault Refusal :=
  match s.lock.guard with
  | .held _ =>
    match s.seq.pos with
    | [] => .fault .noLineLeft
    | _ :: _ => .next (tick s)
  | .free =>
    match s.lock.waiters with
    | [] => .next s
    | w :: ws =>
      let g := takeWaiter w ws s
      .next (beginCommand g.1.command g.2)

/-- One scheduled move. -/
def scheduled (t : Turn) (s : State) : Host.Outcome State Fault Refusal :=
  match t with
  | .engine => engineMove s
  | .caller => .next (callerMove s)

/-- What a free guard and an empty schedule leave to run whole. -/
inductive Fetched where
  /-- nothing to do (R46) -/
  | nothing
  /-- a refused word was taken off the port -/
  | refused (s : State)
  /-- a command, and the state in which its caller is the issuing caller -/
  | command (i : Instr) (s : State)
deriving DecidableEq, Repr

/-- The next command to run whole: a waiter's if there is one, else the port's first word. -/
def fetch (s : State) : Fetched :=
  match s.lock.waiters with
  | w :: ws =>
    let g := takeWaiter w ws s
    .command g.1.command g.2
  | [] =>
    match s.host.port with
    | [] => .nothing
    | r :: rest =>
      match decode r.word with
      | .refused why => .refused (refuseWord r.caller why { s with host := { s.host with port := rest } })
      | .ok i => .command i { s with host := { s.host with port := rest, issuer := r.caller } }

/-- A word placed as the very next one to be fetched and run whole: first in the port, of caller 0, on a bus that exists,
with the guard free, no waiter, no line left and no schedule. -/
def placeWord (w : Word) (s : State) : State :=
  { s with
    seq := { s.seq with pos := [] }
    lock := { guard := .free, waiters := [] }
    host := { s.host with created := true, turns := [], port := { caller := 0, word := w } :: s.host.port } }

end Sys2Proof.Machine
end

