-- ==== Sys2Proof/Machine/Dispatch.lean ====
section
/-! DEFINITION. One arm per command: the meaning of each row of spec/opcode_table.json. -/

namespace Sys2Proof.Machine

open Sys2Proof

def exec (i : Instr) (s : State) : Host.Outcome State Fault Refusal :=
  match i with
  | .xferW addr byte => Sys2Proof.Machine.execXferW addr byte s
  | .xferR addr init => Sys2Proof.Machine.execXferR addr init s
  | .sclw => Sys2Proof.Machine.execSclw s
  | .start => Sys2Proof.Machine.execStart s
  | .stop => Sys2Proof.Machine.execStop s
  | .fnack => Sys2Proof.Machine.execFnack s
  | .wbit b => Sys2Proof.Machine.execWbit b s
  | .wbyte v => Sys2Proof.Machine.execWbyte v s
  | .rbyte => Sys2Proof.Machine.execRbyte s

end Sys2Proof.Machine
end

