-- ==== Sys2Proof/Machine/Step.lean ====
section
/-! DEFINITION. One step of the machine. While the schedule lists a move, a step is that move, one line of one command;
with no schedule the engine finishes a command in progress line by line, and otherwise a step takes the next command and
runs it whole (log 7). -/

namespace Sys2Proof.Machine

open Sys2Proof

/-- A step with a free guard and no schedule. -/
def stepWhole (s : State) : Host.Outcome State Fault Refusal :=
  match fetch s with
  | .nothing => .next s
  | .refused t => .next t
  | .command i t => exec i t

/-- A step on a bus that exists. -/
def stepBus (s : State) : Host.Outcome State Fault Refusal :=
  match s.host.turns with
  | t :: ts => scheduled t { s with host := { s.host with turns := ts } }
  | [] =>
    match s.lock.guard with
    | .held _ => engineMove s
    | .free => stepWhole s

/-- One step; a command issued to a bus that was never created is refused (R247). -/
def step (s : State) : Host.Outcome State Fault Refusal :=
  if s.host.created then stepBus s
  else
    match s.host.port with
    | [] => .next s
    | _ :: _ => .refused .busNotCreated

/-- The command word placed where the next step fetches it; every command is one whole word (R80), so `nbits` is 32. -/
def State.withFetchWord (s : State) (_nbits w : Nat) : State := placeWord (BitVec.ofNat 32 w) s

end Sys2Proof.Machine
end

