-- ==== Sys2Proof/Machine/Create.lean ====
section
/-! DEFINITION. CREATE, the one reset of a bus, with its preconditions (spec 70_reset R240, R241). -/

namespace Sys2Proof.Machine

open Sys2Proof

/-- The creation preconditions of R241: drive-SDA, drive-SCL, read-SDA and the delay; and, when read-SCL is provided, a
time port with `Now()` and `SleepTicks`. -/
def CreateArgs.ok (a : CreateArgs) : Bool :=
  match a.pins with
  | none => false
  | some p => p.driveSda && p.driveScl && p.readSda && p.delayUs && (!p.readScl || (a.time.now && a.time.sleepTicks))

/-- CREATE (R240): the bus, or the refusal of R241. -/
def create (a : CreateArgs) : Host.Outcome State Fault Refusal :=
  if a.ok then .next a.bus else .refused .creationRefused

end Sys2Proof.Machine
end

