-- ==== Sys2Proof/Machine/Assembler.lean ====
section
/-! DEFINITION. The assembler of spec 30_encoding R100 to R102: one command, pseudo-instruction or creation directive a
line, `;` starts a comment, numbers decimal or 0x hexadecimal. Log 24. -/

namespace Sys2Proof.Machine

open Sys2Proof

/-- The command a line stands for; the creation directive is none (R101, R102). -/
def lineCommand : AsmLine → Option Instr
  | .xferW addr byte => some (.xferW (BitVec.ofNat 16 addr) (BitVec.ofNat 8 byte))
  | .xferR addr init => some (.xferR (BitVec.ofNat 16 addr) (BitVec.ofNat 8 (init.getD 0)))
  | .sclw => some .sclw
  | .start => some .start
  | .stop => some .stop
  | .fnack => some .fnack
  | .wbit b => some (.wbit (BitVec.ofNat 1 b))
  | .wbyte byte => some (.wbyte (BitVec.ofNat 8 byte))
  | .rbyte => some .rbyte
  | .send addr flags byte => some (sendCommand (BitVec.ofNat 16 addr) (BitVec.ofNat 32 flags) (BitVec.ofNat 8 byte))
  | .recv addr flags => some (recvCommand (BitVec.ofNat 16 addr) (BitVec.ofNat 32 flags))
  | .create _ _ _ _ _ => none

/-- The command word a well-formed line assembles to (R100). -/
def assembleLine (l : AsmLine) : Option Word := if l.wf then (lineCommand l).map encode else none

/-- The creation arguments a well-formed directive gives, on a platform with every pin and time operation but the
read-SCL that `sclrd` says (R102). -/
def lineCreation (l : AsmLine) (ticksPerSecond : TickRate) (tick : Word) : Option CreateArgs :=
  match l with
  | .create half timeout retries rdaddr sclrd =>
    if l.wf then
      some
        { pins := some
            { driveSda := true, driveScl := true, readSda := true, readScl := sclrd == 1, delayUs := true }
          time := { now := true, sleepTicks := true }
          half := BitVec.ofNat 32 half
          timeout := BitVec.ofNat 32 timeout
          retries := BitVec.ofNat 32 (retries.getD 0)
          rdaddr := rdaddr == 1
          ticksPerSecond := ticksPerSecond
          tick := tick }
    else none
  | _ => none

/-- The value of a digit in a base up to 16. -/
def digit (base : Nat) (c : Char) : Option Nat :=
  let n := c.toNat
  let d :=
    if 48 ≤ n ∧ n ≤ 57 then n - 48 else if 65 ≤ n ∧ n ≤ 70 then n - 55 else if 97 ≤ n ∧ n ≤ 102 then n - 87 else base
  if d < base then some d else none

/-- Digits in a base, most significant first, after a value already read. -/
def digits (base : Nat) : Nat → List Char → Option Nat
  | acc, [] => some acc
  | acc, c :: cs =>
    match digit base c with
    | some d => digits base (acc * base + d) cs
    | none => none

/-- A number, decimal or `0x` hexadecimal (R100). -/
def number (cs : List Char) : Option Nat :=
  match cs with
  | [] => none
  | '0' :: 'x' :: [] => none
  | '0' :: 'x' :: ds => digits 16 0 ds
  | ds => digits 10 0 ds

/-- Whether a character separates words. -/
def isBlank (c : Char) : Bool := c == ' ' || c == '\t'

/-- Characters without blanks at either end. -/
def trim (cs : List Char) : List Char := ((cs.dropWhile isBlank).reverse.dropWhile isBlank).reverse

/-- The pieces between commas. -/
def pieces : List Char → List (List Char)
  | [] => [[]]
  | c :: cs =>
    match pieces cs with
    | [] => [[c]]
    | p :: ps => if c == ',' then [] :: p :: ps else (c :: p) :: ps

/-- Numbers of all pieces, or none. -/
def numbers : List (List Char) → Option (List Nat)
  | [] => some []
  | p :: ps =>
    match number (trim p), numbers ps with
    | some n, some ns => some (n :: ns)
    | _, _ => none

/-- The arguments of CREATE (R102). -/
inductive CreateKey where
  | half
  | timeout
  | retries
  | rdaddr
  | sclrd
deriving DecidableEq, Repr

/-- A key as it is written (R102); no other is known. -/
def createKey (name : List Char) : Option CreateKey :=
  match name with
  | ['h', 'a', 'l', 'f'] => some .half
  | ['t', 'i', 'm', 'e', 'o', 'u', 't'] => some .timeout
  | ['r', 'e', 't', 'r', 'i', 'e', 's'] => some .retries
  | ['r', 'd', 'a', 'd', 'd', 'r'] => some .rdaddr
  | ['s', 'c', 'l', 'r', 'd'] => some .sclrd
  | _ => none

/-- A creation argument `key=value` (R102); none if it is malformed or its key is unknown. DESIGN CHOICE, log 24. -/
def keyed (p : List Char) : Option (CreateKey × Nat) :=
  let q := trim p
  match createKey (q.takeWhile (· != '=')), number (q.drop ((q.takeWhile (· != '=')).length + 1)) with
  | some k, some n => some (k, n)
  | _, _ => none

/-- The creation arguments of a line, or none: one malformed, unknown or repeated argument makes the whole line malformed.
R102 gives only the well-formed syntax: DESIGN CHOICE, log 24. -/
def keyedAll : List (List Char) → Option (List (CreateKey × Nat))
  | [] => some []
  | p :: ps =>
    match keyed p, keyedAll ps with
    | some kv, some kvs => if kvs.any (fun x => x.1 == kv.1) then none else some (kv :: kvs)
    | _, _ => none

/-- The value of a key among creation arguments, each of which is there at most once. -/
def valueOf (key : CreateKey) : List (CreateKey × Nat) → Option Nat
  | [] => none
  | (k, n) :: rest => if k == key then some n else valueOf key rest

/-- The CREATE line of its arguments, in any order; only `retries` may be left out (R6, R102). DESIGN CHOICE, log 24. -/
def createLine (kvs : List (CreateKey × Nat)) : Option AsmLine :=
  match valueOf .half kvs, valueOf .timeout kvs, valueOf .rdaddr kvs, valueOf .sclrd kvs with
  | some half, some timeout, some rdaddr, some sclrd =>
    some (.create half timeout (valueOf .retries kvs) rdaddr sclrd)
  | _, _, _, _ => none

/-- The line `mnemonic operands`. -/
def parseOperands (mnemonic operands : List Char) : Option AsmLine :=
  let ns := if operands.isEmpty then some [] else numbers (pieces operands)
  match mnemonic, ns with
  | ['X', 'F', 'E', 'R', '.', 'W'], some [addr, byte] => some (.xferW addr byte)
  | ['X', 'F', 'E', 'R', '.', 'R'], some [addr] => some (.xferR addr none)
  | ['X', 'F', 'E', 'R', '.', 'R'], some [addr, init] => some (.xferR addr (some init))
  | ['S', 'C', 'L', 'W'], some [] => some .sclw
  | ['S', 'T', 'A', 'R', 'T'], some [] => some .start
  | ['S', 'T', 'O', 'P'], some [] => some .stop
  | ['F', 'N', 'A', 'C', 'K'], some [] => some .fnack
  | ['W', 'B', 'I', 'T'], some [b] => some (.wbit b)
  | ['W', 'B', 'Y', 'T', 'E'], some [byte] => some (.wbyte byte)
  | ['R', 'B', 'Y', 'T', 'E'], some [] => some .rbyte
  | ['S', 'E', 'N', 'D'], some [addr, flags, byte] => some (.send addr flags byte)
  | ['R', 'E', 'C', 'V'], some [addr, flags] => some (.recv addr flags)
  | ['C', 'R', 'E', 'A', 'T', 'E'], _ => (keyedAll (pieces operands)).bind createLine
  | _, _ => none

/-- A line of text (R100 to R102). -/
def parseLine (text : List Char) : Option AsmLine :=
  let line := trim (text.takeWhile (· != ';'))
  parseOperands (line.takeWhile fun c => !isBlank c) (trim (line.dropWhile fun c => !isBlank c))

/-- The command word a line of text assembles to, if it is a well-formed command (R100). -/
def assemble (text : List Char) : Option Word := (parseLine text).bind assembleLine

end Sys2Proof.Machine
end

