-- ==== Sys2Proof/Machine/Buses.lean ====
section
/-! DEFINITION. Several buses, one per line pair, each its own instance (spec 20_memory R63, 60_exceptions R230). -/

namespace Sys2Proof.Machine

open Sys2Proof

/-- A step of bus `k`: a command names its bus by the instance it is issued to, and no bus shares anything (R63). There is
no bus beyond the list, and a step of none changes nothing. -/
def stepAt (k : Nat) (buses : List State) : Host.Outcome (List State) Fault Refusal :=
  match buses[k]? with
  | none => .next buses
  | some s =>
    match step s with
    | .next t => .next (buses.set k t)
    | .fault f => .fault f
    | .refused r => .refused r

end Sys2Proof.Machine
end

