-- ==== Sys2Proof/Safety.lean ====
section
/-! DEFINITION. What claims are stated in: the event traces the spec writes out (R16, R120, R130 to R157), what is read
off a trace (drives, samples, SDA transitions, who holds the guard), and the invariant of a safe run. -/

namespace Sys2Proof.Safety

open Sys2Proof Sys2Proof.Machine

/-! ### Events the spec writes out -/

/-- An event with the answer of `Now()` left out, for traces whose ticks are the time source's (R16's bare `N`). -/
def untimed : Event → Event
  | .now _ => .now 0#32
  | e => e

/-- The seven trace forms of SCLW with their results and conditions (R120), each `Now()` after a sleep at least POLL ticks
after the one before it (R21). -/
inductive SclwRun (r : NumRegs) : List Event → Ret Unit → Prop where
  | noReadback (h : r.sclReadable = false) :
      SclwRun r [.drive .scl .rel, .delayUs r.cfgHalf] (.ok ())
  | highAtFirst (h : r.sclReadable = true) (t0 : Word) :
      SclwRun r [.drive .scl .rel, .now t0, .sample .scl .hi, .delayUs r.cfgHalf] (.ok ())
  | highAtSecond (h : r.sclReadable = true) (t0 t1 : Word) (h1 : (t1 - t0).toNat < r.cfgTimeout.toNat) :
      SclwRun r
        [.drive .scl .rel, .now t0, .sample .scl .lo, .now t1, .sleepTicks r.poll, .sample .scl .hi,
          .delayUs r.cfgHalf] (.ok ())
  | highAtThird (h : r.sclReadable = true) (t0 t1 t2 : Word) (h1 : (t1 - t0).toNat < r.cfgTimeout.toNat)
      (h2 : (t2 - t0).toNat < r.cfgTimeout.toNat) (gap : (t1 - t0).toNat + r.poll ≤ (t2 - t0).toNat) :
      SclwRun r
        [.drive .scl .rel, .now t0, .sample .scl .lo, .now t1, .sleepTicks r.poll, .sample .scl .lo, .now t2,
          .sleepTicks r.poll, .sample .scl .hi, .delayUs r.cfgHalf] (.ok ())
  | timeoutAtFirst (h : r.sclReadable = true) (t0 t1 : Word) (h1 : r.cfgTimeout.toNat ≤ (t1 - t0).toNat) :
      SclwRun r [.drive .scl .rel, .now t0, .sample .scl .lo, .now t1] (.err .timeout)
  | timeoutAtSecond (h : r.sclReadable = true) (t0 t1 t2 : Word) (h1 : (t1 - t0).toNat < r.cfgTimeout.toNat)
      (h2 : r.cfgTimeout.toNat ≤ (t2 - t0).toNat) (gap : (t1 - t0).toNat + r.poll ≤ (t2 - t0).toNat) :
      SclwRun r
        [.drive .scl .rel, .now t0, .sample .scl .lo, .now t1, .sleepTicks r.poll, .sample .scl .lo, .now t2]
        (.err .timeout)
  | timeoutAtThird (h : r.sclReadable = true) (t0 t1 t2 t3 : Word) (h1 : (t1 - t0).toNat < r.cfgTimeout.toNat)
      (h2 : (t2 - t0).toNat < r.cfgTimeout.toNat) (h3 : r.cfgTimeout.toNat ≤ (t3 - t0).toNat)
      (gap : (t1 - t0).toNat + r.poll ≤ (t2 - t0).toNat) (gap' : (t2 - t0).toNat + r.poll ≤ (t3 - t0).toNat) :
      SclwRun r
        [.drive .scl .rel, .now t0, .sample .scl .lo, .now t1, .sleepTicks r.poll, .sample .scl .lo, .now t2,
          .sleepTicks r.poll, .sample .scl .lo, .now t3]
        (.err .timeout)

/-- START after its `Drive(SDA, REL)`, its SCLW's events being `es` (R130). -/
def startEvents (r : NumRegs) (es : List Event) : List Event :=
  .drive .sda .rel ::
    (es ++ [.delayUs r.cfgHalf, .drive .sda .low, .delayUs r.cfgHalf, .drive .scl .low])

/-- STOP (R132). -/
def stopEvents (r : NumRegs) : List Event :=
  [.drive .sda .low, .delayUs r.cfgHalf, .drive .scl .rel, .delayUs r.cfgHalf, .drive .sda .rel, .delayUs r.cfgHalf]

/-- FNACK (R134). -/
def fnackEvents (r : NumRegs) : List Event :=
  [.delayUs r.cfgHalf, .drive .sda .rel, .drive .scl .rel, .delayUs r.cfgHalf, .drive .scl .low, .delayUs r.cfgHalf,
    .drive .sda .low, .delayUs r.cfgHalf]

/-- The events of a bit before its SCLW (R150). -/
def bitSetup (r : NumRegs) (b : Bool) : List Event :=
  [.drive .scl .low, .drive .sda (drvOf b), .delayUs r.cfgHalf]

/-- WBYTE's bits `n - 1` down to 0: one pulse each, the rest given up at the first `Timeout` (R152). -/
inductive WriteBits (r : NumRegs) (v : Byte) : Nat → List Event → Ret Unit → Prop where
  | done : WriteBits r v 0 [] (.ok ())
  | bit {n : Nat} {es fs : List Event} {q : Ret Unit} (h : SclwRun r es (.ok ())) (k : WriteBits r v n fs q) :
      WriteBits r v (n + 1) (bitSetup r (v.getLsbD n) ++ (es ++ fs)) q
  | timeout {n : Nat} {es : List Event} (h : SclwRun r es (.err .timeout)) :
      WriteBits r v (n + 1) (bitSetup r (v.getLsbD n) ++ es) (.err .timeout)

/-- WBYTE: eight bits, then the acknowledge pulse; SDA is sampled only when its SCLW succeeds (R152). -/
inductive ByteWrite (r : NumRegs) (v : Byte) : List Event → Ret Bool → Prop where
  | bitTimeout {es : List Event} (h : WriteBits r v 8 es (.err .timeout)) : ByteWrite r v es (.err .timeout)
  | ackTimeout {es fs : List Event} (h : WriteBits r v 8 es (.ok ())) (k : SclwRun r fs (.err .timeout)) :
      ByteWrite r v (es ++ (bitSetup r true ++ fs)) (.err .timeout)
  | acknowledge {es fs : List Event} (a : Level) (h : WriteBits r v 8 es (.ok ())) (k : SclwRun r fs (.ok ())) :
      ByteWrite r v (es ++ (bitSetup r true ++ (fs ++ [.sample .sda a, .drive .scl .low]))) (.ok (ackOf a))

/-- RBYTE's bits `n - 1` down to 0, with the levels sampled in order (R155). -/
inductive ReadBits (r : NumRegs) : Nat → List Level → List Event → Ret Unit → Prop where
  | done : ReadBits r 0 [] [] (.ok ())
  | bit {n : Nat} {vs : List Level} {es fs : List Event} {q : Ret Unit} (v : Level) (h : SclwRun r es (.ok ()))
      (k : ReadBits r n vs fs q) :
      ReadBits r (n + 1) (v :: vs) (es ++ (.sample .sda v :: .drive .scl .low :: .delayUs r.cfgHalf :: fs)) q
  | timeout {n : Nat} {es : List Event} (h : SclwRun r es (.err .timeout)) :
      ReadBits r (n + 1) [] es (.err .timeout)

/-- RBYTE, with the levels sampled in order (R155). -/
def ByteRead (r : NumRegs) (vs : List Level) (es : List Event) (q : Ret Unit) : Prop :=
  ∃ fs, ReadBits r 8 vs fs q ∧ es = .drive .sda .rel :: .delayUs r.cfgHalf :: fs

/-- The byte assembled from sampled levels, most significant first (R155, R156). -/
def byteOf (vs : List Level) : Byte := vs.foldl shiftIn 0#8

/-- The address phase with `n` retries left that makes `k` of them: a NACK with a retry left is followed by STOP and
START, with none left it is NoAcknowledge; a `Timeout` ends it at once (R180, R181). -/
inductive AddressRun (r : NumRegs) (ab : Byte) : Nat → Nat → List Event → Ret Unit → Prop where
  | acknowledged {n : Nat} {es : List Event} (h : ByteWrite r ab es (.ok true)) : AddressRun r ab n 0 es (.ok ())
  | timeout {n : Nat} {es : List Event} (h : ByteWrite r ab es (.err .timeout)) :
      AddressRun r ab n 0 es (.err .timeout)
  | exhausted {es : List Event} (h : ByteWrite r ab es (.ok false)) : AddressRun r ab 0 0 es (.err .noAcknowledge)
  | retry {n k : Nat} {es fs gs : List Event} {p q : Ret Unit} (h : ByteWrite r ab es (.ok false))
      (st : SclwRun r fs p) (more : AddressRun r ab n k gs q) :
      AddressRun r ab (n + 1) (k + 1) (es ++ (stopEvents r ++ (startEvents r fs ++ gs))) q

/-- The data phase: its events, the error it leaves, and MSG_BYTE after it (R182, R183). -/
inductive DataRun (r : NumRegs) (dir : BitVec 1) (byte : Byte) : List Event → Option Err → Byte → Prop where
  | written {es : List Event} (d : dir = 0#1) (h : ByteWrite r byte es (.ok true)) : DataRun r dir byte es none byte
  | notAcknowledged {es : List Event} (d : dir = 0#1) (h : ByteWrite r byte es (.ok false)) :
      DataRun r dir byte es (some .io) byte
  | writeTimeout {es : List Event} (d : dir = 0#1) (h : ByteWrite r byte es (.err .timeout)) :
      DataRun r dir byte es (some .timeout) byte
  | read {vs : List Level} {es : List Event} (d : dir = 1#1) (h : ByteRead r vs es (.ok ())) :
      DataRun r dir byte (es ++ fnackEvents r) none (byteOf vs)
  | readTimeout {vs : List Level} {es : List Event} (d : dir = 1#1) (h : ByteRead r vs es (.err .timeout)) :
      DataRun r dir byte es (some .timeout) byte

/-- A transfer between its Acquire and its Release: its events, how often ATTEMPT was incremented (none where the address
phase is not run), the error, and MSG_BYTE at the end (R178). -/
inductive TransferRun (r : NumRegs) (addr : BitVec 16) (dir : BitVec 1) (byte : Byte) :
    List Event → Option Nat → Option Err → Byte → Prop where
  | unaddressed {fs ds : List Event} {p : Ret Unit} {e : Option Err} {b : Byte} (a : r.addressed dir = false)
      (st : SclwRun r fs p) (data : DataRun r dir byte ds e b) :
      TransferRun r addr dir byte (startEvents r fs ++ (ds ++ stopEvents r)) none e b
  | addressed {fs as ds : List Event} {p : Ret Unit} {k : Nat} {e : Option Err} {b : Byte}
      (a : r.addressed dir = true) (st : SclwRun r fs p)
      (ad : AddressRun r (addressByte addr dir) r.cfgRetries.toNat k as (.ok ())) (data : DataRun r dir byte ds e b) :
      TransferRun r addr dir byte (startEvents r fs ++ (as ++ (ds ++ stopEvents r))) (some k) e b
  | addressFailed {fs as : List Event} {p : Ret Unit} {k : Nat} {e : Err}
      (a : r.addressed dir = true) (st : SclwRun r fs p)
      (ad : AddressRun r (addressByte addr dir) r.cfgRetries.toNat k as (.err e)) :
      TransferRun r addr dir byte (startEvents r fs ++ (as ++ stopEvents r)) (some k) (some e) byte

/-- An SCLW that succeeds at once, untimed (R120 rows 1 and 2). -/
def promptSclw (r : NumRegs) : List Event :=
  if r.sclReadable then [.drive .scl .rel, .now 0#32, .sample .scl .hi, .delayUs r.cfgHalf]
  else [.drive .scl .rel, .delayUs r.cfgHalf]

/-- START whose SCLW succeeds at once, untimed (R130). -/
def promptStart (r : NumRegs) : List Event := startEvents r (promptSclw r)

/-- WBYTE's bits `n - 1` down to 0 with every SCLW succeeding at once, untimed (R154). -/
def promptBits (r : NumRegs) (v : Byte) : Nat → List Event
  | 0 => []
  | n + 1 => bitSetup r (v.getLsbD n) ++ (promptSclw r ++ promptBits r v n)

/-- WBYTE with every SCLW succeeding at once and `a` sampled in the acknowledge pulse, untimed (R154). -/
def promptWbyte (r : NumRegs) (v : Byte) (a : Level) : List Event :=
  promptBits r v 8 ++
    (bitSetup r true ++ (promptSclw r ++ [.sample .sda a, .drive .scl .low]))

/-- RBYTE's bit groups with every SCLW succeeding at once, one for each level of `bits`, untimed (R157). -/
def promptReads (r : NumRegs) (bits : List Level) : List Event :=
  bits.flatMap fun b => promptSclw r ++ [.sample .sda b, .drive .scl .low, .delayUs r.cfgHalf]

/-- RBYTE with every SCLW succeeding at once, untimed (R157). -/
def promptRbyte (r : NumRegs) (bits : List Level) : List Event :=
  .drive .sda .rel :: .delayUs r.cfgHalf :: promptReads r bits

/-- One NACKed address attempt and the STOP START that follows it, all SCLWs prompt, untimed (R180). -/
def nackedAttempt (r : NumRegs) (ab : Byte) : List Event :=
  promptWbyte r ab .hi ++ (stopEvents r ++ promptStart r)

/-- XFER.W or XFER.R, by direction (R80). -/
def transferCommand (dir : BitVec 1) (addr : BitVec 16) (byte : Byte) : Instr :=
  if dir = 0#1 then .xferW addr byte else .xferR addr byte

/-! ### What a command leaves behind -/

/-- The answers a caller has after one more. -/
def answeredPort (h : HostPort) (a : Answer) : HostPort :=
  { h with replies := h.replies ++ [{ caller := h.issuer, answer := a }] }

/-- A micro-op ran whole with the events `es` between its Acquire and its Release and returned `res`; the numbered
registers, PHASE, STEP, GUARD and WAITERS are as before (R227, R231). -/
structure MicroRan (s t : State) (es : List Event) (res : Word) : Prop where
  trace : t.trace = s.trace ++ (.acquire s.host.issuer :: (es ++ [.release s.host.issuer]))
  regs : t.regs = s.regs
  seq : t.seq = s.seq
  lock : t.lock = s.lock
  host : t.host = answeredPort s.host (.result res)

/-- A transfer ran whole with the events `es` between its Acquire and its Release; it left error `e` and message byte `m`
in ERR, LAST_ERROR, MSG_BYTE and the result word, both drivers released and PHASE IDLE; the configuration, STEP, GUARD and
WAITERS are as before (R178, R185). -/
structure TransferRan (s t : State) (es : List Event) (e : Option Err) (m : Byte) : Prop where
  trace : t.trace = s.trace ++ (.acquire s.host.issuer :: (es ++ [.release s.host.issuer]))
  regs : t.regs = { s.regs with lastError := lastErrorWord e }
  err : t.work.err = e
  msgByte : t.work.msgByte = m
  lines : t.lines = { sda := .rel, scl := .rel }
  seq : t.seq = { s.seq with phase := .idle }
  lock : t.lock = s.lock
  host : t.host = answeredPort s.host (.result (resWord (errCode e) false m))

/-! ### Read off a trace -/

/-- The SDA samples' answers, in order. -/
def sdaSamples : List Event → List Level
  | [] => []
  | .sample .sda v :: es => v :: sdaSamples es
  | _ :: es => sdaSamples es

/-- The level a line has when only the block acts on it. -/
def levelOf : Drv → Level
  | .rel => .hi
  | .low => .lo

/-- The states SDA is driven to, in order. -/
def sdaDrives : List Event → List Drv
  | [] => []
  | .drive .sda d :: es => d :: sdaDrives es
  | _ :: es => sdaDrives es

/-- Whether an event is a sample of SCL. -/
def isSclSample : Event → Bool
  | .sample .scl _ => true
  | _ => false

/-- Whether an event is a `Now()`. -/
def isNow : Event → Bool
  | .now _ => true
  | _ => false

/-- Whether an event is a sleep. -/
def isSleep : Event → Bool
  | .sleepTicks _ => true
  | _ => false

/-- Whether an event is a half-bit or other busy-wait. -/
def isDelay : Event → Bool
  | .delayUs _ => true
  | _ => false

/-- T0 after these events, from `t0`: each `Now()` read directly after a release of SCL starts a wait (R40, R116). -/
def startTick (t0 : Word) : List Event → Word
  | [] => t0
  | .drive .scl .rel :: .now t :: es => startTick t es
  | _ :: es => startTick t0 es

/-- The acknowledge flag after these samples of SDA in acknowledge pulses, from `a` (R38). -/
def ackAfter (a : Bool) (vs : List Level) : Bool := (vs.getLast?.map ackOf).getD a

/-- The start condition and then the stop condition as SDA transitions, both with SCL released (R131, R133). -/
def startStop : List (Drv × Drv) := [(.low, .rel), (.rel, .rel)]

/-- SDA transitions the block makes: the new state of its SDA driver, and its SCL driver at that event (R18, R131). From
drivers `x`. A drive that changes nothing is no transition. -/
def sdaEdges : Lines → List Event → List (Drv × Drv)
  | _, [] => []
  | x, e :: es =>
    match e with
    | .drive .sda d => if x.sda = d then sdaEdges x es else (d, x.scl) :: sdaEdges { x with sda := d } es
    | .drive .scl d => sdaEdges { x with scl := d } es
    | _ => sdaEdges x es

/-- Whether every sample is of a line whose own driver is REL then (R61), from drivers `x`. -/
def samplesReleased : Lines → List Event → Bool
  | _, [] => true
  | x, e :: es =>
    match e with
    | .drive l d => samplesReleased (x.set l d) es
    | .sample l _ => x.get l == .rel && samplesReleased x es
    | _ => samplesReleased x es

/-- Who holds the guard after a trace, from holder `h`; none where the trace breaks R62: an Acquire of a held guard, a
Release by another caller, or any event while no caller holds the guard. -/
def guardAfter : Option Nat → List Event → Option (Option Nat)
  | h, [] => some h
  | h, e :: es =>
    match e, h with
    | .acquire c, none => guardAfter (some c) es
    | .acquire _, some _ => none
    | .release c, some d => if c = d then guardAfter none es else none
    | .release _, none => none
    | _, some d => guardAfter (some d) es
    | _, none => none

/-! ### The invariant of a safe run -/

/-- The holder of the guard. -/
def holder : Guard → Option Nat
  | .free => none
  | .held c => some c

/-- The transitions of PHASE (R186). -/
def phaseStep : Phase → Phase → Bool
  | .idle, .started => true
  | .started, .addr => true
  | .started, .data => true
  | .addr, .data => true
  | .addr, .addr => true
  | .addr, .stopped => true
  | .data, .stopped => true
  | .stopped, .idle => true
  | _, _ => false

/-- Where a `Timeout` met in phase `ph` before the lines `l` is caught: START goes on, a micro-op ends in IDLE, a transfer
goes to FINISH from ADDR or DATA. -/
def timeoutOk (ph : Phase) : List Micro → Bool
  | [] => false
  | m :: rest =>
    match m with
    | .catchIgnore => true
    | .catchMicro => ph == .idle
    | .catchTransfer => ph == .addr || ph == .data
    | .setPhase _ => false
    | .clearAttempt => false
    | .nextAttempt => false
    | .addrDecide => false
    | .setLastError => false
    | .endMicro _ => false
    | .endTransfer => false
    | _ => timeoutOk ph rest

/-- Whether the lines of STEP can be run from phase `ph`: every PHASE write is in R186's table, LAST_ERROR is written only
at the end, the command ends IDLE with its Release as its last line, every timeout is caught, and ATTEMPT is incremented
only while `more` attempts are left (R37). -/
def linesOk (ph : Phase) (more : Bool) : List Micro → Bool
  | [] => false
  | m :: rest =>
    match m with
    | .endMicro _ => rest.isEmpty && ph == .idle
    | .endTransfer => rest.isEmpty && ph == .idle
    | .setLastError => ph == .stopped && rest == [.setPhase .idle, .endTransfer]
    | .setPhase p => phaseStep ph p && linesOk p more rest
    | .pollScl => timeoutOk ph rest && linesOk ph more rest
    | .checkTime => timeoutOk ph rest && linesOk ph more rest
    | .catchMicro => ph == .idle && linesOk ph more rest
    | .catchTransfer => (ph == .addr || ph == .data) && linesOk ph more rest
    | .addrDecide => ph == .addr
    | .clearAttempt => linesOk ph false rest
    | .nextAttempt => more && linesOk ph false rest
    | _ => linesOk ph more rest

/-- What the numbered registers always satisfy: CFG_TIMEOUT is not 0 (R32), reserved bits are 0 (R30). -/
structure RegsOk (r : NumRegs) : Prop where
  timeout : r.cfgTimeout ≠ 0#32
  policy : r.cfgPolicy &&& 0xFFFFFFFE#32 = 0#32
  cap : r.cap &&& 0xFFFFFFFE#32 = 0#32
  lastError : r.lastError &&& 0xFFFFFFFC#32 = 0#32

/-- Between commands the sequencer is IDLE with no line left; during one, the running caller holds the guard and the lines
left are runnable (R44 to R46, R186). -/
def SequencerOk (s : State) : Prop :=
  match s.lock.guard with
  | .free => s.seq.phase = .idle ∧ s.seq.pos = []
  | .held c =>
    s.host.issuer = c ∧
      linesOk s.seq.phase (decide (s.work.attempt.toNat < s.regs.cfgRetries.toNat)) s.seq.pos = true

/-- No caller waits twice, and the holder does not wait (R65.3). -/
def WaitersOk (l : Lock) : Prop :=
  (l.waiters.map Waiter.caller).Nodup ∧ ∀ c, l.guard = .held c → c ∉ l.waiters.map Waiter.caller

/-- The invariant of a safe run. -/
structure Inv (s : State) : Prop where
  regs : RegsOk s.regs
  attempt : s.work.attempt.toNat ≤ s.regs.cfgRetries.toNat
  sequencer : SequencerOk s
  waiters : WaitersOk s.lock

/-- The guard is held by whom the trace says, and the running command is that caller's (R62). -/
structure TraceOk (s : State) : Prop where
  guard : guardAfter none s.trace = some (holder s.lock.guard)
  issuer : ∀ c, s.lock.guard = .held c → s.host.issuer = c

end Sys2Proof.Safety
end

