-- ==== Sys2Proof/Certificates/Slice0/Obligations.lean ====
section
/-! DEFINITION. The statements for the provers, each the rule or rules of spec/ its docstring names. -/

open Sys2Proof Sys2Proof.Machine Sys2Proof.Safety

/-! ### Encoding -/

/-- Decoding the word of a command gives the command back, every operand at every value (R80, R82, R83, R85). -/
def Obligations.DecodeOfEncodeIsTheCommand : Prop :=
  ∀ i : Instr, decode (encode i) = .ok i

/-- A word that decodes is the word of the command it decodes to: no bit is ignored (R80, R85, R93). -/
def Obligations.EncodeOfDecodeIsTheWord : Prop :=
  ∀ (w : Word) (i : Instr), decode w = .ok i → encode i = w

/-- R86: a word is a row's command exactly when CMD & mask = match, no two rows accept one word, a word no row accepts is
refused, and the free fields are the operands. -/
def Obligations.DecoderAgreesWithTheMatchAndMaskTable : Prop :=
  ∀ w : Word,
    (∀ r ∈ opcodeTable, r.accepts w = true ↔ ∃ i, decode w = .ok i ∧ i.row = r) ∧
    opcodeTable.Pairwise (fun a b => ¬(a.accepts w = true ∧ b.accepts w = true)) ∧
    ((∃ why, decode w = .refused why) ↔ ∀ r ∈ opcodeTable, r.accepts w = false) ∧
    (∀ addr byte, decode w = .ok (.xferW addr byte) → addr = w.extractLsb' 16 16 ∧ byte = w.extractLsb' 8 8) ∧
    (∀ addr init, decode w = .ok (.xferR addr init) → addr = w.extractLsb' 16 16 ∧ init = w.extractLsb' 8 8) ∧
    (∀ b, decode w = .ok (.wbit b) → b = w.extractLsb' 8 1) ∧
    (∀ v, decode w = .ok (.wbyte v) → v = w.extractLsb' 8 8)

/-- The encoding examples of R87. -/
def Obligations.ExampleWordsDecode : Prop :=
  decode 0x00215A01#32 = .ok (.xferW 0x0021#16 0x5A#8) ∧
  decode 0x00210011#32 = .ok (.xferR 0x0021#16 0x00#8) ∧
  decode 0x0000010C#32 = .ok (.wbit 1#1) ∧
  decode 0x0000000C#32 = .ok (.wbit 0#1) ∧
  decode 0x0000420D#32 = .ok (.wbyte 0x42#8) ∧
  decode 0x00000009#32 = .ok .start

/-- The six words R87 gives for lines of R100's syntax, and the SEND and RECV expansions of R101. That a line with an
operand out of R100's range assembles to nothing is the model's choice, log 24. -/
def Obligations.AssemblerGivesTheExampleWords : Prop :=
  assembleLine (.xferW 0x21 0x5A) = some 0x00215A01#32 ∧
  assembleLine (.xferR 0x21 none) = some 0x00210011#32 ∧
  assembleLine (.wbit 1) = some 0x0000010C#32 ∧
  assembleLine (.wbit 0) = some 0x0000000C#32 ∧
  assembleLine (.wbyte 0x42) = some 0x0000420D#32 ∧
  assembleLine .start = some 0x00000009#32 ∧
  (∀ flags, assembleLine (.send 0x21 flags 0x5A) = some 0x00215A01#32) ∧
  (∀ flags, assembleLine (.recv 0x21 flags) = some 0x00210011#32) ∧
  assembleLine (.wbit 2) = none

/-- R93: which words are refused, and that a refused word emits no event and changes no state: a step takes it off the
port and tells its caller. That the run then goes on is the model's choice, log 9. -/
def Obligations.ReservedWordsAreRefusedWithoutEffect : Prop :=
  (∀ w : Word, w.extractLsb' 0 4 ∈ [0x0#4, 0x2#4, 0x3#4, 0x4#4, 0x5#4, 0x6#4, 0x7#4, 0xF#4] →
    ∃ why, decode w = .refused why) ∧
  (∀ w : Word, w.extractLsb' 5 3 ≠ 0#3 → ∃ why, decode w = .refused why) ∧
  (∀ w : Word, w.extractLsb' 0 4 ∈ [0x8#4, 0x9#4, 0xA#4, 0xB#4, 0xE#4] → w.extractLsb' 4 28 ≠ 0#28 →
    ∃ why, decode w = .refused why) ∧
  (∀ w : Word, w.extractLsb' 0 4 = 0xC#4 → (w.extractLsb' 9 23 ≠ 0#23 ∨ w.extractLsb' 4 4 ≠ 0#4) →
    ∃ why, decode w = .refused why) ∧
  (∀ w : Word, w.extractLsb' 0 4 = 0xD#4 → (w.extractLsb' 16 16 ≠ 0#16 ∨ w.extractLsb' 4 4 ≠ 0#4) →
    ∃ why, decode w = .refused why) ∧
  (∀ (s : State) (r : Request) (rest : List Request) (why : Reject),
    s.host.created = true → s.host.turns = [] → s.lock.guard = .free → s.lock.waiters = [] →
    s.host.port = r :: rest → decode r.word = .refused why →
    step s = .next { s with host := { s.host with
      port := rest, replies := s.host.replies ++ [{ caller := r.caller, answer := .refused why }] } })

/-- A step of an idle machine runs the command the port's first word decodes to, for the caller that issued it. -/
def Obligations.StepRunsTheDecodedCommand : Prop :=
  ∀ (s : State) (r : Request) (rest : List Request) (i : Instr),
    s.host.created = true → s.host.turns = [] → s.lock.guard = .free → s.lock.waiters = [] →
    s.host.port = r :: rest → decode r.word = .ok i →
    step s = exec i { s with host := { s.host with port := rest, issuer := r.caller } }

/-- The result word has exactly the fields of R96. -/
def Obligations.ResultWordHasTheFieldsOfTheTable : Prop :=
  ∀ (code : BitVec 2) (ackr : Bool) (byter : Byte),
    (resWord code ackr byter).extractLsb' 0 2 = code ∧ (resWord code ackr byter).getLsbD 4 = ackr ∧
    (resWord code ackr byter).extractLsb' 8 8 = byter ∧ resWord code ackr byter &&& 0xFFFF00EC#32 = 0#32

/-! ### The clock-release wait -/

/-- Every SCLW emits one of the seven trace forms of R120, with that form's result. -/
def Obligations.SclwTraceIsOneOfTheTable : Prop :=
  ∀ s : State, ∃ es, (sclw s).2.trace = s.trace ++ es ∧ SclwRun s.regs es (sclw s).1

/-- R117: with read-back, one SCLW makes at most 3 samples, 2 sleeps, 4 clock reads and 10 events; 4 clock reads only on
the timeout path, which has no settle delay; with CFG_TIMEOUT = 1 at most 2 samples and 1 sleep. -/
def Obligations.SclwIsBounded : Prop :=
  ∀ (s : State) (es : List Event), s.regs.sclReadable = true → s.regs.cfgTimeout ≠ 0#32 →
    (sclw s).2.trace = s.trace ++ es →
    es.countP isSclSample ≤ 3 ∧ es.countP isSleep ≤ 2 ∧ es.countP isNow ≤ 4 ∧ es.length ≤ 10 ∧
    (es.countP isNow = 4 → (sclw s).1 = .err .timeout ∧ es.countP isDelay = 0) ∧
    (s.regs.cfgTimeout = 1#32 → es.countP isSclSample ≤ 2 ∧ es.countP isSleep ≤ 1)

/-- R118: after SCLW the driver of SCL is released and that of SDA unchanged; on Ok the last SCL sample was HI, or there
was none without read-back. -/
def Obligations.SclwLeavesTheLinesAsStated : Prop :=
  ∀ (s : State) (es : List Event), (sclw s).2.trace = s.trace ++ es →
    (sclw s).2.lines = { s.lines with scl := .rel } ∧
    ((sclw s).1 = .ok () →
      (s.regs.sclReadable = true → (es.filter isSclSample).getLast? = some (.sample .scl .hi)) ∧
      (s.regs.sclReadable = false → es.filter isSclSample = []))

/-- R121 in its reference time source: ticks pass only in sleeps (the listed extra ticks are 0) and SCL stays LO. The wait
times out after 2 sleeps and 2 POLL ticks, or 1 sleep and 1 tick when CFG_TIMEOUT = 1. (2 POLL below 2^32 is R21.) -/
def Obligations.ReferenceWaitTakesTwoPolls : Prop :=
  ∀ (s : State) (rt : List Nat) (rs : List Level) (es : List Event),
    s.regs.sclReadable = true → s.regs.cfgTimeout ≠ 0#32 → 2 * s.regs.poll < 2 ^ 32 →
    s.env.ticksIn = 0 :: 0 :: 0 :: 0 :: rt → s.env.sclIn = .lo :: .lo :: .lo :: rs →
    (sclw s).2.trace = s.trace ++ es →
    (sclw s).1 = .err .timeout ∧
    (s.regs.cfgTimeout ≠ 1#32 →
      es.countP isSleep = 2 ∧ (sclw s).2.env.tick = s.env.tick + BitVec.ofNat 32 (2 * s.regs.poll)) ∧
    (s.regs.cfgTimeout = 1#32 → es.countP isSleep = 1 ∧ (sclw s).2.env.tick = s.env.tick + 1#32)

/-- The SCLW command (R116, R227): it completes whenever the guard is free; SCL ends released, SDA is unchanged, T0 is
written with read-back and nothing else of the working registers. -/
def Obligations.SclwCommand : Prop :=
  decode 0x00000008#32 = .ok .sclw ∧
  ∀ s : State, s.lock.guard = .free → ∃ t es q,
    exec .sclw s = .next t ∧ MicroRan s t es (unitRes q) ∧ SclwRun s.regs es q ∧
    t.lines = { s.lines with scl := .rel } ∧ t.work = { s.work with t0 := t.work.t0 } ∧
    (s.regs.sclReadable = true → ∃ fs, es = .drive .scl .rel :: .now t.work.t0 :: fs) ∧
    (s.regs.sclReadable = false → t.work = s.work)

/-! ### Start, stop, forced NACK -/

/-- The START command (R130): it completes whenever the guard is free, whatever its SCLW does; both lines end low. -/
def Obligations.StartCommand : Prop :=
  decode 0x00000009#32 = .ok .start ∧
  ∀ s : State, s.lock.guard = .free → ∃ t es q,
    exec .start s = .next t ∧ MicroRan s t (startEvents s.regs es) (resWord 0#2 false 0#8) ∧ SclwRun s.regs es q ∧
    t.lines = { sda := .low, scl := .low } ∧ t.work = { s.work with t0 := t.work.t0 } ∧
    (s.regs.sclReadable = true → ∃ fs, es = .drive .scl .rel :: .now t.work.t0 :: fs) ∧
    (s.regs.sclReadable = false → t.work = s.work)

/-- The STOP command (R132): it completes whenever the guard is free; both lines end released. -/
def Obligations.StopCommand : Prop :=
  decode 0x0000000A#32 = .ok .stop ∧
  ∀ s : State, s.lock.guard = .free → ∃ t,
    exec .stop s = .next t ∧ MicroRan s t (stopEvents s.regs) (resWord 0#2 false 0#8) ∧
    t.lines = { sda := .rel, scl := .rel } ∧ t.work = s.work ∧ t.env = s.env

/-- The FNACK command (R134): it completes whenever the guard is free; both lines end low and SDA is not sampled. -/
def Obligations.FnackCommand : Prop :=
  decode 0x0000000B#32 = .ok .fnack ∧
  ∀ s : State, s.lock.guard = .free → ∃ t,
    exec .fnack s = .next t ∧ MicroRan s t (fnackEvents s.regs) (resWord 0#2 false 0#8) ∧
    t.lines = { sda := .low, scl := .low } ∧ t.work = s.work ∧ t.env = s.env

/-- R136: START then STOP, with read-back and SCL high at once, from released lines: the trace, and exactly two SDA
transitions, the start and the stop condition, both with SCL released. -/
def Obligations.StartThenStopMakesTwoSdaTransitions : Prop :=
  ∀ (s : State) (rs : List Level),
    s.lock.guard = .free → s.lines = { sda := .rel, scl := .rel } → s.regs.sclReadable = true →
    s.env.sclIn = .hi :: rs → ∃ u t es fs,
    exec .start s = .next u ∧ exec .stop u = .next t ∧
    u.trace = s.trace ++ (.acquire s.host.issuer :: (es ++ [.release s.host.issuer])) ∧
    t.trace = u.trace ++ (.acquire s.host.issuer :: (fs ++ [.release s.host.issuer])) ∧
    (es ++ fs).map untimed =
      [.drive .sda .rel, .drive .scl .rel, .now 0#32, .sample .scl .hi, .delayUs s.regs.cfgHalf,
        .delayUs s.regs.cfgHalf, .drive .sda .low, .delayUs s.regs.cfgHalf, .drive .scl .low,
        .drive .sda .low, .delayUs s.regs.cfgHalf, .drive .scl .rel, .delayUs s.regs.cfgHalf, .drive .sda .rel,
        .delayUs s.regs.cfgHalf] ∧
    sdaEdges s.lines (es ++ fs) = [(.low, .rel), (.rel, .rel)]

/-! ### The shifters -/

/-- The WBIT command (R150): it completes whenever the guard is free; SCL low, the bit on SDA, a half bit, then SCLW. -/
def Obligations.WbitCommand : Prop :=
  decode 0x0000000C#32 = .ok (.wbit 0#1) ∧ decode 0x0000010C#32 = .ok (.wbit 1#1) ∧
  ∀ (b : BitVec 1) (s : State), s.lock.guard = .free → ∃ t es q,
    exec (.wbit b) s = .next t ∧ MicroRan s t (bitSetup s.regs (b == 1#1) ++ es) (unitRes q) ∧
    SclwRun s.regs es q ∧ t.lines = { sda := drvOf (b == 1#1), scl := .rel } ∧
    t.work = { s.work with t0 := t.work.t0 } ∧
    (s.regs.sclReadable = true → ∃ fs, es = .drive .scl .rel :: .now t.work.t0 :: fs) ∧
    (s.regs.sclReadable = false → t.work = s.work)

/-- The WBYTE command (R152): it completes whenever the guard is free. On Ok ACKR and ACK are the sampled acknowledge, SDA
ends released and SCL low; on a timeout CODE is 1, SCL ends released, SDA as it was last set and not sampled, and ACK is
unchanged. T0 is the tick of the last wait's start. That BIT keeps the index of the last bit sent, 0 after a whole byte, is
the model's reading, log 21. -/
def Obligations.WbyteCommand : Prop :=
  (∀ v : Byte, decode (0x0000000D#32 ||| (v.setWidth 32 <<< 8)) = .ok (.wbyte v)) ∧
  ∀ (v : Byte) (s : State), s.lock.guard = .free → ∃ t es q,
    exec (.wbyte v) s = .next t ∧ MicroRan s t es (ackRes q) ∧ ByteWrite s.regs v es q ∧
    t.work = { s.work with shift := v, bit := t.work.bit, ack := t.work.ack, t0 := startTick s.work.t0 es } ∧
    t.work.bit.val = 8 - (sdaDrives es).length ∧
    (∀ a, q = .ok a → t.work.ack = a ∧ t.lines = { sda := .rel, scl := .low }) ∧
    (∀ e, q = .err e → e = .timeout ∧ t.work.ack = s.work.ack ∧ t.lines.scl = .rel ∧
      (sdaDrives es).getLast? = some t.lines.sda ∧ sdaSamples es = [])

/-- R154, R158: with SCL high at every sample, WBYTE emits exactly the listed events, the bits of `v` most significant
first, and returns the acknowledge it sampled: 65 events with read-back, 47 without, 18 half bits. -/
def Obligations.PromptWbyteSendsEveryBit : Prop :=
  ∀ (v : Byte) (a : Level) (s : State) (rs ra : List Level),
    s.lock.guard = .free → (s.regs.sclReadable = true → s.env.sclIn = List.replicate 9 .hi ++ rs) →
    s.env.sdaIn = a :: ra → ∃ t es,
    exec (.wbyte v) s = .next t ∧ MicroRan s t es (resWord 0#2 (ackOf a) 0#8) ∧
    es.map untimed = promptWbyte s.regs v a ∧
    (sdaDrives es).take 8 = [drvOf (v.getLsbD 7), drvOf (v.getLsbD 6), drvOf (v.getLsbD 5), drvOf (v.getLsbD 4),
      drvOf (v.getLsbD 3), drvOf (v.getLsbD 2), drvOf (v.getLsbD 1), drvOf (v.getLsbD 0)] ∧
    es.length = (if s.regs.sclReadable then 65 else 47) ∧ es.countP isDelay = 18

/-- The RBYTE command (R155): it completes whenever the guard is free. On Ok BYTER is the byte whose bit 7-k is 1 exactly
when the k-th SDA sample answered HI (R156), SDA ends released and SCL low; on a timeout CODE is 1 and BYTER 0, and SCL
ends released. T0 is the tick of the last wait's start. That SHIFT keeps the bits sampled and BIT the index of the last bit
clocked, 0 after a whole byte, is the model's reading, log 21. -/
def Obligations.RbyteCommand : Prop :=
  decode 0x0000000E#32 = .ok .rbyte ∧
  ∀ s : State, s.lock.guard = .free → ∃ t vs es q,
    exec .rbyte s = .next t ∧ ByteRead s.regs vs es q ∧ t.lines.sda = .rel ∧ sdaSamples es = vs ∧
    t.work = { s.work with shift := byteOf vs, bit := t.work.bit, t0 := startTick s.work.t0 es } ∧
    t.work.bit.val = 7 - vs.length ∧
    (q = .ok () → MicroRan s t es (resWord 0#2 false (byteOf vs)) ∧ t.lines.scl = .low ∧ vs.length = 8 ∧
      (byteOf vs).toNat = ∑ k ∈ Finset.range 8, (if vs[k]? = some .hi then 2 ^ (7 - k) else 0)) ∧
    (∀ e, q = .err e → e = .timeout ∧ MicroRan s t es (resWord 1#2 false 0#8) ∧ t.lines.scl = .rel)

/-- R157: with SCL high at every sample, RBYTE emits exactly the listed events and returns the byte whose bit 7-k is
1 exactly when the k-th SDA sample answered HI: 58 events with read-back, 42 without, 17 half bits. -/
def Obligations.PromptRbyteAssemblesTheByte : Prop :=
  ∀ (bits : List Level) (s : State) (rs ra : List Level),
    s.lock.guard = .free → (s.regs.sclReadable = true → s.env.sclIn = List.replicate 8 .hi ++ rs) →
    bits.length = 8 → s.env.sdaIn = bits ++ ra → ∃ t es b,
    exec .rbyte s = .next t ∧ MicroRan s t es (resWord 0#2 false b) ∧
    b.toNat = ∑ k ∈ Finset.range 8, (if bits[k]? = some .hi then 2 ^ (7 - k) else 0) ∧
    es.map untimed = promptRbyte s.regs bits ∧
    es.length = (if s.regs.sclReadable then 58 else 42) ∧ es.countP isDelay = 17

/-- R159: where RBYTE's eight SDA samples are HI exactly when WBYTE(v)'s data clocks released SDA, RBYTE returns v,
however long either waits for SCL. -/
def Obligations.LoopBackReturnsTheByte : Prop :=
  ∀ (v : Byte) (s u s' t : State) (es fs : List Event),
    s.lock.guard = .free → exec (.wbyte v) s = .next u →
    u.trace = s.trace ++ (.acquire s.host.issuer :: (es ++ [.release s.host.issuer])) →
    s'.lock.guard = .free → exec .rbyte s' = .next t →
    t.trace = s'.trace ++ (.acquire s'.host.issuer :: (fs ++ [.release s'.host.issuer])) →
    (sdaSamples fs).length = 8 → sdaSamples fs = ((sdaDrives es).take 8).map levelOf →
    MicroRan s' t fs (resWord 0#2 false v)

/-- Half-bit delays per primitive (R257), whatever the environment answers: SCLW 1, or 0 if it timed out, START 3, or 2 if its SCLW timed out, STOP 3,
FNACK 4; when they succeed WBIT 2, WBYTE 18, RBYTE 17. -/
def Obligations.HalfBitDelaysPerPrimitive : Prop :=
  ∀ (s : State) (es : List Event),
    ((sclw s).2.trace = s.trace ++ es → es.countP isDelay = if (sclw s).1 = .ok () then 1 else 0) ∧
    ((start s).trace = s.trace ++ es →
      es.countP isDelay = if (sclw (drive .sda .rel s)).1 = .ok () then 3 else 2) ∧
    ((stop s).trace = s.trace ++ es → es.countP isDelay = 3) ∧
    ((fnack s).trace = s.trace ++ es → es.countP isDelay = 4) ∧
    (∀ b, (wbit b s).2.trace = s.trace ++ es → (wbit b s).1 = .ok () → es.countP isDelay = 2) ∧
    (∀ v a, (wbyte v s).2.trace = s.trace ++ es → (wbyte v s).1 = .ok a → es.countP isDelay = 18) ∧
    (∀ b, (rbyte s).2.trace = s.trace ++ es → (rbyte s).1 = .ok b → es.countP isDelay = 17)

/-! ### Transfers -/

/-- R170: the address byte, and its examples. -/
def Obligations.AddressByteComposition : Prop :=
  (∀ (addr : BitVec 16) (dir : BitVec 1),
    (addressByte addr dir).toNat = (2 * addr.toNat + dir.toNat) % 2 ^ 8) ∧
  addressByte 0x21#16 0#1 = 0x42#8 ∧ addressByte 0x21#16 1#1 = 0x43#8 ∧ addressByte 0x7F#16 1#1 = 0xFF#8 ∧
  addressByte 0x80#16 0#1 = 0x00#8 ∧ addressByte 0xFFFF#16 1#1 = 0xFF#8

/-- The XFER.W command (R176, R178, R182): it completes whenever the guard is free, with the trace, error and registers of
the transfer procedure; MSG_ADDR, MSG_DIR and MSG_BYTE are the command's. ACK is the last acknowledge sampled, or as it was
where none was; T0 is the tick of the last wait's start. That SHIFT keeps the last byte sent, and BIT 0 after it, is the
model's reading, log 21. -/
def Obligations.XferWCommand : Prop :=
  ∀ (addr : BitVec 16) (byte : Byte) (s : State), s.lock.guard = .free → ∃ t es k e,
    exec (.xferW addr byte) s = .next t ∧ TransferRan s t es e byte ∧
    TransferRun s.regs addr 0#1 byte es (some k) e byte ∧
    t.work.msgAddr = addr ∧ t.work.msgDir = 0#1 ∧ t.work.attempt = BitVec.ofNat 32 k ∧
    k ≤ s.regs.cfgRetries.toNat ∧
    t.work.ack = ackAfter s.work.ack (sdaSamples es) ∧ t.work.t0 = startTick s.work.t0 es ∧
    t.work.shift = (if .lo ∈ sdaSamples es then byte else addressByte addr 0#1) ∧
    (e ≠ some .timeout → t.work.bit = 0)

/-- The XFER.R command (R177, R178, R183): it completes whenever the guard is free, with the trace, error and registers of
the transfer procedure. ATTEMPT and ACK are written only when the address phase runs, ACK by its acknowledges alone: the
first `n + 1` SDA samples, where `n` counts the retries. T0 is the tick of the last wait's start. That SHIFT keeps the bits
read, or the address byte where no bit was clocked, and BIT 0 after a whole byte, is the model's reading, log 21. -/
def Obligations.XferRCommand : Prop :=
  ∀ (addr : BitVec 16) (init : Byte) (s : State), s.lock.guard = .free → ∃ t es k e m,
    exec (.xferR addr init) s = .next t ∧ TransferRan s t es e m ∧
    TransferRun s.regs addr 1#1 init es k e m ∧
    t.work.msgAddr = addr ∧ t.work.msgDir = 1#1 ∧ t.work.t0 = startTick s.work.t0 es ∧
    (e ≠ some .timeout → t.work.bit = 0) ∧
    (s.regs.readAddressPhase = true → ∃ n, k = some n ∧ n ≤ s.regs.cfgRetries.toNat ∧
      t.work.attempt = BitVec.ofNat 32 n ∧
      t.work.ack = ackAfter s.work.ack ((sdaSamples es).take (n + 1)) ∧
      t.work.shift =
        (if .lo ∈ (sdaSamples es).take (n + 1) then byteOf ((sdaSamples es).drop (n + 1)) else addressByte addr 1#1)) ∧
    (s.regs.readAddressPhase = false → k = none ∧ t.work.attempt = s.work.attempt ∧ t.work.ack = s.work.ack ∧
      t.work.shift = byteOf (sdaSamples es))

/-- R185: on every path a transfer's last events are the final STOP and the Release; both drivers end released, PHASE is
IDLE, the guard free, and the result comes after the Release with the code LAST_ERROR was given. -/
def Obligations.EveryTransferEndsWithTheFinalStop : Prop :=
  ∀ (dir : BitVec 1) (addr : BitVec 16) (byte : Byte) (s : State), s.lock.guard = .free → ∃ t es res,
    exec (transferCommand dir addr byte) s = .next t ∧
    t.trace = s.trace ++ (.acquire s.host.issuer :: (es ++ (stopEvents s.regs ++ [.release s.host.issuer]))) ∧
    t.lines = { sda := .rel, scl := .rel } ∧ t.seq.phase = .idle ∧ t.lock.guard = .free ∧
    t.host = answeredPort s.host (.result res) ∧ t.regs.lastError = (resCode res).setWidth 32

/-- R98: the CODE each command can return. -/
def Obligations.ResultCodesPerCommand : Prop :=
  ∀ (i : Instr) (s t : State) (res : Word), s.lock.guard = .free → exec i s = .next t →
    t.host = answeredPort s.host (.result res) →
    match i with
    | .xferW _ _ => True
    | .xferR _ _ => resCode res ≠ 3#2 ∧ (resCode res = 2#2 → s.regs.readAddressPhase = true)
    | .sclw => resCode res = 0#2 ∨ resCode res = 1#2
    | .start => resCode res = 0#2
    | .stop => resCode res = 0#2
    | .fnack => resCode res = 0#2
    | .wbit _ => resCode res = 0#2 ∨ resCode res = 1#2
    | .wbyte _ => resCode res = 0#2 ∨ resCode res = 1#2
    | .rbyte => resCode res = 0#2 ∨ resCode res = 1#2

/-- R71: MSG_BYTE after a command: a write leaves the command's byte, a read that fails its initial byte, and no micro-op
writes it; BYTER of a transfer is MSG_BYTE (R96). -/
def Obligations.MessageByteChangesOnlyBySuccessfulReads : Prop :=
  ∀ (i : Instr) (s t : State), s.lock.guard = .free → exec i s = .next t →
    match i with
    | .xferW _ byte => t.work.msgByte = byte ∧
        ∃ res, t.host = answeredPort s.host (.result res) ∧ resByte res = byte
    | .xferR _ init => ∃ res, t.host = answeredPort s.host (.result res) ∧ resByte res = t.work.msgByte ∧
        (resCode res ≠ 0#2 → t.work.msgByte = init)
    | _ => t.work.msgByte = s.work.msgByte

/-- R33: after a transfer a host read of LAST_ERROR gives the code of its result word; no micro-op writes it. -/
def Obligations.LastErrorIsTheLastTransfersCode : Prop :=
  ∀ (i : Instr) (s t : State), s.lock.guard = .free → exec i s = .next t →
    match i with
    | .xferW _ _ => ∃ res, t.host = answeredPort s.host (.result res) ∧
        hostRead 5 t = some ((resCode res).setWidth 32)
    | .xferR _ _ => ∃ res, t.host = answeredPort s.host (.result res) ∧
        hostRead 5 t = some ((resCode res).setWidth 32)
    | _ => t.regs = s.regs ∧ hostRead 5 t = hostRead 5 s

/-- R33, in the middle of a transfer: the one line that can change LAST_ERROR runs in STOPPED, after the final STOP and
with only the return to IDLE and the Release after it, so until then a host read gives the previous transfer's value. -/
def Obligations.LastErrorIsWrittenOnlyAtTheEnd : Prop :=
  ∀ (s : State) (c : Nat), Inv s → s.lock.guard = .held c → (tick s).regs ≠ s.regs →
    s.seq.phase = .stopped ∧ s.seq.pos = [.setLastError, .setPhase .idle, .endTransfer] ∧
    (tick s).regs = { s.regs with lastError := lastErrorWord s.work.err }

/-- R189: with CFG_RETRIES = N and every address byte NACKed (and SCL high at every sample) a transfer that runs the
address phase makes N + 1 attempts with a STOP START between each pair, one final STOP, and returns NoAcknowledge. -/
def Obligations.AddressNeverAcknowledged : Prop :=
  ∀ (dir : BitVec 1) (addr : BitVec 16) (byte : Byte) (s : State) (rs ra : List Level),
    s.lock.guard = .free → s.regs.addressed dir = true →
    (s.regs.sclReadable = true → s.env.sclIn = List.replicate (10 * (s.regs.cfgRetries.toNat + 1)) .hi ++ rs) →
    s.env.sdaIn = List.replicate (s.regs.cfgRetries.toNat + 1) .hi ++ ra → ∃ t es,
    exec (transferCommand dir addr byte) s = .next t ∧ TransferRan s t es (some .noAcknowledge) byte ∧
    es.map untimed =
      promptStart s.regs ++
        ((List.replicate s.regs.cfgRetries.toNat (nackedAttempt s.regs (addressByte addr dir))).flatten ++
          (promptWbyte s.regs (addressByte addr dir) .hi ++ stopEvents s.regs)) ∧
    t.work.attempt = s.regs.cfgRetries ∧ t.work.ack = false

/-- R188, the write paths with an acknowledged address: with `k` NACKed attempts first, k at most CFG_RETRIES, and SCL
high at every sample, the exact sequence, ending Ok or, when the data byte is NACKed, Io. -/
def Obligations.WriteAcknowledgedAtAttempt : Prop :=
  ∀ (addr : BitVec 16) (byte : Byte) (k : Nat) (a : Level) (s : State) (rs ra : List Level),
    s.lock.guard = .free → k ≤ s.regs.cfgRetries.toNat →
    (s.regs.sclReadable = true → s.env.sclIn = List.replicate (10 * k + 19) .hi ++ rs) →
    s.env.sdaIn = List.replicate k .hi ++ (.lo :: a :: ra) → ∃ t es,
    exec (.xferW addr byte) s = .next t ∧ TransferRan s t es (if ackOf a then none else some .io) byte ∧
    es.map untimed =
      promptStart s.regs ++
        ((List.replicate k (nackedAttempt s.regs (addressByte addr 0#1))).flatten ++
          (promptWbyte s.regs (addressByte addr 0#1) .lo ++
            (promptWbyte s.regs byte a ++ stopEvents s.regs)))

/-- R188, the successful read paths: without an address phase, and with one acknowledged after `k` NACKs; SCL high at
every sample. The byte read is in MSG_BYTE and BYTER. -/
def Obligations.ReadPaths : Prop :=
  ∀ (addr : BitVec 16) (init : Byte) (bits : List Level) (s : State) (rs ra : List Level),
    s.lock.guard = .free → bits.length = 8 →
    (s.regs.readAddressPhase = false →
      (s.regs.sclReadable = true → s.env.sclIn = List.replicate 9 .hi ++ rs) → s.env.sdaIn = bits ++ ra →
      ∃ t es, exec (.xferR addr init) s = .next t ∧ TransferRan s t es none (byteOf bits) ∧
        es.map untimed =
          promptStart s.regs ++ (promptRbyte s.regs bits ++ (fnackEvents s.regs ++ stopEvents s.regs))) ∧
    (∀ k : Nat, s.regs.readAddressPhase = true → k ≤ s.regs.cfgRetries.toNat →
      (s.regs.sclReadable = true → s.env.sclIn = List.replicate (10 * k + 18) .hi ++ rs) →
      s.env.sdaIn = List.replicate k .hi ++ (.lo :: (bits ++ ra)) →
      ∃ t es, exec (.xferR addr init) s = .next t ∧ TransferRan s t es none (byteOf bits) ∧
        es.map untimed =
          promptStart s.regs ++
            ((List.replicate k (nackedAttempt s.regs (addressByte addr 1#1))).flatten ++
              (promptWbyte s.regs (addressByte addr 1#1) .lo ++
                (promptRbyte s.regs bits ++ (fnackEvents s.regs ++ stopEvents s.regs)))))

/-- R192: with read-back and SCL LO at every sample a transfer emits START with its SCLW timed out, the first bit up to its
timed-out SCLW, and exactly one STOP, and returns Timeout. -/
def Obligations.ClockHeldLowTimesOut : Prop :=
  ∀ (dir : BitVec 1) (addr : BitVec 16) (byte : Byte) (s t : State) (es : List Event),
    s.lock.guard = .free → s.regs.sclReadable = true → s.regs.cfgTimeout ≠ 0#32 →
    exec (transferCommand dir addr byte) s = .next t →
    t.trace = s.trace ++ (.acquire s.host.issuer :: (es ++ [.release s.host.issuer])) →
    (∀ v, Event.sample .scl v ∈ es → v = .lo) →
    TransferRan s t es (some .timeout) byte ∧
    ∃ f1 f2, SclwRun s.regs f1 (.err .timeout) ∧ SclwRun s.regs f2 (.err .timeout) ∧
      es = startEvents s.regs f1 ++
        ((if s.regs.addressed dir then bitSetup s.regs ((addressByte addr dir).getLsbD 7)
          else [.drive .sda .rel, .delayUs s.regs.cfgHalf]) ++ (f2 ++ stopEvents s.regs))

/-- R219: a write transfer's error can be read off its SDA samples. Ok: k NACKs, then the address and the data byte
acknowledged. Io: the data byte NACKed. NoAcknowledge: all CFG_RETRIES + 1 attempts NACKed. Timeout: some NACKs, then at
most the address acknowledged. -/
def Obligations.WriteOutcomeIsReadOffTheAcknowledges : Prop :=
  ∀ (addr : BitVec 16) (byte : Byte) (s t : State) (es : List Event),
    s.lock.guard = .free → exec (.xferW addr byte) s = .next t →
    t.trace = s.trace ++ (.acquire s.host.issuer :: (es ++ [.release s.host.issuer])) →
    match t.work.err with
    | none => ∃ k, k ≤ s.regs.cfgRetries.toNat ∧ sdaSamples es = List.replicate k .hi ++ [.lo, .lo]
    | some .io => ∃ k, k ≤ s.regs.cfgRetries.toNat ∧ sdaSamples es = List.replicate k .hi ++ [.lo, .hi]
    | some .noAcknowledge => sdaSamples es = List.replicate (s.regs.cfgRetries.toNat + 1) .hi
    | some .timeout => ∃ k, k ≤ s.regs.cfgRetries.toNat ∧
        (sdaSamples es = List.replicate k .hi ∨ sdaSamples es = List.replicate k .hi ++ [.lo])

/-- The block's side of R137 and of the start and stop conditions bracketing every transaction: from released lines, every
transfer's first SDA transition is the start condition and its last the stop condition; its SDA transitions with SCL
released are start and stop conditions in turn, and every other one is made with SCL driven low. R137's one exception, and
only on a timeout: the final STOP may find SDA released and SCL not driven, and its first drive is then a transition too. -/
def Obligations.StartAndStopBracketEveryTransfer : Prop :=
  ∀ (dir : BitVec 1) (addr : BitVec 16) (byte : Byte) (s t : State) (es : List Event),
    s.lock.guard = .free → s.lines = { sda := .rel, scl := .rel } →
    exec (transferCommand dir addr byte) s = .next t →
    t.trace = s.trace ++ (.acquire s.host.issuer :: (es ++ [.release s.host.issuer])) →
    (∃ mid, sdaEdges s.lines es = (.low, .rel) :: (mid ++ [(.rel, .rel)])) ∧
    ∃ n, (sdaEdges s.lines es).filter (fun e => e.2 == .rel) = (List.replicate (n + 1) startStop).flatten ∨
      (t.work.err = some .timeout ∧ (sdaEdges s.lines es).filter (fun e => e.2 == .rel) =
        (List.replicate n startStop).flatten ++ ((.low, .rel) :: startStop))

/-- R84, R170: message address bits 15:7 never reach the wire: two addresses equal in bits 6:0 give the same result, trace
and state but for MSG_ADDR itself. -/
def Obligations.HighAddressBitsHaveNoEffect : Prop :=
  ∀ (dir : BitVec 1) (addr addr' : BitVec 16) (byte : Byte) (s t : State),
    s.lock.guard = .free → addr.extractLsb' 0 7 = addr'.extractLsb' 0 7 →
    exec (transferCommand dir addr byte) s = .next t →
    exec (transferCommand dir addr' byte) s = .next { t with work := { t.work with msgAddr := addr' } }

/-- R171, R177 corner case (a): with READ_ADDRESS_PHASE = 0 the address of a read does not reach the wire at all. -/
def Obligations.UnaddressedReadIgnoresTheAddress : Prop :=
  ∀ (addr addr' : BitVec 16) (init : Byte) (s t : State),
    s.lock.guard = .free → s.regs.readAddressPhase = false → exec (.xferR addr init) s = .next t →
    exec (.xferR addr' init) s = .next { t with work := { t.work with msgAddr := addr' } }

/-- R190, R191: SEND is XFER.W and RECV is XFER.R with initial byte 0, whatever `flags` holds; RECV returns the byte on
CODE 0 and no byte on any other CODE. -/
def Obligations.SendAndReceiveIgnoreFlags : Prop :=
  (∀ (addr : BitVec 16) (flags : Word) (byte : Byte) (s : State),
    exec (sendCommand addr flags byte) s = exec (.xferW addr byte) s) ∧
  (∀ (addr : BitVec 16) (flags : Word) (s : State), exec (recvCommand addr flags) s = exec (.xferR addr 0#8) s) ∧
  (∀ (code : BitVec 2) (ackr : Bool) (b : Byte),
    recvByte (resWord code ackr b) = if code = 0#2 then some b else none)

/-! ### Bounds, samples, capability -/

/-- R217: every command ends, and within the stated numbers of events (those of the primitive for a micro-op, with Acquire
and Release for a transfer) and sleeps. -/
def Obligations.EventAndSleepBounds : Prop :=
  ∀ (i : Instr) (s : State), s.lock.guard = .free → s.regs.cfgTimeout ≠ 0#32 → ∃ t es,
    exec i s = .next t ∧
    t.trace = s.trace ++ (.acquire s.host.issuer :: (es ++ [.release s.host.issuer])) ∧
    (s.regs.sclReadable = false → es.countP isSleep = 0) ∧
    match i with
    | .xferW _ _ => es.length + 2 ≤ 261 + 140 * s.regs.cfgRetries.toNat ∧
        es.countP isSleep ≤ 2 * (9 * (s.regs.cfgRetries.toNat + 2) + s.regs.cfgRetries.toNat + 1)
    | .xferR _ _ => es.length + 2 ≤ 261 + 140 * s.regs.cfgRetries.toNat ∧
        es.countP isSleep ≤ 2 * (9 * (s.regs.cfgRetries.toNat + 2) + s.regs.cfgRetries.toNat + 1)
    | .sclw => es.length ≤ 10
    | .start => es.length ≤ 15
    | .stop => es.length = 6
    | .fnack => es.length = 8
    | .wbit _ => es.length ≤ 13
    | .wbyte _ => es.length ≤ 119
    | .rbyte => es.length ≤ 106

/-- R61: no command samples a line while its own driver on that line is not released. -/
def Obligations.SamplesOnlyReleasedLines : Prop :=
  ∀ (i : Instr) (s t : State) (es : List Event), s.lock.guard = .free → exec i s = .next t →
    t.trace = s.trace ++ es → samplesReleased s.lines es = true

/-- R113, R119: without read-back no command samples SCL, reads the clock, sleeps or returns Timeout. -/
def Obligations.WithoutReadbackNothingIsWaitedFor : Prop :=
  ∀ (i : Instr) (s t : State) (es : List Event) (res : Word),
    s.lock.guard = .free → s.regs.sclReadable = false → exec i s = .next t → t.trace = s.trace ++ es →
    t.host = answeredPort s.host (.result res) →
    es.countP isSclSample = 0 ∧ es.countP isNow = 0 ∧ es.countP isSleep = 0 ∧ resCode res ≠ 1#2

/-! ### Sequencer, guard and callers -/

/-- Creation leaves the invariant, and a trace that agrees with the guard (R32, R52). The invariant's clause on ATTEMPT
holds here by the model's choice of ATTEMPT = 0 at reset, log 4: the spec gives ATTEMPT no value then. -/
def Obligations.ResetMeetsTheInvariants : Prop := Inv State.reset ∧ TraceOk State.reset

/-- Every step keeps the invariant: CFG_TIMEOUT is not 0 (R32), reserved bits are 0 (R30), ATTEMPT is at most CFG_RETRIES
(R37), STEP is runnable from PHASE and empty between commands (R44 to R46), no caller waits twice (R65). -/
def Obligations.StepKeepsTheInvariant : Prop :=
  ∀ s t : State, Inv s → step s = .next t → Inv t

/-- R186: from a state of the invariant, a line of the running command leaves PHASE or moves it along the table. -/
def Obligations.PhaseMovesAlongTheTable : Prop :=
  ∀ (s : State) (c : Nat), Inv s → s.lock.guard = .held c →
    (tick s).seq.phase = s.seq.phase ∨ phaseStep s.seq.phase (tick s).seq.phase = true

/-- R31: no step, whatever it runs, writes a configuration register. -/
def Obligations.NoStepWritesTheConfiguration : Prop :=
  ∀ s t : State, step s = .next t →
    t.regs.cfgHalf = s.regs.cfgHalf ∧ t.regs.cfgTimeout = s.regs.cfgTimeout ∧
    t.regs.cfgRetries = s.regs.cfgRetries ∧ t.regs.cfgPolicy = s.regs.cfgPolicy ∧ t.regs.cap = s.regs.cap

/-- The model's two grains agree (log 7, log 14, log 20): running the lines of a command's pseudocode one by one, in order
as R60 has it, with the guard held all the way to the end, comes to exactly the state its meaning gives. -/
def Obligations.LinesRunToTheMeaning : Prop :=
  ∀ (i : Instr) (s t : State), s.lock.guard = .free → s.seq.pos = [] → exec i s = .next t →
    ∃ n, ticks n (beginCommand i s) = t ∧
      ∀ m, m < n → (ticks m (beginCommand i s)).lock.guard = .held s.host.issuer

/-- R62, R193: every step keeps the trace in agreement with the guard: an Acquire only of a free guard, a Release only by
its holder, and no event outside an Acquire and its Release, so two commands' events never interleave. -/
def Obligations.CommandsNeverInterleave : Prop :=
  ∀ s t : State, TraceOk s → step s = .next t → TraceOk t

/-- R46: with the guard free, no waiter and nothing issued, a step emits no event and the engine changes nothing. -/
def Obligations.IdleEngineEmitsNothing : Prop :=
  ∀ s : State, s.lock.guard = .free → s.lock.waiters = [] → s.host.port = [] → ∃ t,
    step s = .next t ∧ t.trace = s.trace ∧ t.regs = s.regs ∧ t.work = s.work ∧ t.lines = s.lines ∧ t.seq = s.seq ∧
    t.lock = s.lock

/-- R60: while a command runs, one step emits at most one event. -/
def Obligations.OneEventAtATime : Prop :=
  ∀ (s t : State) (c : Nat), s.lock.guard = .held c → step s = .next t →
    t.trace = s.trace ∨ ∃ e, t.trace = s.trace ++ [e]

/-- R194, R231: a command issued while another caller holds the guard waits, emits nothing and changes nothing else; at
the port its word is decoded when it is issued, so a refused word never waits. That the refusal is a reply and the run goes
on is the model's choice, log 9, and that a blocked caller's word stays in the port its reading, log 10. -/
def Obligations.CommandsWaitWhileTheGuardIsHeld : Prop :=
  (∀ (i : Instr) (s : State) (c : Nat), s.lock.guard = .held c → s.host.issuer ≠ c →
    exec i s = .next { s with lock := { s.lock with
      waiters := s.lock.waiters ++ [{ caller := s.host.issuer, command := i }] } }) ∧
  (∀ (s : State) (c : Nat) (r : Request) (rest : List Request) (ts : List Turn),
    s.host.created = true → s.host.turns = .caller :: ts → s.host.port = r :: rest → s.lock.guard = .held c →
    (r.caller ≠ c → (∀ w ∈ s.lock.waiters, w.caller ≠ r.caller) →
      (∀ i, decode r.word = .ok i →
        step s = .next { s with
          host := { s.host with turns := ts, port := rest }
          lock := { s.lock with waiters := s.lock.waiters ++ [{ caller := r.caller, command := i }] } }) ∧
      (∀ why, decode r.word = .refused why →
        step s = .next { s with host := { s.host with
          turns := ts, port := rest
          replies := s.host.replies ++ [{ caller := r.caller, answer := .refused why }] } })) ∧
    ((r.caller = c ∨ ∃ w ∈ s.lock.waiters, w.caller = r.caller) →
      step s = .next { s with host := { s.host with turns := ts } }))

/-- R65: the free guard may go to any waiter: for each waiter there is a choice of the mutex with which the engine's move
acquires the guard for it and begins its command, and it waits no longer. -/
def Obligations.AnyWaiterMayBeGranted : Prop :=
  ∀ (s : State) (k : Nat) (w : Waiter) (g : List Nat) (ts : List Turn),
    s.host.created = true → s.host.turns = .engine :: ts → s.lock.guard = .free →
    s.lock.waiters[k]? = some w → s.env.grantIn = k :: g → ∃ t,
    step s = .next t ∧ t.lock.guard = .held w.caller ∧ t.lock.waiters = s.lock.waiters.eraseIdx k ∧
    t.host.issuer = w.caller ∧ t.trace = s.trace ++ [.acquire w.caller] ∧ t.seq.pos = codeOf s.regs w.command ∧
    t.regs = s.regs ∧ t.work = s.work ∧ t.lines = s.lines ∧ t.seq.phase = s.seq.phase

/-- R63: a step of one bus leaves every other bus as it was. -/
def Obligations.BusesAreIndependent : Prop :=
  ∀ (buses next : List State) (k j : Nat), stepAt k buses = .next next → j ≠ k → next[j]? = buses[j]?

/-! ### Creation and the registers -/

/-- R240, R242: what creation leaves, for every piece of state the spec gives a value; CFG_TIMEOUT is never 0 (R32). -/
def Obligations.CreationLeavesTheStatedValues : Prop :=
  ∀ a : CreateArgs, a.ok = true → ∃ t,
    create a = .next t ∧ t.regs.cfgHalf = a.half ∧ t.regs.cfgRetries = a.retries ∧
    t.regs.cfgTimeout = (if a.timeout = 0#32 then a.ticksPerSecond.word else a.timeout) ∧
    t.regs.cfgTimeout ≠ 0#32 ∧
    t.regs.cfgPolicy = (if a.rdaddr then 1#32 else 0#32) ∧
    (∀ p, a.pins = some p → t.regs.cap = if p.readScl then 1#32 else 0#32) ∧
    t.regs.lastError = 0#32 ∧ t.lines = { sda := .rel, scl := .rel } ∧ t.seq.phase = .idle ∧
    t.lock = { guard := .free, waiters := [] } ∧ t.trace = []

/-- R241: creation is refused exactly when the pin port is missing or lacks drive-SDA, drive-SCL, read-SDA or the delay,
or has read-SCL without a time port that has Now() and SleepTicks. -/
def Obligations.CreationIsRefusedWithoutItsPorts : Prop :=
  ∀ a : CreateArgs, create a = .refused .creationRefused ↔
    ¬∃ p, a.pins = some p ∧ p.driveSda = true ∧ p.driveScl = true ∧ p.readSda = true ∧ p.delayUs = true ∧
      (p.readScl = true → a.time.now = true ∧ a.time.sleepTicks = true)

/-- R247: a command issued to a bus that was not created is refused. -/
def Obligations.CommandToNoBusIsRefused : Prop :=
  ∀ (s : State) (r : Request) (rest : List Request), s.host.created = false → s.host.port = r :: rest →
    step s = .refused .busNotCreated

/-- R30, R51: the host reads registers 0 to 5 and no other; reserved bits read 0. -/
def Obligations.HostReadsTheNumberedRegisters : Prop :=
  ∀ s : State,
    hostRead 0 s = some s.regs.cfgHalf ∧ hostRead 1 s = some s.regs.cfgTimeout ∧
    hostRead 2 s = some s.regs.cfgRetries ∧
    hostRead 3 s = some (if s.regs.readAddressPhase then 1#32 else 0#32) ∧
    hostRead 4 s = some (if s.regs.sclReadable then 1#32 else 0#32) ∧
    hostRead 5 s = some ((s.regs.lastError.extractLsb' 0 2).setWidth 32) ∧
    ∀ n, 5 < n → hostRead n s = none
end

