-- ==== Sys2Proof/Laws/PerInstr.lean ====
section
/-! SUPPORT. Statements made of every command, one lemma per constructor. -/

namespace Sys2Proof.Laws.RowMatch

open Sys2Proof

/-- The command's word is accepted by the command's own row of the match and mask table, and that row is in the table
(R86). -/
def Statement (i : Instr) : Prop := i.row ∈ opcodeTable ∧ i.row.accepts (encode i) = true

/-- The low byte of a word laid out as a field above a constant byte. -/
theorem low_byte (hi : BitVec 24) (lo : BitVec 8) : (hi ++ lo) &&& 0x000000FF#32 = lo.setWidth 32 := by
  apply BitVec.eq_of_toNat_eq
  have h : (hi ++ lo).toNat % 2 ^ 8 = lo.toNat := by
    rw [BitVec.toNat_append, Nat.or_mod_two_pow, Nat.shiftLeft_eq, Nat.mul_mod_left, Nat.zero_or,
      Nat.mod_eq_of_lt lo.isLt]
  rw [BitVec.toNat_and, BitVec.toNat_setWidth, Nat.mod_eq_of_lt (Nat.lt_trans lo.isLt (by decide))]
  exact (Nat.and_two_pow_sub_one_eq_mod _ 8).trans h

theorem xferW (addr : BitVec 16) (byte : Byte) : Statement (.xferW addr byte) :=
  ⟨by simp [Instr.row, opcodeTable], beq_iff_eq.mpr (low_byte (addr ++ byte) 0x01#8)⟩

theorem xferR (addr : BitVec 16) (init : Byte) : Statement (.xferR addr init) :=
  ⟨by simp [Instr.row, opcodeTable], beq_iff_eq.mpr (low_byte (addr ++ init) 0x11#8)⟩

theorem sclw : Statement .sclw := ⟨by decide, by decide⟩

theorem start : Statement .start := ⟨by decide, by decide⟩

theorem stop : Statement .stop := ⟨by decide, by decide⟩

theorem fnack : Statement .fnack := ⟨by decide, by decide⟩

theorem wbit (b : BitVec 1) : Statement (.wbit b) := ⟨by simp [Instr.row, opcodeTable], by revert b; decide⟩

theorem wbyte (v : Byte) : Statement (.wbyte v) := ⟨by simp [Instr.row, opcodeTable], by revert v; decide⟩

theorem rbyte : Statement .rbyte := ⟨by decide, by decide⟩

end Sys2Proof.Laws.RowMatch
end

