-- ==== Sys2Proof/Laws/State.lean ====
section
/-! SUPPORT. One lemma for each field and each operation on the state, all by rfl, so that no proof unfolds an update. -/

namespace Sys2Proof.Machine

open Sys2Proof

@[simp] theorem Lines.set_sda (d : Drv) (x : Lines) : x.set .sda d = { x with sda := d } := rfl
@[simp] theorem Lines.set_scl (d : Drv) (x : Lines) : x.set .scl d = { x with scl := d } := rfl
@[simp] theorem Lines.get_sda (x : Lines) : x.get .sda = x.sda := rfl
@[simp] theorem Lines.get_scl (x : Lines) : x.get .scl = x.scl := rfl
@[simp] theorem wiredAnd_low (v : Level) : wiredAnd .low v = .lo := rfl
@[simp] theorem wiredAnd_rel (v : Level) : wiredAnd .rel v = v := rfl
@[simp] theorem Env.answered_sda (e : Env) :
    e.answered .sda = { e with sdaIn := e.sdaIn.tail, draws := e.draws + 1 } := rfl
@[simp] theorem Env.answered_scl (e : Env) :
    e.answered .scl = { e with sclIn := e.sclIn.tail, draws := e.draws + 1 } := rfl
@[simp] theorem Env.ticked_tick (t : Word) (e : Env) : (e.ticked t).tick = t := rfl
@[simp] theorem Env.ticked_sclIn (t : Word) (e : Env) : (e.ticked t).sclIn = e.sclIn := rfl
@[simp] theorem Env.ticked_sdaIn (t : Word) (e : Env) : (e.ticked t).sdaIn = e.sdaIn := rfl
@[simp] theorem Env.ticked_ticksIn (t : Word) (e : Env) : (e.ticked t).ticksIn = e.ticksIn.tail := rfl
@[simp] theorem Env.ticked_grantIn (t : Word) (e : Env) : (e.ticked t).grantIn = e.grantIn := rfl

section Fields

variable (s : State)

@[simp] theorem emit_regs (e : Event) : (emit e s).regs = s.regs := rfl
@[simp] theorem emit_work (e : Event) : (emit e s).work = s.work := rfl
@[simp] theorem emit_lines (e : Event) : (emit e s).lines = s.lines := rfl
@[simp] theorem emit_seq (e : Event) : (emit e s).seq = s.seq := rfl
@[simp] theorem emit_lock (e : Event) : (emit e s).lock = s.lock := rfl
@[simp] theorem emit_env (e : Event) : (emit e s).env = s.env := rfl
@[simp] theorem emit_host (e : Event) : (emit e s).host = s.host := rfl
@[simp] theorem emit_trace (e : Event) : (emit e s).trace = s.trace ++ [e] := rfl

@[simp] theorem drive_regs (l : Line) (d : Drv) : (drive l d s).regs = s.regs := rfl
@[simp] theorem drive_work (l : Line) (d : Drv) : (drive l d s).work = s.work := rfl
@[simp] theorem drive_lines (l : Line) (d : Drv) : (drive l d s).lines = s.lines.set l d := rfl
@[simp] theorem drive_seq (l : Line) (d : Drv) : (drive l d s).seq = s.seq := rfl
@[simp] theorem drive_lock (l : Line) (d : Drv) : (drive l d s).lock = s.lock := rfl
@[simp] theorem drive_env (l : Line) (d : Drv) : (drive l d s).env = s.env := rfl
@[simp] theorem drive_host (l : Line) (d : Drv) : (drive l d s).host = s.host := rfl
@[simp] theorem drive_trace (l : Line) (d : Drv) : (drive l d s).trace = s.trace ++ [.drive l d] := rfl

@[simp] theorem halfBit_regs : (halfBit s).regs = s.regs := rfl
@[simp] theorem halfBit_work : (halfBit s).work = s.work := rfl
@[simp] theorem halfBit_lines : (halfBit s).lines = s.lines := rfl
@[simp] theorem halfBit_seq : (halfBit s).seq = s.seq := rfl
@[simp] theorem halfBit_lock : (halfBit s).lock = s.lock := rfl
@[simp] theorem halfBit_env : (halfBit s).env = s.env := rfl
@[simp] theorem halfBit_host : (halfBit s).host = s.host := rfl
@[simp] theorem halfBit_trace : (halfBit s).trace = s.trace ++ [.delayUs s.regs.cfgHalf] := rfl

@[simp] theorem sample_regs (l : Line) : (sample l s).regs = s.regs := rfl
@[simp] theorem sample_work (l : Line) : (sample l s).work = s.work := rfl
@[simp] theorem sample_lines (l : Line) : (sample l s).lines = s.lines := rfl
@[simp] theorem sample_seq (l : Line) : (sample l s).seq = s.seq := rfl
@[simp] theorem sample_lock (l : Line) : (sample l s).lock = s.lock := rfl
@[simp] theorem sample_env (l : Line) : (sample l s).env = s.env.answered l := rfl
@[simp] theorem sample_host (l : Line) : (sample l s).host = s.host := rfl
@[simp] theorem sample_trace (l : Line) : (sample l s).trace = s.trace ++ [.sample l (sampled l s)] := rfl

@[simp] theorem nowT0_regs : (nowT0 s).regs = s.regs := rfl
@[simp] theorem nowT0_work : (nowT0 s).work = { s.work with t0 := s.env.laterTick } := rfl
@[simp] theorem nowT0_lines : (nowT0 s).lines = s.lines := rfl
@[simp] theorem nowT0_seq : (nowT0 s).seq = s.seq := rfl
@[simp] theorem nowT0_lock : (nowT0 s).lock = s.lock := rfl
@[simp] theorem nowT0_env : (nowT0 s).env = s.env.ticked s.env.laterTick := rfl
@[simp] theorem nowT0_host : (nowT0 s).host = s.host := rfl
@[simp] theorem nowT0_trace : (nowT0 s).trace = s.trace ++ [.now s.env.laterTick] := rfl

@[simp] theorem nowCheck_regs : (nowCheck s).regs = s.regs := rfl
@[simp] theorem nowCheck_work : (nowCheck s).work = s.work := rfl
@[simp] theorem nowCheck_lines : (nowCheck s).lines = s.lines := rfl
@[simp] theorem nowCheck_seq : (nowCheck s).seq = s.seq := rfl
@[simp] theorem nowCheck_lock : (nowCheck s).lock = s.lock := rfl
@[simp] theorem nowCheck_env : (nowCheck s).env = s.env.ticked (checkTick s) := rfl
@[simp] theorem nowCheck_host : (nowCheck s).host = s.host := rfl
@[simp] theorem nowCheck_trace : (nowCheck s).trace = s.trace ++ [.now (checkTick s)] := rfl

@[simp] theorem sleepPoll_regs : (sleepPoll s).regs = s.regs := rfl
@[simp] theorem sleepPoll_work : (sleepPoll s).work = s.work := rfl
@[simp] theorem sleepPoll_lines : (sleepPoll s).lines = s.lines := rfl
@[simp] theorem sleepPoll_seq : (sleepPoll s).seq = s.seq := rfl
@[simp] theorem sleepPoll_lock : (sleepPoll s).lock = s.lock := rfl
@[simp] theorem sleepPoll_env :
    (sleepPoll s).env =
      { s.env with tick := s.env.tick + BitVec.ofNat 32 s.regs.poll } := rfl
@[simp] theorem sleepPoll_host : (sleepPoll s).host = s.host := rfl
@[simp] theorem sleepPoll_trace : (sleepPoll s).trace = s.trace ++ [.sleepTicks s.regs.poll] := rfl

@[simp] theorem acquire_regs : (acquire s).regs = s.regs := rfl
@[simp] theorem acquire_work : (acquire s).work = s.work := rfl
@[simp] theorem acquire_lines : (acquire s).lines = s.lines := rfl
@[simp] theorem acquire_seq : (acquire s).seq = s.seq := rfl
@[simp] theorem acquire_lock : (acquire s).lock = { s.lock with guard := .held s.host.issuer } := rfl
@[simp] theorem acquire_env : (acquire s).env = s.env := rfl
@[simp] theorem acquire_host : (acquire s).host = s.host := rfl
@[simp] theorem acquire_trace : (acquire s).trace = s.trace ++ [.acquire s.host.issuer] := rfl

@[simp] theorem answer_regs (a : Answer) : (answer a s).regs = s.regs := rfl
@[simp] theorem answer_work (a : Answer) : (answer a s).work = s.work := rfl
@[simp] theorem answer_lines (a : Answer) : (answer a s).lines = s.lines := rfl
@[simp] theorem answer_seq (a : Answer) : (answer a s).seq = s.seq := rfl
@[simp] theorem answer_lock (a : Answer) : (answer a s).lock = s.lock := rfl
@[simp] theorem answer_env (a : Answer) : (answer a s).env = s.env := rfl
@[simp] theorem answer_host (a : Answer) :
    (answer a s).host =
      { s.host with replies := s.host.replies ++ [{ caller := s.host.issuer, answer := a }] } := rfl
@[simp] theorem answer_trace (a : Answer) : (answer a s).trace = s.trace := rfl

@[simp] theorem release_regs (w : Word) : (release w s).regs = s.regs := rfl
@[simp] theorem release_work (w : Word) : (release w s).work = s.work := rfl
@[simp] theorem release_lines (w : Word) : (release w s).lines = s.lines := rfl
@[simp] theorem release_seq (w : Word) : (release w s).seq = s.seq := rfl
@[simp] theorem release_lock (w : Word) : (release w s).lock = { s.lock with guard := .free } := rfl
@[simp] theorem release_env (w : Word) : (release w s).env = s.env := rfl
@[simp] theorem release_host (w : Word) :
    (release w s).host =
      { s.host with replies := s.host.replies ++ [{ caller := s.host.issuer, answer := .result w }] } := rfl
@[simp] theorem release_trace (w : Word) : (release w s).trace = s.trace ++ [.release s.host.issuer] := rfl

@[simp] theorem waitForGuard_regs (i : Instr) : (waitForGuard i s).regs = s.regs := rfl
@[simp] theorem waitForGuard_work (i : Instr) : (waitForGuard i s).work = s.work := rfl
@[simp] theorem waitForGuard_lines (i : Instr) : (waitForGuard i s).lines = s.lines := rfl
@[simp] theorem waitForGuard_seq (i : Instr) : (waitForGuard i s).seq = s.seq := rfl
@[simp] theorem waitForGuard_lock (i : Instr) :
    (waitForGuard i s).lock =
      { s.lock with waiters := s.lock.waiters ++ [{ caller := s.host.issuer, command := i }] } := rfl
@[simp] theorem waitForGuard_env (i : Instr) : (waitForGuard i s).env = s.env := rfl
@[simp] theorem waitForGuard_host (i : Instr) : (waitForGuard i s).host = s.host := rfl
@[simp] theorem waitForGuard_trace (i : Instr) : (waitForGuard i s).trace = s.trace := rfl

@[simp] theorem setShift_regs (v : Byte) : (setShift v s).regs = s.regs := rfl
@[simp] theorem setShift_work (v : Byte) : (setShift v s).work = { s.work with shift := v } := rfl
@[simp] theorem setShift_lines (v : Byte) : (setShift v s).lines = s.lines := rfl
@[simp] theorem setShift_seq (v : Byte) : (setShift v s).seq = s.seq := rfl
@[simp] theorem setShift_lock (v : Byte) : (setShift v s).lock = s.lock := rfl
@[simp] theorem setShift_env (v : Byte) : (setShift v s).env = s.env := rfl
@[simp] theorem setShift_host (v : Byte) : (setShift v s).host = s.host := rfl
@[simp] theorem setShift_trace (v : Byte) : (setShift v s).trace = s.trace := rfl

@[simp] theorem setBit_regs (k : Fin 8) : (setBit k s).regs = s.regs := rfl
@[simp] theorem setBit_work (k : Fin 8) : (setBit k s).work = { s.work with bit := k } := rfl
@[simp] theorem setBit_lines (k : Fin 8) : (setBit k s).lines = s.lines := rfl
@[simp] theorem setBit_seq (k : Fin 8) : (setBit k s).seq = s.seq := rfl
@[simp] theorem setBit_lock (k : Fin 8) : (setBit k s).lock = s.lock := rfl
@[simp] theorem setBit_env (k : Fin 8) : (setBit k s).env = s.env := rfl
@[simp] theorem setBit_host (k : Fin 8) : (setBit k s).host = s.host := rfl
@[simp] theorem setBit_trace (k : Fin 8) : (setBit k s).trace = s.trace := rfl

@[simp] theorem setAck_regs (a : Bool) : (setAck a s).regs = s.regs := rfl
@[simp] theorem setAck_work (a : Bool) : (setAck a s).work = { s.work with ack := a } := rfl
@[simp] theorem setAck_lines (a : Bool) : (setAck a s).lines = s.lines := rfl
@[simp] theorem setAck_seq (a : Bool) : (setAck a s).seq = s.seq := rfl
@[simp] theorem setAck_lock (a : Bool) : (setAck a s).lock = s.lock := rfl
@[simp] theorem setAck_env (a : Bool) : (setAck a s).env = s.env := rfl
@[simp] theorem setAck_host (a : Bool) : (setAck a s).host = s.host := rfl
@[simp] theorem setAck_trace (a : Bool) : (setAck a s).trace = s.trace := rfl

@[simp] theorem setPhase_regs (p : Phase) : (setPhase p s).regs = s.regs := rfl
@[simp] theorem setPhase_work (p : Phase) : (setPhase p s).work = s.work := rfl
@[simp] theorem setPhase_lines (p : Phase) : (setPhase p s).lines = s.lines := rfl
@[simp] theorem setPhase_seq (p : Phase) : (setPhase p s).seq = { s.seq with phase := p } := rfl
@[simp] theorem setPhase_lock (p : Phase) : (setPhase p s).lock = s.lock := rfl
@[simp] theorem setPhase_env (p : Phase) : (setPhase p s).env = s.env := rfl
@[simp] theorem setPhase_host (p : Phase) : (setPhase p s).host = s.host := rfl
@[simp] theorem setPhase_trace (p : Phase) : (setPhase p s).trace = s.trace := rfl

@[simp] theorem loadMessage_regs (a : BitVec 16) (d : BitVec 1) (b : Byte) :
    (loadMessage a d b s).regs =
      s.regs := rfl
@[simp] theorem loadMessage_work (a : BitVec 16) (d : BitVec 1) (b : Byte) :
    (loadMessage a d b s).work =
      { s.work with msgAddr := a, msgDir := d, msgByte := b, err := none } := rfl
@[simp] theorem loadMessage_lines (a : BitVec 16) (d : BitVec 1) (b : Byte) :
    (loadMessage a d b s).lines =
      s.lines := rfl
@[simp] theorem loadMessage_seq (a : BitVec 16) (d : BitVec 1) (b : Byte) : (loadMessage a d b s).seq = s.seq := rfl
@[simp] theorem loadMessage_lock (a : BitVec 16) (d : BitVec 1) (b : Byte) :
    (loadMessage a d b s).lock =
      s.lock := rfl
@[simp] theorem loadMessage_env (a : BitVec 16) (d : BitVec 1) (b : Byte) : (loadMessage a d b s).env = s.env := rfl
@[simp] theorem loadMessage_host (a : BitVec 16) (d : BitVec 1) (b : Byte) :
    (loadMessage a d b s).host =
      s.host := rfl
@[simp] theorem loadMessage_trace (a : BitVec 16) (d : BitVec 1) (b : Byte) :
    (loadMessage a d b s).trace =
      s.trace := rfl

@[simp] theorem setMsgByte_regs (b : Byte) : (setMsgByte b s).regs = s.regs := rfl
@[simp] theorem setMsgByte_work (b : Byte) : (setMsgByte b s).work = { s.work with msgByte := b } := rfl
@[simp] theorem setMsgByte_lines (b : Byte) : (setMsgByte b s).lines = s.lines := rfl
@[simp] theorem setMsgByte_seq (b : Byte) : (setMsgByte b s).seq = s.seq := rfl
@[simp] theorem setMsgByte_lock (b : Byte) : (setMsgByte b s).lock = s.lock := rfl
@[simp] theorem setMsgByte_env (b : Byte) : (setMsgByte b s).env = s.env := rfl
@[simp] theorem setMsgByte_host (b : Byte) : (setMsgByte b s).host = s.host := rfl
@[simp] theorem setMsgByte_trace (b : Byte) : (setMsgByte b s).trace = s.trace := rfl

@[simp] theorem setAttempt_regs (n : Word) : (setAttempt n s).regs = s.regs := rfl
@[simp] theorem setAttempt_work (n : Word) : (setAttempt n s).work = { s.work with attempt := n } := rfl
@[simp] theorem setAttempt_lines (n : Word) : (setAttempt n s).lines = s.lines := rfl
@[simp] theorem setAttempt_seq (n : Word) : (setAttempt n s).seq = s.seq := rfl
@[simp] theorem setAttempt_lock (n : Word) : (setAttempt n s).lock = s.lock := rfl
@[simp] theorem setAttempt_env (n : Word) : (setAttempt n s).env = s.env := rfl
@[simp] theorem setAttempt_host (n : Word) : (setAttempt n s).host = s.host := rfl
@[simp] theorem setAttempt_trace (n : Word) : (setAttempt n s).trace = s.trace := rfl

@[simp] theorem enterError_regs (e : Err) : (enterError e s).regs = s.regs := rfl
@[simp] theorem enterError_work (e : Err) : (enterError e s).work = { s.work with err := some e } := rfl
@[simp] theorem enterError_lines (e : Err) : (enterError e s).lines = s.lines := rfl
@[simp] theorem enterError_seq (e : Err) : (enterError e s).seq = s.seq := rfl
@[simp] theorem enterError_lock (e : Err) : (enterError e s).lock = s.lock := rfl
@[simp] theorem enterError_env (e : Err) : (enterError e s).env = s.env := rfl
@[simp] theorem enterError_host (e : Err) : (enterError e s).host = s.host := rfl
@[simp] theorem enterError_trace (e : Err) : (enterError e s).trace = s.trace := rfl

@[simp] theorem setLastError_regs :
    (setLastError s).regs =
      { s.regs with lastError := lastErrorWord s.work.err } := rfl
@[simp] theorem setLastError_work : (setLastError s).work = s.work := rfl
@[simp] theorem setLastError_lines : (setLastError s).lines = s.lines := rfl
@[simp] theorem setLastError_seq : (setLastError s).seq = s.seq := rfl
@[simp] theorem setLastError_lock : (setLastError s).lock = s.lock := rfl
@[simp] theorem setLastError_env : (setLastError s).env = s.env := rfl
@[simp] theorem setLastError_host : (setLastError s).host = s.host := rfl
@[simp] theorem setLastError_trace : (setLastError s).trace = s.trace := rfl

@[simp] theorem goto_regs (r : List Micro) : (goto r s).regs = s.regs := rfl
@[simp] theorem goto_work (r : List Micro) : (goto r s).work = s.work := rfl
@[simp] theorem goto_lines (r : List Micro) : (goto r s).lines = s.lines := rfl
@[simp] theorem goto_seq (r : List Micro) : (goto r s).seq = { s.seq with pos := r } := rfl
@[simp] theorem goto_lock (r : List Micro) : (goto r s).lock = s.lock := rfl
@[simp] theorem goto_env (r : List Micro) : (goto r s).env = s.env := rfl
@[simp] theorem goto_host (r : List Micro) : (goto r s).host = s.host := rfl
@[simp] theorem goto_trace (r : List Micro) : (goto r s).trace = s.trace := rfl

end Fields

end Sys2Proof.Machine
end

