-- ==== Sys2Proof/Laws/Traces.lean ====
section
/-! SUPPORT. Facts about the trace grammars of Safety.lean. -/

namespace Sys2Proof.Safety

open Sys2Proof Sys2Proof.Machine

/-- SCLW fails only by `Timeout` (R116). -/
theorem SclwRun.err_timeout {r : NumRegs} {es : List Event} {e : Err} (h : SclwRun r es (.err e)) : e = .timeout := by
  cases h <;> rfl

theorem WriteBits.err_timeout {r : NumRegs} {v : Byte} {n : Nat} {es : List Event} {q : Ret Unit}
    (h : WriteBits r v n es q) (e : Err) (he : q = .err e) : e = .timeout := by
  induction h with
  | done => cases he
  | bit _ _ ih => exact ih he
  | timeout _ => cases he; rfl

theorem ByteWrite.err_timeout {r : NumRegs} {v : Byte} {es : List Event} {e : Err} (h : ByteWrite r v es (.err e)) :
    e = .timeout := by
  cases h <;> rfl

theorem ReadBits.err_timeout {r : NumRegs} {n : Nat} {vs : List Level} {es : List Event} {q : Ret Unit}
    (h : ReadBits r n vs es q) (e : Err) (he : q = .err e) : e = .timeout := by
  induction h with
  | done => cases he
  | bit _ _ _ ih => exact ih he
  | timeout _ => cases he; rfl

/-- The address phase makes at most the retries it has (R180). -/
theorem AddressRun.retries_le {r : NumRegs} {ab : Byte} {n k : Nat} {es : List Event} {q : Ret Unit}
    (h : AddressRun r ab n k es q) : k ≤ n := by
  induction h <;> omega

/-! ### Samples, drives and wait starts of each primitive's trace -/

@[simp] theorem sdaSamples_append (es fs : List Event) : sdaSamples (es ++ fs) = sdaSamples es ++ sdaSamples fs := by
  induction es with
  | nil => rfl
  | cons e es ih =>
    cases e with
    | sample l v => cases l <;> simp [sdaSamples, ih]
    | _ => simp [sdaSamples, ih]

@[simp] theorem sdaDrives_append (es fs : List Event) : sdaDrives (es ++ fs) = sdaDrives es ++ sdaDrives fs := by
  induction es with
  | nil => rfl
  | cons e es ih =>
    cases e with
    | drive l d => cases l <;> simp [sdaDrives, ih]
    | _ => simp [sdaDrives, ih]

theorem SclwRun.sdaSamples_nil {r : NumRegs} {es : List Event} {q : Ret Unit} (h : SclwRun r es q) :
    sdaSamples es = [] := by
  cases h <;> rfl

theorem SclwRun.sdaDrives_nil {r : NumRegs} {es : List Event} {q : Ret Unit} (h : SclwRun r es q) :
    sdaDrives es = [] := by
  cases h <;> rfl

theorem SclwRun.startTick_append {r : NumRegs} {es : List Event} {q : Ret Unit} (h : SclwRun r es q) (t : Word)
    (fs : List Event) : startTick t (es ++ fs) = startTick (startTick t es) fs := by
  cases h <;> rfl

@[simp] theorem startTick_bitSetup (r : NumRegs) (b : Bool) (t : Word) (es : List Event) :
    startTick t (bitSetup r b ++ es) = startTick t es := by
  cases b <;> rfl

@[simp] theorem sdaSamples_bitSetup (r : NumRegs) (b : Bool) : sdaSamples (bitSetup r b) = [] := rfl

@[simp] theorem sdaDrives_bitSetup (r : NumRegs) (b : Bool) : sdaDrives (bitSetup r b) = [drvOf b] := rfl

@[simp] theorem startTick_stopEvents (r : NumRegs) (t : Word) (es : List Event) :
    startTick t (stopEvents r ++ es) = startTick t es := rfl

@[simp] theorem sdaSamples_stopEvents (r : NumRegs) : sdaSamples (stopEvents r) = [] := rfl

@[simp] theorem startTick_fnackEvents (r : NumRegs) (t : Word) (es : List Event) :
    startTick t (fnackEvents r ++ es) = startTick t es := rfl

@[simp] theorem sdaSamples_fnackEvents (r : NumRegs) : sdaSamples (fnackEvents r) = [] := rfl

theorem startTick_startEvents {r : NumRegs} {es : List Event} {q : Ret Unit} (h : SclwRun r es q) (t : Word)
    (fs : List Event) : startTick t (startEvents r es ++ fs) = startTick (startTick t es) fs := by
  cases h <;> rfl

theorem sdaSamples_startEvents {r : NumRegs} {es : List Event} {q : Ret Unit} (h : SclwRun r es q) :
    sdaSamples (startEvents r es) = [] := by
  cases h <;> rfl

theorem WriteBits.sdaSamples_nil {r : NumRegs} {v : Byte} {n : Nat} {es : List Event} {q : Ret Unit}
    (h : WriteBits r v n es q) : sdaSamples es = [] := by
  induction h with
  | done => rfl
  | bit h _ ih => simp [h.sdaSamples_nil, ih]
  | timeout h => simp [h.sdaSamples_nil]

theorem WriteBits.startTick_append {r : NumRegs} {v : Byte} {n : Nat} {es : List Event} {q : Ret Unit}
    (h : WriteBits r v n es q) (t : Word) (fs : List Event) :
    startTick t (es ++ fs) = startTick (startTick t es) fs := by
  induction h generalizing t with
  | done => rfl
  | bit h _ ih => simp only [List.append_assoc, startTick_bitSetup, h.startTick_append, ih]
  | timeout h => simp only [List.append_assoc, startTick_bitSetup, h.startTick_append]

/-- Every bit sent is one drive of SDA. -/
theorem WriteBits.drives_ok {r : NumRegs} {v : Byte} {n : Nat} {es : List Event} {q : Ret Unit}
    (h : WriteBits r v n es q) (hq : q = .ok ()) : (sdaDrives es).length = n := by
  induction h with
  | done => rfl
  | bit h _ ih => simp [h.sdaDrives_nil, ih hq]
  | timeout _ => cases hq

/-- WBYTE samples SDA once, in the acknowledge pulse, and not at all on a timeout (R152). -/
theorem ByteWrite.sdaSamples_ok {r : NumRegs} {v : Byte} {es : List Event} {a : Bool} (h : ByteWrite r v es (.ok a)) :
    ∃ l, sdaSamples es = [l] ∧ ackOf l = a := by
  cases h with
  | acknowledge l h k => exact ⟨l, by simp [h.sdaSamples_nil, k.sdaSamples_nil, sdaSamples], rfl⟩

theorem ByteWrite.sdaSamples_err {r : NumRegs} {v : Byte} {es : List Event} {e : Err}
    (h : ByteWrite r v es (.err e)) : sdaSamples es = [] := by
  cases h with
  | bitTimeout h => exact h.sdaSamples_nil
  | ackTimeout h k => simp [h.sdaSamples_nil, k.sdaSamples_nil]

theorem ByteWrite.startTick_append {r : NumRegs} {v : Byte} {es : List Event} {q : Ret Bool} (h : ByteWrite r v es q)
    (t : Word) (fs : List Event) : startTick t (es ++ fs) = startTick (startTick t es) fs := by
  cases h with
  | bitTimeout h => exact h.startTick_append t fs
  | ackTimeout h k =>
    simp only [List.append_assoc, h.startTick_append, startTick_bitSetup, k.startTick_append]
  | acknowledge l h k =>
    simp only [List.append_assoc, h.startTick_append, startTick_bitSetup, k.startTick_append]; rfl

theorem ReadBits.sdaSamples_eq {r : NumRegs} {n : Nat} {vs : List Level} {es : List Event} {q : Ret Unit}
    (h : ReadBits r n vs es q) : sdaSamples es = vs := by
  induction h with
  | done => rfl
  | bit v h _ ih => simp [h.sdaSamples_nil, sdaSamples, ih]
  | timeout h => exact h.sdaSamples_nil

theorem ReadBits.length_ok {r : NumRegs} {n : Nat} {vs : List Level} {es : List Event} {q : Ret Unit}
    (h : ReadBits r n vs es q) (hq : q = .ok ()) : vs.length = n := by
  induction h with
  | done => rfl
  | bit _ _ _ ih => rw [List.length_cons, ih hq]
  | timeout _ => cases hq

theorem ReadBits.startTick_append {r : NumRegs} {n : Nat} {vs : List Level} {es : List Event} {q : Ret Unit}
    (h : ReadBits r n vs es q) (t : Word) (fs : List Event) :
    startTick t (es ++ fs) = startTick (startTick t es) fs := by
  induction h generalizing t with
  | done => rfl
  | bit v h k ih =>
    simp only [List.append_assoc, List.cons_append, h.startTick_append]
    exact ih _
  | timeout h => exact h.startTick_append t fs

theorem ByteRead.sdaSamples_eq {r : NumRegs} {vs : List Level} {es : List Event} {q : Ret Unit}
    (h : ByteRead r vs es q) : sdaSamples es = vs := by
  obtain ⟨fs, h, rfl⟩ := h
  exact h.sdaSamples_eq

theorem ByteRead.startTick_append {r : NumRegs} {vs : List Level} {es : List Event} {q : Ret Unit}
    (h : ByteRead r vs es q) (t : Word) (fs : List Event) :
    startTick t (es ++ fs) = startTick (startTick t es) fs := by
  obtain ⟨gs, h, rfl⟩ := h
  exact h.startTick_append t fs

/-- The acknowledge samples of an address phase that made `k` retries. -/
def addressSamples (k : Nat) : Ret Unit → List Level
  | .ok _ => List.replicate k .hi ++ [.lo]
  | .err .timeout => List.replicate k .hi
  | .err _ => List.replicate (k + 1) .hi

theorem addressSamples_succ (k : Nat) (q : Ret Unit) : addressSamples (k + 1) q = .hi :: addressSamples k q := by
  cases q with
  | ok _ => rfl
  | err e => cases e <;> rfl

theorem AddressRun.sdaSamples_eq {r : NumRegs} {ab : Byte} {n k : Nat} {es : List Event} {q : Ret Unit}
    (h : AddressRun r ab n k es q) : sdaSamples es = addressSamples k q := by
  induction h with
  | acknowledged h =>
    obtain ⟨l, h1, h2⟩ := h.sdaSamples_ok
    cases l with
    | lo => exact h1
    | hi => cases h2
  | timeout h => exact h.sdaSamples_err
  | exhausted h =>
    obtain ⟨l, h1, h2⟩ := h.sdaSamples_ok
    cases l with
    | hi => exact h1
    | lo => cases h2
  | retry h st _ ih =>
    obtain ⟨l, h1, h2⟩ := h.sdaSamples_ok
    cases l with
    | hi => simp [h1, sdaSamples_startEvents st, ih, addressSamples_succ]
    | lo => cases h2

theorem AddressRun.startTick_append {r : NumRegs} {ab : Byte} {n k : Nat} {es : List Event} {q : Ret Unit}
    (h : AddressRun r ab n k es q) (t : Word) (fs : List Event) :
    startTick t (es ++ fs) = startTick (startTick t es) fs := by
  induction h generalizing t with
  | acknowledged h => exact h.startTick_append t fs
  | timeout h => exact h.startTick_append t fs
  | exhausted h => exact h.startTick_append t fs
  | retry h st _ ih =>
    simp only [List.append_assoc, h.startTick_append, startTick_stopEvents, startTick_startEvents st, ih]

/-- A failed address phase saw only NACKs, one for each retry and at most one more. -/
theorem addressSamples_err (k : Nat) (e : Err) :
    (addressSamples k (.err e)).length ≤ k + 1 ∧ .lo ∉ addressSamples k (.err e) := by
  cases e <;> simp [addressSamples]

theorem DataRun.startTick_append {r : NumRegs} {dir : BitVec 1} {byte m : Byte} {es : List Event} {e : Option Err}
    (h : DataRun r dir byte es e m) (t : Word) (fs : List Event) :
    startTick t (es ++ fs) = startTick (startTick t es) fs := by
  cases h with
  | written _ h => exact h.startTick_append t fs
  | notAcknowledged _ h => exact h.startTick_append t fs
  | writeTimeout _ h => exact h.startTick_append t fs
  | readTimeout _ h => exact h.startTick_append t fs
  | read _ h => rw [List.append_assoc, h.startTick_append, h.startTick_append]; rfl

theorem ackAfter_append (a : Bool) (vs ws : List Level) : ackAfter a (vs ++ ws) = ackAfter (ackAfter a vs) ws := by
  cases ws using List.reverseRecOn with
  | nil => simp [ackAfter]
  | append_singleton ws w _ => rw [← List.append_assoc]; simp [ackAfter]

end Sys2Proof.Safety
end

