-- ==== Sys2Proof/Laws/Spec.lean ====
section
/-! SUPPORT. One lemma for each shared operation that says all it can do: which events it emits, which registers it
writes, and that everything else stays. The claims' proofs cite these instead of unfolding the operations. -/

namespace Sys2Proof.Machine

open Sys2Proof Sys2Proof.Safety

/-- `s` ran to `t` emitting `es`, with no effect but on the working registers, the drivers and the environment. -/
structure Ran (s t : State) (es : List Event) : Prop where
  trace : t.trace = s.trace ++ es
  regs : t.regs = s.regs
  seq : t.seq = s.seq
  lock : t.lock = s.lock
  host : t.host = s.host

theorem Ran.trans {s t u : State} {es fs : List Event} (h : Ran s t es) (k : Ran t u fs) : Ran s u (es ++ fs) :=
  ⟨by rw [k.trace, h.trace, List.append_assoc], k.regs.trans h.regs, k.seq.trans h.seq, k.lock.trans h.lock,
    k.host.trans h.host⟩

theorem ran_drive (l : Line) (d : Drv) (s : State) : Ran s (drive l d s) [.drive l d] := ⟨rfl, rfl, rfl, rfl, rfl⟩

theorem ran_halfBit (s : State) : Ran s (halfBit s) [.delayUs s.regs.cfgHalf] := ⟨rfl, rfl, rfl, rfl, rfl⟩

theorem ran_sample (l : Line) (s : State) : Ran s (sample l s) [.sample l (sampled l s)] := ⟨rfl, rfl, rfl, rfl, rfl⟩

/-- A write of working registers only is silent. -/
theorem ran_work (w : WorkRegs) (s : State) : Ran s { s with work := w } [] :=
  ⟨(List.append_nil _).symm, rfl, rfl, rfl, rfl⟩

/-! ### The time source -/

theorem le_admittedElapsed {lo T P : Nat} (x : Nat) : lo ≤ admittedElapsed lo T P x := by
  simp only [admittedElapsed]
  split <;> omega

theorem admittedElapsed_lt {lo T P : Nat} (x : Nat) (hlo : lo < 2 ^ 32) (hT : T < 2 ^ 32) :
    admittedElapsed lo T P x < 2 ^ 32 := by
  have : x % (2 ^ 32 - lo) < 2 ^ 32 - lo := Nat.mod_lt _ (by omega)
  simp only [admittedElapsed]
  split <;> omega

/-- While the wait goes on, the sleep that follows stays below `2^32` elapsed ticks (R21). -/
theorem admittedElapsed_sleep {lo T P : Nat} (x : Nat) (h : admittedElapsed lo T P x < T) :
    admittedElapsed lo T P x + P < 2 ^ 32 := by
  simp only [admittedElapsed] at *
  split at h
  · omega
  · rename_i hn
    rw [if_neg hn]
    omega

/-- Every elapsed time R21 admits after the sleeps is an answer for some draw. -/
theorem admittedElapsed_complete {lo T P e : Nat} (h1 : lo ≤ e) (h2 : e < 2 ^ 32) (h3 : e < T → e + P < 2 ^ 32) :
    ∃ x, admittedElapsed lo T P x = e := by
  refine ⟨e - lo, ?_⟩
  have : (e - lo) % (2 ^ 32 - lo) = e - lo := Nat.mod_eq_of_lt (by omega)
  simp only [admittedElapsed, this]
  split <;> omega

theorem elapsed_checkTick (s : State) :
    elapsed s (checkTick s) =
      admittedElapsed (elapsed s s.env.tick) s.regs.cfgTimeout.toNat s.regs.poll s.env.extraTicks := by
  have h := admittedElapsed_lt (P := s.regs.poll) s.env.extraTicks (lo := elapsed s s.env.tick)
    (T := s.regs.cfgTimeout.toNat) (s.env.tick - s.work.t0).isLt s.regs.cfgTimeout.isLt
  simp only [elapsed, checkTick] at *
  rw [add_sub_cancel_left, BitVec.toNat_ofNat, Nat.mod_eq_of_lt h]

@[simp] theorem elapsed_sleepPoll (s : State) (h : elapsed s s.env.tick + s.regs.poll < 2 ^ 32) :
    elapsed (sleepPoll s) (sleepPoll s).env.tick = elapsed s s.env.tick + s.regs.poll := by
  have : s.env.tick + BitVec.ofNat 32 s.regs.poll - s.work.t0 =
      (s.env.tick - s.work.t0) + BitVec.ofNat 32 s.regs.poll := by ring
  simp only [elapsed, sleepPoll_work, sleepPoll_env, this] at *
  rw [BitVec.toNat_add, BitVec.toNat_ofNat, Nat.mod_eq_of_lt (a := s.regs.poll) (by omega), Nat.mod_eq_of_lt h]

theorem elapsed_nowCheck (s : State) :
    elapsed (nowCheck s) (nowCheck s).env.tick =
      admittedElapsed (elapsed s s.env.tick) s.regs.cfgTimeout.toNat s.regs.poll s.env.extraTicks :=
  elapsed_checkTick s


theorem timedOut_false {s : State} (h : timedOut s = false) : elapsed s s.env.tick < s.regs.cfgTimeout.toNat :=
  Nat.lt_of_not_le (of_decide_eq_false h)

theorem timedOut_true {s : State} (h : timedOut s = true) : s.regs.cfgTimeout.toNat ≤ elapsed s s.env.tick :=
  of_decide_eq_true h

/-- A check finds at least the ticks slept since T0, and while the wait goes on the next sleep stays within `2^32`. -/
theorem le_elapsed_nowCheck {s : State} {k : Nat} (h : k ≤ elapsed s s.env.tick) :
    k ≤ elapsed (nowCheck s) (nowCheck s).env.tick :=
  (elapsed_nowCheck s).symm ▸ h.trans (le_admittedElapsed _)

theorem elapsed_nowCheck_sleep {s : State} (h : timedOut (nowCheck s) = false) :
    elapsed (nowCheck s) (nowCheck s).env.tick + s.regs.poll < 2 ^ 32 := by
  have := timedOut_false h
  rw [elapsed_nowCheck] at *
  exact admittedElapsed_sleep _ this

theorem two_poll (r : NumRegs) : r.cfgTimeout.toNat ≤ 2 * r.poll := by
  simp only [NumRegs.poll]; omega

/-- After `k` polls' worth of sleeps, one more round that does not time out has slept for one more. -/
theorem elapsed_round {s : State} {k : Nat} (h : k ≤ elapsed s s.env.tick)
    (ht : timedOut (nowCheck (sample .scl s)) = false) :
    k + s.regs.poll ≤ elapsed (sleepPoll (nowCheck (sample .scl s))) (sleepPoll (nowCheck (sample .scl s))).env.tick := by
  rw [elapsed_sleepPoll _ (elapsed_nowCheck_sleep ht)]
  exact Nat.add_le_add_right (le_elapsed_nowCheck (s := sample .scl s) h) _

/-- The next check after a sleep finds at least POLL ticks more (R21). -/
theorem elapsed_gap {s : State} (ht : timedOut (nowCheck s) = false) :
    elapsed s (checkTick s) + s.regs.poll ≤
      elapsed s (checkTick (sample .scl (sleepPoll (nowCheck s)))) := by
  have h := le_elapsed_nowCheck (s := sample .scl (sleepPoll (nowCheck s)))
    (Nat.le_of_eq (elapsed_sleepPoll _ (elapsed_nowCheck_sleep ht)).symm)
  exact h

/-- The third check of a wait always times out, so the loop never runs past its last round (R117). -/
theorem pollScl_third_check {s : State} (h : 2 * s.regs.poll ≤ elapsed s s.env.tick) :
    timedOut (nowCheck (sample .scl s)) = true :=
  decide_eq_true ((two_poll s.regs).trans (le_elapsed_nowCheck (s := sample .scl s) h))

theorem pollScl_high {s : State} (n : Nat) (h : sampled .scl s = .hi) :
    pollScl n s = (.ok (), halfBit (sample .scl s)) := by
  rw [pollScl, h]

theorem pollScl_timeout {s : State} (n : Nat) (h : sampled .scl s = .lo)
    (ht : timedOut (nowCheck (sample .scl s)) = true) :
    pollScl n s = (.err .timeout, nowCheck (sample .scl s)) := by
  rw [pollScl, h]; simp only [ht, if_true]

theorem pollScl_again {s : State} (n : Nat) (h : sampled .scl s = .lo)
    (ht : timedOut (nowCheck (sample .scl s)) = false) :
    pollScl (n + 1) s = pollScl n (sleepPoll (nowCheck (sample .scl s))) := by
  rw [pollScl, h]; simp [ht]

theorem ran_nowT0 (s : State) : Ran s (nowT0 s) [.now s.env.laterTick] := ⟨rfl, rfl, rfl, rfl, rfl⟩
theorem ran_nowCheck (s : State) : Ran s (nowCheck s) [.now (checkTick s)] := ⟨rfl, rfl, rfl, rfl, rfl⟩
theorem ran_sleepPoll (s : State) : Ran s (sleepPoll s) [.sleepTicks s.regs.poll] := ⟨rfl, rfl, rfl, rfl, rfl⟩


/-- One round of the loop that sleeps. -/
theorem ran_round (s : State) :
    Ran s (sleepPoll (nowCheck (sample .scl s)))
      [.sample .scl (sampled .scl s), .now (checkTick (sample .scl s)), .sleepTicks s.regs.poll] :=
  ⟨by simp, rfl, rfl, rfl, rfl⟩

/-- A round of the loop that ends the wait. -/
theorem ran_high (s : State) :
    Ran s (halfBit (sample .scl s)) [.sample .scl (sampled .scl s), .delayUs s.regs.cfgHalf] :=
  ⟨by simp, rfl, rfl, rfl, rfl⟩

theorem ran_timeout (s : State) :
    Ran s (nowCheck (sample .scl s)) [.sample .scl (sampled .scl s), .now (checkTick (sample .scl s))] :=
  ⟨by simp, rfl, rfl, rfl, rfl⟩

/-- SCLW's loop from T0 on: one of R120's forms, T0 its start, and no register or driver written. -/
theorem pollScl_spec {s0 s : State} (hrd : s.regs.sclReadable = true)
    (h0 : Ran s0 s [.drive .scl .rel, .now s.work.t0]) :
    ∃ es, Ran s0 (pollScl 2 s).2 es ∧ SclwRun s.regs es (pollScl 2 s).1 ∧
      (pollScl 2 s).2.lines = s.lines ∧ (pollScl 2 s).2.work = s.work ∧ ∀ t, startTick t es = s.work.t0 := by
  cases v0 : sampled .scl s
  case hi =>
    rw [pollScl_high 2 v0]
    exact ⟨_, h0.trans (v0 ▸ ran_high s), .highAtFirst hrd _, rfl, rfl, fun _ => rfl⟩
  cases k1 : timedOut (nowCheck (sample .scl s))
  case true =>
    rw [pollScl_timeout 2 v0 k1]
    exact ⟨_, h0.trans (v0 ▸ ran_timeout s), .timeoutAtFirst hrd _ (checkTick (sample .scl s)) (timedOut_true k1), rfl, rfl, fun _ => rfl⟩
  have z1 := elapsed_round (Nat.zero_le _) k1
  have c1 : (checkTick (sample .scl s) - s.work.t0).toNat < s.regs.cfgTimeout.toNat := timedOut_false k1
  have h1 := h0.trans (v0 ▸ ran_round s)
  rw [pollScl_again 1 v0 k1]
  obtain ⟨s1, e1⟩ : ∃ s1, s1 = sleepPoll (nowCheck (sample .scl s)) := ⟨_, rfl⟩
  have w1 : s1.work = s.work := by rw [e1]; rfl
  have g1 : s1.regs = s.regs := by rw [e1]; rfl
  have l1 : s1.lines = s.lines := by rw [e1]; rfl
  have p1 : (checkTick (sample .scl s) - s.work.t0).toNat + s.regs.poll ≤
      (checkTick (sample .scl s1) - s.work.t0).toNat := by
    rw [e1]; exact elapsed_gap (s := sample .scl s) k1
  rw [← e1] at z1 h1 ⊢
  cases v1 : sampled .scl s1
  case hi =>
    rw [pollScl_high 1 v1]
    exact ⟨_, h1.trans (g1 ▸ v1 ▸ ran_high s1), .highAtSecond hrd _ _ c1, l1, w1, fun _ => rfl⟩
  cases k2 : timedOut (nowCheck (sample .scl s1))
  case true =>
    rw [pollScl_timeout 1 v1 k2]
    exact ⟨_, h1.trans (v1 ▸ ran_timeout s1), .timeoutAtSecond hrd _ _ _ c1 (w1 ▸ g1 ▸ timedOut_true k2) p1, l1, w1, fun _ => rfl⟩
  have z2 := elapsed_round z1 k2
  have c2 : (checkTick (sample .scl s1) - s.work.t0).toNat < s.regs.cfgTimeout.toNat :=
    w1 ▸ g1 ▸ timedOut_false k2
  have h2 := h1.trans (g1 ▸ v1 ▸ ran_round s1)
  rw [pollScl_again 0 v1 k2]
  obtain ⟨s2, e2⟩ : ∃ s2, s2 = sleepPoll (nowCheck (sample .scl s1)) := ⟨_, rfl⟩
  have w2 : s2.work = s.work := by rw [e2]; exact w1
  have g2 : s2.regs = s.regs := by rw [e2]; exact g1
  have l2 : s2.lines = s.lines := by rw [e2]; exact l1
  have p2 : (checkTick (sample .scl s1) - s.work.t0).toNat + s.regs.poll ≤
      (checkTick (sample .scl s2) - s.work.t0).toNat := by
    rw [e2, ← w1, ← g1]; exact elapsed_gap (s := sample .scl s1) k2
  rw [← e2] at z2 h2 ⊢
  cases v2 : sampled .scl s2
  case hi =>
    rw [pollScl_high 0 v2]
    exact ⟨_, h2.trans (g2 ▸ v2 ▸ ran_high s2), .highAtThird hrd _ _ _ c1 c2 p1, l2, w2, fun _ => rfl⟩
  have k3 : timedOut (nowCheck (sample .scl s2)) = true :=
    pollScl_third_check (by rw [g2]; rw [g1] at z2; omega)
  rw [pollScl_timeout 0 v2 k3]
  exact ⟨_, h2.trans (v2 ▸ ran_timeout s2),
    .timeoutAtThird hrd _ _ _ _ c1 c2 (w2 ▸ g2 ▸ timedOut_true k3) p1 p2, l2, w2, fun _ => rfl⟩

/-- SCLW (R116): one of R120's forms; SCL released; T0, the tick of the wait's start, the only register written. -/
theorem sclw_spec (s : State) :
    ∃ es, Ran s (sclw s).2 es ∧ SclwRun s.regs es (sclw s).1 ∧
      (sclw s).2.lines = { s.lines with scl := .rel } ∧
      (sclw s).2.work = { s.work with t0 := startTick s.work.t0 es } := by
  cases hr : s.regs.sclReadable
  case false =>
    have e : sclw s = (.ok (), halfBit (drive .scl .rel s)) := by simp [sclw, hr]
    rw [e]
    exact ⟨_, (ran_drive _ _ s).trans (ran_halfBit _), .noReadback hr, rfl, rfl⟩
  have e : sclw s = pollScl 2 (nowT0 (drive .scl .rel s)) := by simp [sclw, hr]
  obtain ⟨es, h1, h2, h3, h4, h5⟩ := pollScl_spec (s := nowT0 (drive .scl .rel s)) hr
    ((ran_drive .scl .rel s).trans (ran_nowT0 _))
  rw [e]
  exact ⟨es, h1, h2, h3, by rw [h4, h5]; rfl⟩

/-- START (R130). -/
theorem start_spec (s : State) :
    ∃ es r, SclwRun s.regs es r ∧ Ran s (start s) (startEvents s.regs es) ∧
      (start s).lines = { sda := .low, scl := .low } ∧
      (start s).work = { s.work with t0 := startTick s.work.t0 es } := by
  obtain ⟨es, h1, h2, -, h4⟩ := sclw_spec (drive .sda .rel s)
  refine ⟨es, _, h2, ?_, rfl, h4⟩
  have := ((((((ran_drive .sda .rel s).trans h1).trans (ran_halfBit _)).trans (ran_drive .sda .low _)).trans
    (ran_halfBit _)).trans (ran_drive .scl .low _))
  have g : (sclw (drive .sda .rel s)).2.regs = s.regs := h1.regs
  simpa [startEvents, start, g] using this

/-- STOP (R132). -/
theorem stop_spec (s : State) :
    Ran s (stop s) (stopEvents s.regs) ∧ (stop s).lines = { sda := .rel, scl := .rel } ∧
      (stop s).work = s.work ∧ (stop s).env = s.env :=
  ⟨⟨by simp [stop, stopEvents], rfl, rfl, rfl, rfl⟩, rfl, rfl, rfl⟩

/-- FNACK (R134). -/
theorem fnack_spec (s : State) :
    Ran s (fnack s) (fnackEvents s.regs) ∧ (fnack s).lines = { sda := .low, scl := .low } ∧
      (fnack s).work = s.work ∧ (fnack s).env = s.env :=
  ⟨⟨by simp [fnack, fnackEvents], rfl, rfl, rfl, rfl⟩, rfl, rfl, rfl⟩

/-- WBIT (R150). -/
theorem wbit_spec (b : Bool) (s : State) :
    ∃ es, SclwRun s.regs es (wbit b s).1 ∧ Ran s (wbit b s).2 (bitSetup s.regs b ++ es) ∧
      (wbit b s).2.lines = { sda := drvOf b, scl := .rel } ∧
      (wbit b s).2.work = { s.work with t0 := startTick s.work.t0 es } := by
  obtain ⟨es, h1, h2, h3, h4⟩ := sclw_spec (halfBit (drive .sda (drvOf b) (drive .scl .low s)))
  refine ⟨es, h2, ?_, h3, h4⟩
  have := (((ran_drive .scl .low s).trans (ran_drive .sda (drvOf b) _)).trans (ran_halfBit _)).trans h1
  simpa [bitSetup, wbit] using this

/-! ### What each result of an inner primitive makes of the outer one -/

theorem wbits_ok {n : Nat} {s u : State} (h : wbit (s.work.shift.getLsbD n) (setBit (Fin.ofNat 8 n) s) = (.ok (), u)) :
    wbits (n + 1) s = wbits n u := by
  simp only [wbits, setBit_work, h]

theorem wbits_err {n : Nat} {s u : State} {e : Err}
    (h : wbit (s.work.shift.getLsbD n) (setBit (Fin.ofNat 8 n) s) = (.err e, u)) :
    wbits (n + 1) s = (.err e, u) := by
  simp only [wbits, setBit_work, h]

theorem ackPulse_ok {s u : State} (h : wbit true s = (.ok (), u)) :
    ackPulse s =
      (.ok (ackOf (sampled .sda u)), setAck (ackOf (sampled .sda u)) (drive .scl .low (sample .sda u))) := by
  simp only [wbit, drvOf, if_true] at h
  simp only [ackPulse, h]

theorem ackPulse_err {s u : State} {e : Err} (h : wbit true s = (.err e, u)) : ackPulse s = (.err e, u) := by
  simp only [wbit, drvOf, if_true] at h
  simp only [ackPulse, h]

theorem wbyte_ok {v : Byte} {s u : State} (h : wbits 8 (setShift v s) = (.ok (), u)) : wbyte v s = ackPulse u := by
  simp only [wbyte, h]

theorem wbyte_err {v : Byte} {s u : State} {e : Err} (h : wbits 8 (setShift v s) = (.err e, u)) :
    wbyte v s = (.err e, u) := by
  simp only [wbyte, h]

theorem rbits_ok {n : Nat} {s u : State} (h : sclw (setBit (Fin.ofNat 8 n) s) = (.ok (), u)) :
    rbits (n + 1) s =
      rbits n (halfBit (drive .scl .low (setShift (shiftIn u.work.shift (sampled .sda u)) (sample .sda u)))) := by
  simp only [rbits, h]

theorem rbits_err {n : Nat} {s u : State} {e : Err} (h : sclw (setBit (Fin.ofNat 8 n) s) = (.err e, u)) :
    rbits (n + 1) s = (.err e, u) := by
  simp only [rbits, h]

theorem rbyte_ok {s u : State} (h : rbits 8 (setShift 0#8 (halfBit (drive .sda .rel s))) = (.ok (), u)) :
    rbyte s = (.ok u.work.shift, u) := by
  simp only [rbyte, h]

theorem rbyte_err {s u : State} {e : Err}
    (h : rbits 8 (setShift 0#8 (halfBit (drive .sda .rel s))) = (.err e, u)) : rbyte s = (.err e, u) := by
  simp only [rbyte, h]

theorem addressPhase_ack {n : Nat} {ab : Byte} {s u : State} (h : wbyte ab (setPhase .addr s) = (.ok true, u)) :
    addressPhase n ab s = (.ok (), u) := by
  rw [addressPhase, h]

theorem addressPhase_err {n : Nat} {ab : Byte} {s u : State} {e : Err}
    (h : wbyte ab (setPhase .addr s) = (.err e, u)) : addressPhase n ab s = (.err e, u) := by
  rw [addressPhase, h]

theorem addressPhase_last_nack {ab : Byte} {s u : State} (h : wbyte ab (setPhase .addr s) = (.ok false, u)) :
    addressPhase 0 ab s = (.err .noAcknowledge, u) := by
  rw [addressPhase, h]

theorem addressPhase_nack {n : Nat} {ab : Byte} {s u : State} (h : wbyte ab (setPhase .addr s) = (.ok false, u)) :
    addressPhase (n + 1) ab s =
      addressPhase n ab (setAttempt ((start (stop u)).work.attempt + 1#32) (start (stop u))) := by
  rw [addressPhase, h]

theorem writePhase_ack {s u : State} (h : wbyte s.work.msgByte s = (.ok true, u)) : writePhase s = u := by
  simp only [writePhase, h]

theorem writePhase_nack {s u : State} (h : wbyte s.work.msgByte s = (.ok false, u)) :
    writePhase s = enterError .io u := by
  simp only [writePhase, h]

theorem writePhase_err {s u : State} {e : Err} (h : wbyte s.work.msgByte s = (.err e, u)) :
    writePhase s = enterError e u := by
  simp only [writePhase, h]

theorem readPhase_ok {s u : State} {b : Byte} (h : rbyte s = (.ok b, u)) : readPhase s = fnack (setMsgByte b u) := by
  simp only [readPhase, h]

theorem readPhase_err {s u : State} {e : Err} (h : rbyte s = (.err e, u)) : readPhase s = enterError e u := by
  simp only [readPhase, h]

theorem phases_unaddressed {s : State} (h : s.regs.addressed s.work.msgDir = false) : phases s = dataPhase s := by
  simp only [phases, h, Bool.false_eq_true, if_false]

theorem phases_acknowledged {s u : State} (h : s.regs.addressed s.work.msgDir = true)
    (k : addressPhase s.regs.cfgRetries.toNat (addressByte s.work.msgAddr s.work.msgDir) (setAttempt 0#32 s) =
      (.ok (), u)) : phases s = dataPhase u := by
  simp only [phases, h, if_true, k]

theorem phases_failed {s u : State} {e : Err} (h : s.regs.addressed s.work.msgDir = true)
    (k : addressPhase s.regs.cfgRetries.toNat (addressByte s.work.msgAddr s.work.msgDir) (setAttempt 0#32 s) =
      (.err e, u)) : phases s = enterError e u := by
  simp only [phases, h, if_true, k]

/-! ### The byte shifters -/

/-- WBYTE's bits: BIT is the index of the last bit sent and SDA keeps that bit, if there is any bit. -/
theorem wbits_spec (n : Nat) (s : State) :
    ∃ es k, WriteBits s.regs s.work.shift n es (wbits n s).1 ∧ Ran s (wbits n s).2 es ∧
      ((wbits n s).1 = .err .timeout → (wbits n s).2.lines.scl = .rel) ∧
      (wbits n s).2.work = { s.work with bit := k, t0 := startTick s.work.t0 es } ∧
      (0 < n → n ≤ 8 → k.val + (sdaDrives es).length = n ∧
        (sdaDrives es).getLast? = some (wbits n s).2.lines.sda) := by
  induction n generalizing s with
  | zero =>
    exact ⟨[], s.work.bit, .done, ⟨by simp [wbits], rfl, rfl, rfl, rfl⟩, by simp [wbits], rfl,
      fun h => absurd h (Nat.lt_irrefl 0)⟩
  | succ n ih =>
    obtain ⟨es, h1, h2, h3, h4⟩ := wbit_spec (s.work.shift.getLsbD n) (setBit (Fin.ofNat 8 n) s)
    obtain ⟨q, u, hq⟩ : ∃ q u, wbit (s.work.shift.getLsbD n) (setBit (Fin.ofNat 8 n) s) = (q, u) := ⟨_, _, rfl⟩
    rw [hq] at h1 h2 h3 h4
    replace h3 : u.lines = _ := h3
    replace h4 : u.work = _ := h4
    have h0 := (ran_work { s.work with bit := Fin.ofNat 8 n } s).trans h2
    match q, hq, h1 with
    | .err x, hq, h1 =>
      obtain rfl := h1.err_timeout
      rw [wbits_err hq]
      refine ⟨_, Fin.ofNat 8 n, .timeout h1, h0, fun _ => by rw [h3], by simpa using h4, fun _ hn => ⟨?_, ?_⟩⟩
      · simp [h1.sdaDrives_nil, Nat.mod_eq_of_lt (show n < 8 by omega)]
      · simp [h1.sdaDrives_nil, h3]
    | .ok (), hq, h1 =>
      obtain ⟨fs, k, k1, k2, k3, k4, k5⟩ := ih u
      have g : u.regs = s.regs := h0.regs
      have w : u.work.shift = s.work.shift := by rw [h4]; rfl
      rw [wbits_ok hq]
      rw [g, w] at k1
      refine ⟨_, k, .bit h1 k1, by simpa using h0.trans k2, k3, ?_, fun _ hn => ?_⟩
      · rw [k4, h4, startTick_bitSetup, h1.startTick_append]; rfl
      · cases n with
        | zero =>
          cases k1
          have : k = 0 := (congrArg WorkRegs.bit k4).symm.trans (congrArg WorkRegs.bit h4)
          simp [h1.sdaDrives_nil, wbits, h3, this]
        | succ n =>
          obtain ⟨e1, e2⟩ := k5 (Nat.succ_pos n) (by omega)
          refine ⟨by simp [h1.sdaDrives_nil]; omega, ?_⟩
          simp [h1.sdaDrives_nil, List.getLast?_cons, e2]

theorem ackPulse_spec (s : State) :
    ∃ q fs, SclwRun s.regs fs q ∧
      match q with
      | .err e => (ackPulse s).1 = .err e ∧ Ran s (ackPulse s).2 (bitSetup s.regs true ++ fs) ∧
          (ackPulse s).2.lines = { sda := .rel, scl := .rel } ∧
          (ackPulse s).2.work = { s.work with t0 := startTick s.work.t0 fs }
      | .ok _ => ∃ a, (ackPulse s).1 = .ok (ackOf a) ∧
          Ran s (ackPulse s).2 (bitSetup s.regs true ++ (fs ++ [.sample .sda a, .drive .scl .low])) ∧
          (ackPulse s).2.lines = { sda := .rel, scl := .low } ∧
          (ackPulse s).2.work = { s.work with t0 := startTick s.work.t0 fs, ack := ackOf a } := by
  obtain ⟨fs, h1, h2, h3, h4⟩ := wbit_spec true s
  obtain ⟨q, u, hq⟩ : ∃ q u, wbit true s = (q, u) := ⟨_, _, rfl⟩
  rw [hq] at h1 h2 h3 h4
  replace h3 : u.lines = _ := h3
  replace h4 : u.work = _ := h4
  refine ⟨q, fs, h1, ?_⟩
  match q, hq with
  | .err x, hq => rw [ackPulse_err hq]; exact ⟨rfl, h2, h3, h4⟩
  | .ok (), hq =>
    rw [ackPulse_ok hq]
    refine ⟨sampled .sda u, rfl, ?_, by simp [h3, drvOf], by simp [h4]⟩
    have := h2.trans ((ran_sample .sda u).trans ((ran_drive .scl .low _).trans
      (ran_work { u.work with ack := ackOf (sampled .sda u) } _)))
    simpa [setAck] using this

/-- WBYTE (R152). -/
theorem wbyte_spec (v : Byte) (s : State) :
    ∃ es k, ByteWrite s.regs v es (wbyte v s).1 ∧ Ran s (wbyte v s).2 es ∧
      (wbyte v s).2.work =
        { s.work with
          shift := v, bit := k, t0 := startTick s.work.t0 es, ack := ackAfter s.work.ack (sdaSamples es) } ∧
      k.val = 8 - (sdaDrives es).length ∧
      match (wbyte v s).1 with
      | .ok _ => k = 0 ∧ (wbyte v s).2.lines = { sda := .rel, scl := .low }
      | .err e => e = .timeout ∧ (wbyte v s).2.lines.scl = .rel ∧
          (sdaDrives es).getLast? = some (wbyte v s).2.lines.sda := by
  obtain ⟨es, k, h1, h2, h3, h4, h5⟩ := wbits_spec 8 (setShift v s)
  obtain ⟨q, u, hq⟩ : ∃ q u, wbits 8 (setShift v s) = (q, u) := ⟨_, _, rfl⟩
  rw [hq] at h1 h2 h3 h4 h5
  replace h4 : u.work = _ := h4
  obtain ⟨h5, h6⟩ := h5 (by decide) (Nat.le_refl 8)
  have h0 := (ran_work { s.work with shift := v } s).trans h2
  match q, hq, h1 with
  | .err x, hq, h1 =>
    obtain rfl := h1.err_timeout x rfl
    rw [wbyte_err hq]
    exact ⟨_, k, .bitTimeout h1, h0, by rw [h4, h1.sdaSamples_nil]; rfl, by omega, rfl, h3 rfl, h6⟩
  | .ok (), hq, h1 =>
    obtain ⟨q, fs, k1, k2⟩ := ackPulse_spec u
    have g : u.regs = s.regs := h0.regs
    have hn := h1.drives_ok rfl
    have k0 : k = 0 := Fin.ext (by simp; omega)
    rw [g] at k1 k2
    rw [wbyte_ok hq]
    match q, k1, k2 with
    | .err x, k1, k2 =>
      obtain rfl := k1.err_timeout
      obtain ⟨k2, k3, k4, k5⟩ := k2
      rw [k2]
      refine ⟨_, k, .ackTimeout h1 k1, h0.trans k3, ?_, by simp [k0, hn], rfl, by rw [k4], ?_⟩
      · rw [k5, h4, h1.startTick_append, startTick_bitSetup, sdaSamples_append, sdaSamples_append, h1.sdaSamples_nil,
          k1.sdaSamples_nil]
        rfl
      · simp [k1.sdaDrives_nil, k4, drvOf]
    | .ok (), k1, k2 =>
      obtain ⟨a, k2, k3, k4, k5⟩ := k2
      rw [k2]
      refine ⟨_, k, .acknowledge a h1 k1, h0.trans k3, ?_, by simp [k0, hn], k0, k4⟩
      rw [k5, h4, h1.startTick_append, startTick_bitSetup, k1.startTick_append, sdaSamples_append, sdaSamples_append,
        sdaSamples_append, h1.sdaSamples_nil, k1.sdaSamples_nil]
      rfl

/-- RBYTE's bits (R155): BIT is the index of the last bit clocked, if there is any. -/
theorem rbits_spec (n : Nat) (s : State) :
    ∃ vs es k, ReadBits s.regs n vs es (rbits n s).1 ∧ Ran s (rbits n s).2 es ∧
      (rbits n s).2.lines.sda = s.lines.sda ∧
      (rbits n s).2.work =
        { s.work with bit := k, t0 := startTick s.work.t0 es, shift := vs.foldl shiftIn s.work.shift } ∧
      (0 < n → n ≤ 8 → k.val = n - 1 - vs.length) ∧
      match (rbits n s).1 with
      | .ok _ => 0 < n → (rbits n s).2.lines.scl = .low
      | .err e => e = .timeout ∧ (rbits n s).2.lines.scl = .rel := by
  induction n generalizing s with
  | zero =>
    exact ⟨[], [], s.work.bit, .done, ⟨by simp [rbits], rfl, rfl, rfl, rfl⟩, rfl, rfl,
      fun h => absurd h (Nat.lt_irrefl 0), fun h => absurd h (Nat.lt_irrefl 0)⟩
  | succ n ih =>
    obtain ⟨es, h2, h1, h3, h4⟩ := sclw_spec (setBit (Fin.ofNat 8 n) s)
    obtain ⟨q, u, hq⟩ : ∃ q u, sclw (setBit (Fin.ofNat 8 n) s) = (q, u) := ⟨_, _, rfl⟩
    rw [hq] at h1 h2 h3 h4
    replace h3 : u.lines = _ := h3
    replace h4 : u.work = _ := h4
    have h0 := (ran_work { s.work with bit := Fin.ofNat 8 n } s).trans h2
    have g : u.regs = s.regs := h0.regs
    match q, hq, h1 with
    | .err x, hq, h1 =>
      obtain rfl := h1.err_timeout
      rw [rbits_err hq]
      refine ⟨_, _, Fin.ofNat 8 n, .timeout h1, h0, by rw [h3]; rfl, h4, fun _ hn => ?_, rfl, by rw [h3]⟩
      simp [Nat.mod_eq_of_lt (show n < 8 by omega)]
    | .ok (), hq, h1 =>
      obtain ⟨w, hw⟩ : ∃ w, w = halfBit (drive .scl .low
        (setShift (shiftIn u.work.shift (sampled .sda u)) (sample .sda u))) := ⟨_, rfl⟩
      have rw' : Ran u w [.sample .sda (sampled .sda u), .drive .scl .low, .delayUs s.regs.cfgHalf] := by
        rw [hw, ← g]; exact ⟨by simp, rfl, rfl, rfl, rfl⟩
      have lw : w.lines = { sda := s.lines.sda, scl := .low } := by rw [hw]; simp [h3]
      have ww : w.work =
          { s.work with
            bit := Fin.ofNat 8 n, t0 := startTick s.work.t0 es
            shift := shiftIn s.work.shift (sampled .sda u) } := by
        rw [hw]; simp only [halfBit_work, drive_work, setShift_work, sample_work, h4]; rfl
      obtain ⟨vs, fs, k, k1, k2, k3, k4, k5, k6⟩ := ih w
      have g' : w.regs = s.regs := rw'.regs.trans g
      rw [rbits_ok hq, ← hw]
      rw [g'] at k1
      refine ⟨sampled .sda u :: vs, _, k, .bit _ h1 k1, by simpa using (h0.trans rw').trans k2, by rw [k3, lw],
        by rw [k4, ww, h1.startTick_append]; rfl, fun _ hn => ?_, ?_⟩
      · cases n with
        | zero =>
          cases k1
          have : k = 0 := (congrArg WorkRegs.bit k4).symm.trans (congrArg WorkRegs.bit ww)
          simp [this]
        | succ n =>
          have := k5 (Nat.succ_pos n) (by omega)
          rw [List.length_cons]; omega
      · revert k6
        split
        · intro k6 _
          cases n with
          | zero => rw [rbits, lw]
          | succ n => exact k6 (Nat.succ_pos n)
        · exact id

/-- RBYTE (R155). -/
theorem rbyte_spec (s : State) :
    ∃ vs es q k, ByteRead s.regs vs es q ∧ Ran s (rbyte s).2 es ∧
      (rbyte s).2.lines.sda = .rel ∧
      (rbyte s).2.work = { s.work with bit := k, t0 := startTick s.work.t0 es, shift := byteOf vs } ∧
      k.val = 7 - vs.length ∧
      match q with
      | .ok _ => (rbyte s).1 = .ok (byteOf vs) ∧ (rbyte s).2.lines.scl = .low ∧ k = 0
      | .err e => e = .timeout ∧ (rbyte s).1 = .err .timeout ∧ (rbyte s).2.lines.scl = .rel := by
  obtain ⟨w, hw⟩ : ∃ w, w = setShift 0#8 (halfBit (drive .sda .rel s)) := ⟨_, rfl⟩
  have h0 : Ran s w [.drive .sda .rel, .delayUs s.regs.cfgHalf] := by
    rw [hw]; exact ⟨by simp, rfl, rfl, rfl, rfl⟩
  obtain ⟨vs, es, k, h1, h2, h3, h4, h5, h6⟩ := rbits_spec 8 w
  obtain ⟨q, u, hq⟩ : ∃ q u, rbits 8 w = (q, u) := ⟨_, _, rfl⟩
  rw [hq] at h1 h2 h3 h4 h6
  replace h3 : u.lines.sda = .rel := by rw [h3, hw]; rfl
  replace h5 : k.val = 7 - vs.length := h5 (by decide) (Nat.le_refl 8)
  have r := h0.trans h2
  rw [h0.regs] at h1
  have ww : w.work = { s.work with shift := 0#8 } := by rw [hw]; rfl
  have wk : u.work = { s.work with bit := k, t0 := startTick s.work.t0 es, shift := byteOf vs } := by
    rw [show u.work = _ from h4, ww]; rfl
  match q, hq, h1, h6 with
  | .err x, hq, h1, h6 =>
    obtain ⟨rfl, h6⟩ := h6
    rw [rbyte_err (hw ▸ hq)]
    exact ⟨vs, _, _, k, ⟨es, h1, rfl⟩, r, h3, wk, h5, rfl, rfl, h6⟩
  | .ok (), hq, h1, h6 =>
    rw [rbyte_ok (hw ▸ hq), wk]
    refine ⟨vs, _, _, k, ⟨es, h1, rfl⟩, r, h3, rfl, h5, rfl, h6 (by decide), Fin.ext ?_⟩
    rw [h5, h1.length_ok rfl]; rfl

/-! ### The phases of a transfer -/

/-- As `Ran`, for what also writes PHASE. -/
structure RanPhase (p : Phase) (s t : State) (es : List Event) : Prop where
  trace : t.trace = s.trace ++ es
  regs : t.regs = s.regs
  seq : t.seq = { s.seq with phase := p }
  lock : t.lock = s.lock
  host : t.host = s.host

theorem Ran.phase {s t : State} {es : List Event} (h : Ran s t es) : RanPhase s.seq.phase s t es :=
  ⟨h.trace, h.regs, h.seq, h.lock, h.host⟩

theorem RanPhase.trans {p q : Phase} {s t u : State} {es fs : List Event} (h : RanPhase p s t es)
    (k : RanPhase q t u fs) : RanPhase q s u (es ++ fs) :=
  ⟨by rw [k.trace, h.trace, List.append_assoc], k.regs.trans h.regs, by rw [k.seq, h.seq], k.lock.trans h.lock,
    k.host.trans h.host⟩

theorem RanPhase.ran {p : Phase} {s t u : State} {es fs : List Event} (h : RanPhase p s t es)
    (k : Ran t u fs) : RanPhase p s u (es ++ fs) :=
  ⟨by rw [k.trace, h.trace, List.append_assoc], k.regs.trans h.regs, by rw [k.seq, h.seq], k.lock.trans h.lock,
    k.host.trans h.host⟩

theorem ran_setPhase (p : Phase) (s : State) : RanPhase p s (setPhase p s) [] :=
  ⟨(List.append_nil _).symm, rfl, rfl, rfl, rfl⟩

/-- ATTEMPT after `k` increments. -/
theorem ofNat_succ_attempt (a : Word) (k : Nat) : a + 1#32 + BitVec.ofNat 32 k = a + BitVec.ofNat 32 (k + 1) := by
  rw [BitVec.ofNat_add]; ring

/-- The address phase (R180, R181). -/
theorem addressPhase_spec (n : Nat) (ab : Byte) (s : State) :
    ∃ k es b, AddressRun s.regs ab n k es (addressPhase n ab s).1 ∧
      RanPhase .addr s (addressPhase n ab s).2 es ∧
      (addressPhase n ab s).2.work =
        { s.work with
          shift := ab, bit := b, t0 := startTick s.work.t0 es, ack := ackAfter s.work.ack (sdaSamples es)
          attempt := s.work.attempt + BitVec.ofNat 32 k } ∧
      ((addressPhase n ab s).1 ≠ .err .timeout →
        b = 0 ∧ (addressPhase n ab s).2.lines = { sda := .rel, scl := .low }) ∧
      (addressPhase n ab s).1 ≠ .err .io := by
  induction n generalizing s with
  | zero =>
    obtain ⟨es, b, h1, h2, h4, -, h5⟩ := wbyte_spec ab (setPhase .addr s)
    obtain ⟨q, u, hq⟩ : ∃ q u, wbyte ab (setPhase .addr s) = (q, u) := ⟨_, _, rfl⟩
    rw [hq] at h1 h2 h4 h5
    have hw : u.work = { s.work with
        shift := ab, bit := b, t0 := startTick s.work.t0 es, ack := ackAfter s.work.ack (sdaSamples es)
        attempt := s.work.attempt + BitVec.ofNat 32 0 } := by
      simpa using h4
    have h0 := (ran_setPhase .addr s).ran h2
    match q, hq, h1, h5 with
    | .err x, hq, h1, h5 =>
      obtain ⟨rfl, -⟩ := h5
      rw [addressPhase_err hq]
      exact ⟨0, _, b, .timeout h1, h0, hw, by simp, by simp⟩
    | .ok true, hq, h1, h5 =>
      rw [addressPhase_ack hq]
      exact ⟨0, _, b, .acknowledged h1, h0, hw, fun _ => h5, by simp⟩
    | .ok false, hq, h1, h5 =>
      rw [addressPhase_last_nack hq]
      exact ⟨0, _, b, .exhausted h1, h0, hw, fun _ => h5, by simp⟩
  | succ n ih =>
    obtain ⟨es, b, h1, h2, h4, -, h5⟩ := wbyte_spec ab (setPhase .addr s)
    obtain ⟨q, u, hq⟩ : ∃ q u, wbyte ab (setPhase .addr s) = (q, u) := ⟨_, _, rfl⟩
    rw [hq] at h1 h2 h4 h5
    have hw : u.work = { s.work with
        shift := ab, bit := b, t0 := startTick s.work.t0 es, ack := ackAfter s.work.ack (sdaSamples es)
        attempt := s.work.attempt + BitVec.ofNat 32 0 } := by
      simpa using h4
    have h0 := (ran_setPhase .addr s).ran h2
    match q, hq, h1, h5 with
    | .err x, hq, h1, h5 =>
      obtain ⟨rfl, -⟩ := h5
      rw [addressPhase_err hq]
      exact ⟨0, _, b, .timeout h1, h0, hw, by simp, by simp⟩
    | .ok true, hq, h1, h5 =>
      rw [addressPhase_ack hq]
      exact ⟨0, _, b, .acknowledged h1, h0, hw, fun _ => h5, by simp⟩
    | .ok false, hq, h1, h5 =>
      rw [addressPhase_nack hq]
      obtain ⟨fs, p, b1, b2, -, b4⟩ := start_spec (stop u)
      obtain ⟨a1, -, a3, -⟩ := stop_spec u
      obtain ⟨w, hw'⟩ : ∃ w, w = setAttempt ((start (stop u)).work.attempt + 1#32) (start (stop u)) := ⟨_, rfl⟩
      have c0 : Ran u w (stopEvents u.regs ++ startEvents (stop u).regs fs) := by
        rw [hw']
        exact ⟨(a1.trans b2).trace, (a1.trans b2).regs, (a1.trans b2).seq, (a1.trans b2).lock, (a1.trans b2).host⟩
      have c1 : w.work = { s.work with
          shift := ab, bit := b, t0 := startTick (startTick s.work.t0 es) fs
          ack := ackAfter s.work.ack (sdaSamples es), attempt := s.work.attempt + 1#32 } := by
        rw [hw', setAttempt_work, b4, a3, hw]; simp
      have gu : u.regs = s.regs := h0.regs
      have gs : (stop u).regs = s.regs := a1.regs.trans gu
      have gw : w.regs = s.regs := c0.regs.trans gu
      rw [← hw']
      obtain ⟨j, gsv, b', d1, d2, d4, d5, d6⟩ := ih w
      rw [gu, gs] at c0
      rw [gs] at b1
      rw [gw] at d1
      refine ⟨j + 1, _, b', .retry h1 b1 d1, by simpa using (h0.ran c0).trans d2, ?_, d5, d6⟩
      rw [d4, c1]
      simp only [ofNat_succ_attempt, sdaSamples_append, sdaSamples_stopEvents, sdaSamples_startEvents b1,
        List.nil_append, ackAfter_append, h1.startTick_append, startTick_stopEvents, startTick_startEvents b1]

/-- What SHIFT holds after a data phase whose SDA samples are `vs`: the byte sent, or the bits read (log 21). -/
def dataShift (dir : BitVec 1) (byte : Byte) (vs : List Level) : Byte := if dir = 0#1 then byte else byteOf vs

/-- ACK after a data phase: a read leaves it (R182, R183). -/
def dataAck (dir : BitVec 1) (a : Bool) (vs : List Level) : Bool := if dir = 0#1 then ackAfter a vs else a

/-- The data phase (R182, R183). -/
theorem dataPhase_spec (s : State) (hd : s.work.err = none) :
    ∃ es, DataRun s.regs s.work.msgDir s.work.msgByte es (dataPhase s).work.err (dataPhase s).work.msgByte ∧
      RanPhase .data s (dataPhase s) es ∧
      ∃ b m e, (dataPhase s).work =
        { s.work with
          shift := dataShift s.work.msgDir s.work.msgByte (sdaSamples es), bit := b, t0 := startTick s.work.t0 es
          ack := dataAck s.work.msgDir s.work.ack (sdaSamples es), msgByte := m, err := e } ∧
        (e ≠ some .timeout → b = 0) := by
  by_cases d : s.work.msgDir = 0#1
  · have e : dataPhase s = writePhase (setPhase .data s) := by simp only [dataPhase, setPhase_work, d, if_true]
    rw [e]
    simp only [dataShift, dataAck, d, if_true]
    obtain ⟨es, k, h1, h2, h4, -, h5⟩ := wbyte_spec s.work.msgByte (setPhase .data s)
    obtain ⟨q, u, hq⟩ : ∃ q u, wbyte s.work.msgByte (setPhase .data s) = (q, u) := ⟨_, _, rfl⟩
    rw [hq] at h1 h2 h4 h5
    replace h4 : u.work = { s.work with
        shift := s.work.msgByte, bit := k, t0 := startTick s.work.t0 es
        ack := ackAfter s.work.ack (sdaSamples es) } := h4
    have hb : u.work.msgByte = s.work.msgByte := by rw [h4]
    have he : u.work.err = none := by rw [h4]; exact hd
    have h0 := (ran_setPhase .data s).ran h2
    match q, hq, h1, h5 with
    | .err x, hq, h1, h5 =>
      obtain ⟨rfl, -⟩ := h5
      rw [writePhase_err hq]
      exact ⟨es, by simpa [hb] using .writeTimeout rfl h1, ⟨h0.trace, h0.regs, h0.seq, h0.lock, h0.host⟩,
        k, _, _, by rw [enterError_work, h4, ← d], by simp⟩
    | .ok true, hq, h1, h5 =>
      rw [writePhase_ack hq, hb, he]
      exact ⟨es, .written rfl h1, h0, k, _, _, by rw [h4, ← d], fun _ => h5.1⟩
    | .ok false, hq, h1, h5 =>
      rw [writePhase_nack hq]
      exact ⟨es, by simpa [hb] using .notAcknowledged rfl h1, ⟨h0.trace, h0.regs, h0.seq, h0.lock, h0.host⟩,
        k, _, _, by rw [enterError_work, h4, ← d], fun _ => h5.1⟩
  · have d1 : s.work.msgDir = 1#1 := by
      have := s.work.msgDir.isLt
      have : s.work.msgDir.toNat ≠ 0 := fun h => d (BitVec.eq_of_toNat_eq h)
      exact BitVec.eq_of_toNat_eq (by simp; omega)
    have e : dataPhase s = readPhase (setPhase .data s) := by simp only [dataPhase, setPhase_work, d, if_false]
    rw [e]
    simp only [dataShift, dataAck, d, if_false]
    obtain ⟨vs, es, q, k, h1, h2, h3, h4, -, h5⟩ := rbyte_spec (setPhase .data s)
    obtain ⟨p, u, hq⟩ : ∃ p u, rbyte (setPhase .data s) = (p, u) := ⟨_, _, rfl⟩
    rw [hq] at h2 h3 h4 h5
    have hv := h1.sdaSamples_eq
    replace h4 : u.work = { s.work with bit := k, t0 := startTick s.work.t0 es, shift := byteOf vs } := h4
    have hb : u.work.msgByte = s.work.msgByte := by rw [h4]
    have he : u.work.err = none := by rw [h4]; exact hd
    have h0 := (ran_setPhase .data s).ran h2
    match q, h1, h5 with
    | .err x, h1, h5 =>
      obtain ⟨rfl, h6, -⟩ := h5
      replace h6 : p = .err .timeout := h6
      rw [readPhase_err (hq.trans (by rw [h6]))]
      exact ⟨es, by simpa [hb] using .readTimeout d1 h1, ⟨h0.trace, h0.regs, h0.seq, h0.lock, h0.host⟩,
        k, _, _, by rw [enterError_work, h4, hv], by simp⟩
    | .ok (), h1, h5 =>
      have h6 : p = .ok (byteOf vs) := h5.1
      rw [readPhase_ok (hq.trans (by rw [h6]))]
      obtain ⟨f1, f2, f3, -⟩ := fnack_spec (setMsgByte (byteOf vs) u)
      have g : (setMsgByte (byteOf vs) u).regs = s.regs := h0.regs
      rw [g] at f1
      have r : Ran u (fnack (setMsgByte (byteOf vs) u)) (fnackEvents s.regs) :=
        ⟨f1.trace, f1.regs, f1.seq, f1.lock, f1.host⟩
      refine ⟨es ++ fnackEvents s.regs, ?_, h0.ran r, k, byteOf vs, none, ?_, fun _ => h5.2.2⟩
      · rw [f3]
        simpa [he] using .read d1 h1
      · rw [f3, setMsgByte_work, h4, sdaSamples_append, hv, sdaSamples_fnackEvents, List.append_nil,
          h1.startTick_append]
        simp [hd, startTick, fnackEvents]

/-- SHIFT after a transfer with `k` retries (none without an address phase) and these SDA samples: the address byte, or
what the data phase left (log 21). -/
def transferShift (addr : BitVec 16) (dir : BitVec 1) (byte : Byte) (k : Option Nat) (vs : List Level) : Byte :=
  match k with
  | none => dataShift dir byte vs
  | some k => if .lo ∈ vs.take (k + 1) then dataShift dir byte (vs.drop (k + 1)) else addressByte addr dir

/-- ACK after a transfer with `k` retries and these SDA samples, from `a` (R176, R177). -/
def transferAck (dir : BitVec 1) (k : Option Nat) (a : Bool) (vs : List Level) : Bool :=
  match k with
  | none => dataAck dir a vs
  | some k => dataAck dir (ackAfter a (vs.take (k + 1))) (vs.drop (k + 1))

/-- What lies between START and FINISH of a transfer (R178). -/
theorem phases_spec (s : State) (hd : s.work.err = none) :
    ∃ es k p e m, RanPhase p s (phases s) es ∧
      (phases s).work.err = e ∧ (phases s).work.msgByte = m ∧
      (∃ b, (phases s).work =
        { s.work with
          shift := transferShift s.work.msgAddr s.work.msgDir s.work.msgByte k (sdaSamples es), bit := b
          t0 := startTick s.work.t0 es, ack := transferAck s.work.msgDir k s.work.ack (sdaSamples es)
          msgByte := m, err := e
          attempt := match k with | none => s.work.attempt | some k => BitVec.ofNat 32 k } ∧
        (e ≠ some .timeout → b = 0)) ∧
      (∀ t gs, startTick t (es ++ gs) = startTick (startTick t es) gs) ∧
      ∀ (fs : List Event) (q : Ret Unit), SclwRun s.regs fs q →
        TransferRun s.regs s.work.msgAddr s.work.msgDir s.work.msgByte
          (startEvents s.regs fs ++ (es ++ stopEvents s.regs)) k e m := by
  cases ha : s.regs.addressed s.work.msgDir
  case false =>
    obtain ⟨es, h1, h2, b, m, e, h3, hb⟩ := dataPhase_spec s hd
    rw [phases_unaddressed ha]
    have he : (dataPhase s).work.err = e := by rw [h3]
    have hm : (dataPhase s).work.msgByte = m := by rw [h3]
    rw [he, hm] at h1
    exact ⟨es, none, _, e, m, h2, he, hm, ⟨b, h3, hb⟩, h1.startTick_append, fun fs q hs => .unaddressed ha hs h1⟩
  obtain ⟨k, es, b, h1, h2, h4, h5, h6⟩ :=
    addressPhase_spec s.regs.cfgRetries.toNat (addressByte s.work.msgAddr s.work.msgDir) (setAttempt 0#32 s)
  obtain ⟨q, u, hq⟩ : ∃ q u, addressPhase s.regs.cfgRetries.toNat (addressByte s.work.msgAddr s.work.msgDir)
      (setAttempt 0#32 s) = (q, u) := ⟨_, _, rfl⟩
  rw [hq] at h1 h2 h4 h5 h6
  have hv := h1.sdaSamples_eq
  have h0 : RanPhase .addr s u es := ⟨h2.trace, h2.regs, h2.seq, h2.lock, h2.host⟩
  replace h4 : u.work =
      { s.work with
        shift := addressByte s.work.msgAddr s.work.msgDir, bit := b, t0 := startTick s.work.t0 es
        ack := ackAfter s.work.ack (sdaSamples es), attempt := BitVec.ofNat 32 k } := by
    rw [show u.work = _ from h4]; simp
  match q, hq, h1, h5, h6 with
  | .err x, hq, h1, h5, h6 =>
    rw [phases_failed ha hq]
    obtain ⟨l1, l2⟩ := addressSamples_err k x
    rw [← hv] at l1 l2
    refine ⟨es, some k, .addr, some x, s.work.msgByte, ⟨h0.trace, h0.regs, h0.seq, h0.lock, h0.host⟩, rfl,
      by rw [enterError_work, h4], ⟨b, ?_, fun hx => (h5 fun hy => hx (by cases hy; rfl)).1⟩, h1.startTick_append,
      fun fs q hs => .addressFailed ha hs h1⟩
    rw [enterError_work, h4]
    simp only [transferShift, transferAck, if_neg l2, List.take_of_length_le l1, List.drop_of_length_le l1]
    simp [dataAck, ackAfter]
  | .ok (), hq, h1, h5, h6 =>
    rw [phases_acknowledged ha hq]
    have w1 : u.work.msgDir = s.work.msgDir := by rw [h4]
    have w2 : u.work.msgByte = s.work.msgByte := by rw [h4]
    have w3 : u.work.err = none := by rw [h4]; exact hd
    obtain ⟨ds, k1, k2, b', m, e, k3, k4⟩ := dataPhase_spec u w3
    have he : (dataPhase u).work.err = e := by rw [k3]
    have hm : (dataPhase u).work.msgByte = m := by rw [k3]
    rw [he, hm, h0.regs, w1, w2] at k1
    have hl : (sdaSamples es).length = k + 1 := by rw [hv]; simp [addressSamples]
    have hlo : .lo ∈ sdaSamples es := by rw [hv]; simp [addressSamples]
    refine ⟨es ++ ds, some k, .data, e, m, h0.trans k2, he, hm, ⟨b', ?_, k4⟩, fun t gs => ?_, fun fs q hs => ?_⟩
    · rw [k3, w1, w2, h4]
      simp only [transferShift, transferAck, sdaSamples_append, List.take_left' hl, List.drop_left' hl, if_pos hlo,
        h1.startTick_append]
    · rw [List.append_assoc, h1.startTick_append, k1.startTick_append, h1.startTick_append]
    · rw [List.append_assoc]
      exact .addressed ha hs h1 k1

/-- TRANSFER (R178): its trace, its registers, its result word. -/
theorem transfer_spec (addr : BitVec 16) (dir : BitVec 1) (byte : Byte) (s : State) :
    ∃ es k e m, TransferRun s.regs addr dir byte es k e m ∧
      (transfer addr dir byte s).trace =
        s.trace ++ (.acquire s.host.issuer :: (es ++ [.release s.host.issuer])) ∧
      (transfer addr dir byte s).regs = { s.regs with lastError := lastErrorWord e } ∧
      (∃ b, (transfer addr dir byte s).work =
        { msgAddr := addr, msgDir := dir, msgByte := m, err := e
          shift := transferShift addr dir byte k (sdaSamples es), bit := b, t0 := startTick s.work.t0 es
          ack := transferAck dir k s.work.ack (sdaSamples es)
          attempt := match k with | none => s.work.attempt | some k => BitVec.ofNat 32 k } ∧
        (e ≠ some .timeout → b = 0)) ∧
      (transfer addr dir byte s).lines = { sda := .rel, scl := .rel } ∧
      (transfer addr dir byte s).seq = { s.seq with phase := .idle } ∧
      (transfer addr dir byte s).lock = { s.lock with guard := .free } ∧
      (transfer addr dir byte s).host =
        { s.host with replies := s.host.replies ++
            [{ caller := s.host.issuer, answer := .result (resWord (errCode e) false m) }] } := by
  obtain ⟨s1, hs1⟩ : ∃ s1, s1 = setPhase .started (loadMessage addr dir byte (acquire s)) := ⟨_, rfl⟩
  have w1 : s1.work = { s.work with msgAddr := addr, msgDir := dir, msgByte := byte, err := none } := by rw [hs1]; rfl
  have g1 : s1.regs = s.regs := by rw [hs1]; rfl
  obtain ⟨fs, q, b1, b2, -, b4⟩ := start_spec s1
  have w2 : (start s1).work = { s.work with
      msgAddr := addr, msgDir := dir, msgByte := byte, err := none, t0 := startTick s.work.t0 fs } := by
    rw [b4, w1]
  have g2 : (start s1).regs = s.regs := b2.regs.trans g1
  obtain ⟨es, k, p, e, m, c1, c2, c3, ⟨b, c4, c6⟩, c7, c5⟩ := phases_spec (start s1) (by rw [w2])
  obtain ⟨u, hu⟩ : ∃ u, u = phases (start s1) := ⟨_, rfl⟩
  have ht : transfer addr dir byte s = finish u := by rw [hu, hs1]; rfl
  rw [← hu] at c1 c2 c3 c4
  rw [g2, w2] at c5
  rw [g1] at b1
  have gu : u.regs = s.regs := c1.regs.trans g2
  have hu1 : u.host = s.host := by rw [c1.host, b2.host, hs1]; rfl
  have hl : u.lock = { s.lock with guard := .held s.host.issuer } := by rw [c1.lock, b2.lock, hs1]; rfl
  have hq : u.seq = { s.seq with phase := p } := by rw [c1.seq, b2.seq, hs1]; rfl
  have htr : u.trace = s.trace ++ (.acquire s.host.issuer :: (startEvents s.regs fs ++ es)) := by
    rw [c1.trace, b2.trace, g1, hs1]; simp
  have hv : sdaSamples (startEvents s.regs fs ++ (es ++ stopEvents s.regs)) = sdaSamples es := by
    simp [sdaSamples_startEvents b1]
  have h0 : startTick s.work.t0 (startEvents s.regs fs ++ (es ++ stopEvents s.regs)) =
      startTick (startTick s.work.t0 fs) es := by
    rw [startTick_startEvents b1, c7]; rfl
  refine ⟨_, k, e, m, c5 fs q b1, ?_, ?_, ⟨b, ?_, c6⟩, ?_, ?_, ?_, ?_⟩
  all_goals rw [ht]; simp only [finish, returnFromTransfer]
  · simp [stop, htr, hu1, gu, stopEvents]
  · simp [stop, gu, c2]
  · simp [stop, c4, w2, hv, h0]
  · simp [stop]
  · simp [stop, hq]
  · simp [stop, hl]
  · simp [stop, hu1, transferRes, c2, c3]

/-! ### The micro-op commands -/

/-- What a micro-op command leaves when its primitive ran from the acquired state to `u` (R227, R231). -/
theorem micro_release {s u : State} {es : List Event} (w : Word) (h : Ran (acquire s) u es) :
    (release w u).trace = s.trace ++ (.acquire s.host.issuer :: (es ++ [.release s.host.issuer])) ∧
      (release w u).regs = s.regs ∧ (release w u).seq = s.seq ∧
      (release w u).lock = { s.lock with guard := .free } ∧ (release w u).work = u.work ∧
      (release w u).lines = u.lines ∧
      (release w u).host = { s.host with replies := s.host.replies ++
        [{ caller := s.host.issuer, answer := .result w }] } := by
  refine ⟨?_, h.regs, h.seq, ?_, rfl, rfl, ?_⟩
  · rw [release_trace, h.trace, h.host]; simp
  · rw [release_lock, h.lock]; rfl
  · rw [release_host, h.host]; rfl

theorem whenGranted_free {i : Instr} {run : State → State} {s : State} (h : s.lock.guard = .free) :
    whenGranted i run s = .next (run s) := by
  rw [whenGranted, h]

theorem whenGranted_held {i : Instr} {run : State → State} {s : State} {c : Nat} (h : s.lock.guard = .held c) :
    whenGranted i run s = .next (waitForGuard i s) := by
  rw [whenGranted, h]

/-- The state a command leaves when it runs whole: the meaning without the guard's test. -/
def runCommand (i : Instr) (s : State) : State :=
  match i with
  | .xferW addr byte => transfer addr 0#1 byte s
  | .xferR addr init => transfer addr 1#1 init s
  | .sclw => runSclw s
  | .start => runStart s
  | .stop => runStop s
  | .fnack => runFnack s
  | .wbit b => runWbit (b.getLsbD 0) s
  | .wbyte v => runWbyte v s
  | .rbyte => runRbyte s

/-- Every command completes when the guard is free (R217). -/
theorem exec_free (i : Instr) {s : State} (h : s.lock.guard = .free) : exec i s = .next (runCommand i s) := by
  cases i <;> exact whenGranted_free h

/-- Every command waits when the guard is held (R194, R231). -/
theorem exec_held (i : Instr) {s : State} {c : Nat} (h : s.lock.guard = .held c) :
    exec i s = .next (waitForGuard i s) := by
  cases i <;> exact whenGranted_held h

end Sys2Proof.Machine
end

