-- ==== Sys2Proof/Laws/Step.lean ====
section
/-! SUPPORT. What a line, a caller's move, a grant and a step can do, said once. -/

namespace Sys2Proof.Machine

open Sys2Proof Sys2Proof.Safety

/-- A line that emits an event `e`, or none: the trace grows by it, and of the numbered registers only LAST_ERROR may
change. -/
structure LineRan (s t : State) : Prop where
  trace : ∃ es : List Event, es.length ≤ 1 ∧ t.trace = s.trace ++ es
  regs : t.regs = s.regs ∨ t.regs = { s.regs with lastError := lastErrorWord s.work.err }

theorem LineRan.silent {s t : State} (h : t.trace = s.trace) (k : t.regs = s.regs) : LineRan s t :=
  ⟨⟨[], by simp, by simp [h]⟩, .inl k⟩

theorem LineRan.event {s t : State} (e : Event) (h : t.trace = s.trace ++ [e]) (k : t.regs = s.regs) : LineRan s t :=
  ⟨⟨[e], by simp, h⟩, .inl k⟩

/-- Every line emits at most one event and writes no configuration register (R31, R60). -/
theorem runLine_ran (m : Micro) (rest : List Micro) (s : State) : LineRan s (runLine m rest s) := by
  cases m with
  | drive l d => exact .event (.drive l d) rfl rfl
  | half => exact .event (.delayUs s.regs.cfgHalf) rfl rfl
  | nowT0 => exact .event (.now s.env.laterTick) rfl rfl
  | pollScl => simp only [runLine]; split <;> exact .event (.sample .scl (sampled .scl s)) rfl rfl
  | checkTime => simp only [runLine]; split <;> exact .event (.now (checkTick s)) rfl rfl
  | sleepPoll => exact .event (.sleepTicks s.regs.poll) rfl rfl
  | setShift v => exact .silent rfl rfl
  | setBit k => exact .silent rfl rfl
  | sampleAck => exact .event (.sample .sda (sampled .sda s)) rfl rfl
  | setAck a => exact .silent rfl rfl
  | sampleBit => exact .event (.sample .sda (sampled .sda s)) rfl rfl
  | loadMessage addr dir byte => exact .silent rfl rfl
  | setPhase p => exact .silent rfl rfl
  | clearAttempt => exact .silent rfl rfl
  | nextAttempt => exact .silent rfl rfl
  | addrDecide => exact .silent rfl rfl
  | writeDecide => simp only [runLine]; split <;> exact .silent rfl rfl
  | takeByte => exact .silent rfl rfl
  | setErr e => exact .silent rfl rfl
  | setLastError => exact ⟨⟨[], by simp, by simp [runLine]⟩, .inr rfl⟩
  | catchIgnore => exact .silent rfl rfl
  | catchMicro => exact .silent rfl rfl
  | catchTransfer => exact .silent rfl rfl
  | endMicro k => exact .event (.release s.host.issuer) rfl rfl
  | endTransfer => exact .event (.release s.host.issuer) rfl rfl

theorem tick_ran (s : State) : LineRan s (tick s) := by
  rw [tick]
  split
  · exact .silent rfl rfl
  · exact runLine_ran _ _ s

theorem tick_cons {m : Micro} {rest : List Micro} {s : State} (h : s.seq.pos = m :: rest) :
    tick s = runLine m rest s := by
  rw [tick, h]

theorem ticks_add (m n : Nat) (s : State) : ticks (m + n) s = ticks n (ticks m s) := by
  induction m generalizing s with
  | zero => rw [Nat.zero_add, ticks]
  | succ m ih => rw [Nat.succ_add, ticks, ticks, ih]

/-- A caller's move: nothing, a refusal of its word, or one more waiter; never an event (R93, R194). -/
theorem callerMove_cases (s : State) :
    callerMove s = s ∨
    ∃ r rest, s.host.port = r :: rest ∧ blocked r.caller s = false ∧
      ((∃ why, decode r.word = .refused why ∧ callerMove s =
          { s with host := { s.host with
            port := rest, replies := s.host.replies ++ [{ caller := r.caller, answer := .refused why }] } }) ∨
       ∃ i, decode r.word = .ok i ∧ callerMove s =
          { s with
            host := { s.host with port := rest }
            lock := { s.lock with waiters := s.lock.waiters ++ [{ caller := r.caller, command := i }] } }) := by
  rw [callerMove]
  split
  · exact .inl rfl
  · rename_i r rest hp
    by_cases hb : blocked r.caller s = true
    · rw [if_pos hb]; exact .inl rfl
    · rw [if_neg hb]
      refine .inr ⟨r, rest, hp, by simpa using hb, ?_⟩
      cases hd : decode r.word with
      | refused why => exact .inl ⟨why, rfl, rfl⟩
      | ok i => exact .inr ⟨i, rfl, rfl⟩

/-- The waiter granted the guard is one of the waiters, and the others wait on (R65.4). -/
theorem takeWaiter_spec (w : Waiter) (ws : List Waiter) (s : State) :
    ∃ k, k < (w :: ws).length ∧ (w :: ws)[k]? = some (takeWaiter w ws s).1 ∧
      (takeWaiter w ws s).2.lock = { s.lock with waiters := (w :: ws).eraseIdx k } ∧
      (takeWaiter w ws s).2.host = { s.host with issuer := (takeWaiter w ws s).1.caller } ∧
      (takeWaiter w ws s).2.regs = s.regs ∧ (takeWaiter w ws s).2.work = s.work ∧
      (takeWaiter w ws s).2.lines = s.lines ∧ (takeWaiter w ws s).2.seq = s.seq ∧
      (takeWaiter w ws s).2.trace = s.trace := by
  have hk : s.env.grantChoice % (ws.length + 1) < (w :: ws).length := Nat.mod_lt _ (Nat.succ_pos _)
  refine ⟨_, hk, ?_, rfl, rfl, rfl, rfl, rfl, rfl, rfl⟩
  simp only [takeWaiter]
  rw [List.getD_eq_getElem _ _ hk, List.getElem?_eq_getElem hk]

/-- A move of the engine: a line of the running command, a grant, or nothing. -/
theorem engineMove_cases {s t : State} (h : engineMove s = .next t) :
    (∃ c m rest, s.lock.guard = .held c ∧ s.seq.pos = m :: rest ∧ t = runLine m rest s) ∨
    (s.lock.guard = .free ∧ s.lock.waiters = [] ∧ t = s) ∨
    ∃ w ws, s.lock.guard = .free ∧ s.lock.waiters = w :: ws ∧
      t = beginCommand (takeWaiter w ws s).1.command (takeWaiter w ws s).2 := by
  rw [engineMove] at h
  split at h
  · rename_i c hg
    split at h
    · cases h
    · rename_i m rest hp
      cases h
      exact .inl ⟨c, m, rest, hg, hp, tick_cons hp⟩
  · rename_i hg
    split at h
    · rename_i hw; cases h; exact .inr (.inl ⟨hg, hw, rfl⟩)
    · rename_i w ws hw; cases h; exact .inr (.inr ⟨w, ws, hg, hw, rfl⟩)

/-- What there is to run whole: a waiter's command, a refused word, a command of the port, or nothing. -/
theorem fetch_cases (s : State) :
    (s.lock.waiters = [] ∧ s.host.port = [] ∧ fetch s = .nothing) ∨
    (∃ w ws, s.lock.waiters = w :: ws ∧
      fetch s = .command (takeWaiter w ws s).1.command (takeWaiter w ws s).2) ∨
    ∃ r rest, s.lock.waiters = [] ∧ s.host.port = r :: rest ∧
      ((∃ why, decode r.word = .refused why ∧
          fetch s = .refused { s with host := { s.host with
            port := rest, replies := s.host.replies ++ [{ caller := r.caller, answer := .refused why }] } }) ∨
       ∃ i, decode r.word = .ok i ∧
          fetch s = .command i { s with host := { s.host with port := rest, issuer := r.caller } }) := by
  cases hw : s.lock.waiters with
  | cons w ws => exact .inr (.inl ⟨w, ws, rfl, by simp [fetch, hw]⟩)
  | nil =>
    cases hp : s.host.port with
    | nil => exact .inl ⟨rfl, rfl, by simp [fetch, hw, hp]⟩
    | cons r rest =>
      refine .inr (.inr ⟨r, rest, rfl, rfl, ?_⟩)
      cases hd : decode r.word with
      | refused why => exact .inl ⟨why, rfl, by simp [fetch, hw, hp, hd, refuseWord]⟩
      | ok i => exact .inr ⟨i, rfl, by simp [fetch, hw, hp, hd]⟩

/-- Everything a step that answers next can be: no bus and nothing issued; a scheduled move; the next line of a command in
progress; nothing to do; a refused word; a command run whole. -/
theorem step_cases {s t : State} (h : step s = .next t) :
    (s.host.created = false ∧ s.host.port = [] ∧ t = s) ∨
    (∃ ts, s.host.turns = .caller :: ts ∧ t = callerMove { s with host := { s.host with turns := ts } }) ∨
    (∃ ts, s.host.turns = .engine :: ts ∧ engineMove { s with host := { s.host with turns := ts } } = .next t) ∨
    (∃ c, s.host.turns = [] ∧ s.lock.guard = .held c ∧ engineMove s = .next t) ∨
    (s.host.turns = [] ∧ s.lock.guard = .free ∧ fetch s = .nothing ∧ t = s) ∨
    (s.host.turns = [] ∧ s.lock.guard = .free ∧ fetch s = .refused t) ∨
    ∃ i u, s.host.turns = [] ∧ s.lock.guard = .free ∧ fetch s = .command i u ∧ exec i u = .next t := by
  rw [step] at h
  by_cases hc : s.host.created = true
  · rw [if_pos hc, stepBus] at h
    split at h
    · rename_i x ts ht
      cases x with
      | caller => cases h; exact .inr (.inl ⟨ts, ht, rfl⟩)
      | engine => exact .inr (.inr (.inl ⟨ts, ht, h⟩))
    · rename_i ht
      split at h
      · rename_i c hg; exact .inr (.inr (.inr (.inl ⟨c, ht, hg, h⟩)))
      · rename_i hg
        rw [stepWhole] at h
        split at h
        · rename_i hf; cases h; exact .inr (.inr (.inr (.inr (.inl ⟨ht, hg, hf, rfl⟩))))
        · rename_i hf; cases h; exact .inr (.inr (.inr (.inr (.inr (.inl ⟨ht, hg, hf⟩)))))
        · rename_i i u hf; exact .inr (.inr (.inr (.inr (.inr (.inr ⟨i, u, ht, hg, hf, h⟩)))))
  · rw [if_neg hc] at h
    split at h
    · rename_i hp; cases h; exact .inl ⟨by simpa using hc, hp, rfl⟩
    · cases h

end Sys2Proof.Machine
end

