-- ==== Sys2Proof/Tests/Slice0.lean ====
section
/-! SUPPORT. Tests, every expected result taken from the spec (the vector numbers are those of spec 95_test_vectors), and
for every obligation with hypotheses a witness that meets them all. -/

namespace Sys2Proof.Tests

open Sys2Proof Sys2Proof.Machine Sys2Proof.Safety

/-! ### The bench -/

/-- Creation arguments of the vectors: CFG_HALF = 5, TICKS_PER_SECOND = 1000, the tick clock at 0. -/
def args (timeout retries : Word) (rdaddr sclrd : Bool) : CreateArgs where
  pins := some { driveSda := true, driveScl := true, readSda := true, readScl := sclrd, delayUs := true }
  time := { now := true, sleepTicks := true }
  half := 5#32
  timeout := timeout
  retries := retries
  rdaddr := rdaddr
  ticksPerSecond := { word := 1000#32, pos := by decide }
  tick := 0#32

/-- A bus just created whose environment answers are listed; ticks pass only in sleeps (the reference time source). -/
def bench (timeout retries : Word) (rdaddr sclrd : Bool) (scl sda : List Level) : State :=
  let s := (args timeout retries rdaddr sclrd).bus
  { s with env := { s.env with sclIn := scl, sdaIn := sda, ticksIn := List.replicate 100 0 } }

/-- The default configuration of the vectors with SCL high at every sample. -/
def high (sda : List Level) : State := bench 4#32 0#32 false true (List.replicate 40 .hi) sda

/-- The default configuration with SCL low at every sample. -/
def stuck : State := bench 4#32 3#32 false true (List.replicate 40 .lo) []

/-- The state a step over one command word leaves. -/
def after (w : Nat) (s : State) : State :=
  match step (s.withFetchWord 32 w) with
  | .next t => t
  | .fault _ => s
  | .refused _ => s

/-- The last answer given. -/
def last (s : State) : Option Answer := s.host.replies.getLast?.map Reply.answer

/-- The same state with the drivers somewhere else. -/
def withLines (sda scl : Drv) (s : State) : State := { s with lines := { sda := sda, scl := scl } }

/-- Caller 1 holds the guard in the middle of START, caller 2's word is in the port, and the next move is its. -/
def busy : State :=
  let s := beginCommand .start { high [] with host := { (high []).host with issuer := 1 } }
  { s with host := { s.host with turns := [.caller], port := [{ caller := 2, word := 0x0000000A#32 }] } }

/-- A free guard with two waiters and the engine to move. -/
def waiting : State :=
  let s := high []
  { s with
    lock := { guard := .free, waiters := [{ caller := 1, command := .start }, { caller := 2, command := .stop }] }
    env := { s.env with grantIn := [1] }
    host := { s.host with turns := [.engine] } }

/-! ### Ill-formed lines of assembler are refused -/

theorem test_wf_xferW_addr : (AsmLine.xferW 0x10000 0).wf = false := by decide
theorem test_wf_xferW_byte : (AsmLine.xferW 0 0x100).wf = false := by decide
theorem test_wf_xferR_addr : (AsmLine.xferR 0x10000 none).wf = false := by decide
theorem test_wf_xferR_init : (AsmLine.xferR 0 (some 0x100)).wf = false := by decide
theorem test_wf_wbit : (AsmLine.wbit 2).wf = false := by decide
theorem test_wf_wbyte : (AsmLine.wbyte 0x100).wf = false := by decide
theorem test_wf_send_addr : (AsmLine.send 0x10000 0 0).wf = false := by decide
theorem test_wf_send_byte : (AsmLine.send 0 0 0x100).wf = false := by decide
theorem test_wf_recv_addr : (AsmLine.recv 0x10000 0).wf = false := by decide
theorem test_wf_create_half : (AsmLine.create 0x100000000 0 none 0 0).wf = false := by decide
theorem test_wf_create_timeout : (AsmLine.create 0 0x100000000 none 0 0).wf = false := by decide
theorem test_wf_create_retries : (AsmLine.create 0 0 (some 0x100000000) 0 0).wf = false := by decide
theorem test_wf_create_rdaddr : (AsmLine.create 0 0 none 2 0).wf = false := by decide
theorem test_wf_create_sclrd : (AsmLine.create 0 0 none 0 2).wf = false := by decide
theorem test_wf_limits :
    (AsmLine.xferW 0xFFFF 0xFF).wf = true ∧ (AsmLine.create 0xFFFFFFFF 0xFFFFFFFF none 1 1).wf = true ∧
      (AsmLine.send 0xFFFF 0x100000000 0xFF).wf = true := by decide

/-! ### Decoding, the words written out from R80 and R86: ADDR, BYTE, RES0, DIR, OP -/

/-- 2.1 -/
theorem test_decode_xferW : decode 0b00000000001000010101101000000001#32 = .ok (.xferW 0x0021#16 0x5A#8) := by decide
/-- 2.3 -/
theorem test_decode_xferR : decode 0b11111111111111111111111100010001#32 = .ok (.xferR 0xFFFF#16 0xFF#8) := by decide
/-- 2.4 -/
theorem test_decode_xferW_high_address : decode 0x00800001#32 = .ok (.xferW 0x0080#16 0x00#8) := by decide
theorem test_decode_sclw : decode 0b00000000000000000000000000001000#32 = .ok .sclw := by decide
theorem test_decode_start : decode 0b00000000000000000000000000001001#32 = .ok .start := by decide
theorem test_decode_stop : decode 0b00000000000000000000000000001010#32 = .ok .stop := by decide
theorem test_decode_fnack : decode 0b00000000000000000000000000001011#32 = .ok .fnack := by decide
theorem test_decode_wbit_zero : decode 0b00000000000000000000000000001100#32 = .ok (.wbit 0#1) := by decide
theorem test_decode_wbit_one : decode 0b00000000000000000000000100001100#32 = .ok (.wbit 1#1) := by decide
theorem test_decode_wbyte : decode 0b00000000000000000100001000001101#32 = .ok (.wbyte 0x42#8) := by decide
theorem test_decode_rbyte : decode 0b00000000000000000000000000001110#32 = .ok .rbyte := by decide
theorem test_table_word : decodeTableWord 32 0x00215A01 = some (.xferW 0x0021#16 0x5A#8) := by decide

/-- 2.14 to 2.16 -/
theorem test_refused_ops :
    [0x0#32, 0x2#32, 0x3#32, 0x4#32, 0x5#32, 0x6#32, 0x7#32, 0xF#32].map decode =
      List.replicate 8 (.refused .reservedOp) := by decide
/-- 2.17, 2.18 -/
theorem test_refused_reserved_bits :
    decode 0x00000021#32 = .refused .reservedBits ∧ decode 0x000000E1#32 = .refused .reservedBits := by decide
/-- 2.19 to 2.25 -/
theorem test_refused_fields :
    [0x00000019#32, 0x00010008#32, 0x0000020C#32, 0x0000001C#32, 0x0001420D#32, 0x0000001D#32, 0x0000010E#32].map
      decode = List.replicate 7 (.refused .nonzeroField) := by decide

/-! ### The assembler -/

theorem test_assemble_xferW : assemble "XFER.W  0x21, 90   ; write".toList = some 0x00215A01#32 := by decide +kernel
theorem test_assemble_recv : assemble "RECV 33, 7".toList = some 0x00210011#32 := by decide +kernel
theorem test_assemble_out_of_range : assemble "WBYTE 256".toList = none := by decide +kernel
/-- The example of R240. -/
theorem test_create_directive :
    (parseLine "CREATE half=5, timeout=0, retries=2, rdaddr=0, sclrd=1".toList).bind
      (fun l => lineCreation l { word := 1000#32, pos := by decide } 0#32) = some (args 0#32 2#32 false true) := by decide +kernel
/-- The choice of log 24: a malformed, unknown or repeated creation argument makes the line assemble to nothing. -/
theorem test_create_bad_argument :
    ["CREATE half=5, timeout=0, rdaddr=0, sclrd=1, retries=".toList,
      "CREATE half=5, timeout=0, rdaddr=0, sclrd=1, depth=2".toList,
      "CREATE half=5, timeout=0, rdaddr=0, sclrd=1, half=6".toList].map parseLine = [none, none, none] := by
  decide +kernel

/-! ### Operands -/

/-- 8.1 to 8.7 -/
theorem test_address_byte :
    addressByte 0x0021#16 0#1 = 0x42#8 ∧ addressByte 0x0021#16 1#1 = 0x43#8 ∧ addressByte 0x007F#16 1#1 = 0xFF#8 ∧
      addressByte 0x0000#16 0#1 = 0x00#8 ∧ addressByte 0x0080#16 0#1 = 0x00#8 ∧
      addressByte 0xFFFF#16 1#1 = 0xFF#8 ∧ addressByte 0x0030#16 0#1 = 0x60#8 := by decide
/-- The table of POLL of section 3. -/
theorem test_poll :
    [1, 2, 3, 4, 5, 1000, 0xFFFFFFFF].map (fun t => (args (BitVec.ofNat 32 t) 0#32 false true).regs.poll) =
      [1, 1, 2, 2, 3, 500, 0x80000000] := by decide
/-- The example of R240. -/
theorem test_create :
    (args 0#32 2#32 false true).regs =
      { cfgHalf := 5#32, cfgTimeout := 1000#32, cfgRetries := 2#32, cfgPolicy := 0#32, cap := 1#32,
        lastError := 0#32 } := by decide
/-- R241: no read-SDA, or read-SCL without a clock, refuses creation. -/
theorem test_create_refused :
    create { args 4#32 0#32 false true with time := { now := false, sleepTicks := true } } =
      .refused .creationRefused ∧
    create { args 4#32 0#32 false true with pins := none } = .refused .creationRefused := ⟨rfl, rfl⟩

/-! ### SCLW -/

/-- 3.4 -/
theorem test_sclw_high_at_third :
    (after 0x8 (bench 4#32 0#32 false true [.lo, .lo, .hi] [])).trace =
      [.acquire 0, .drive .scl .rel, .now 0#32, .sample .scl .lo, .now 0#32, .sleepTicks 2, .sample .scl .lo,
        .now 2#32, .sleepTicks 2, .sample .scl .hi, .delayUs 5#32, .release 0] := by decide +kernel
/-- 3.9, with the tick wrap -/
theorem test_sclw_timeout_wraps :
    let s := after 0x8 { stuck with env := { stuck.env with tick := 0xFFFFFFFF#32 } }
    s.trace =
      [.acquire 0, .drive .scl .rel, .now 0xFFFFFFFF#32, .sample .scl .lo, .now 0xFFFFFFFF#32, .sleepTicks 2,
        .sample .scl .lo, .now 1#32, .sleepTicks 2, .sample .scl .lo, .now 3#32, .release 0] ∧
      last s = some (.result 0x00000001#32) := by decide +kernel

/-! ### START, STOP, FNACK -/

/-- 4.1 -/
theorem test_start :
    (after 0x9 (high [])).trace =
      [.acquire 0, .drive .sda .rel, .drive .scl .rel, .now 0#32, .sample .scl .hi, .delayUs 5#32, .delayUs 5#32,
        .drive .sda .low, .delayUs 5#32, .drive .scl .low, .release 0] := by decide +kernel
/-- 4.3: the timeout is ignored. -/
theorem test_start_timeout :
    last (after 0x9 stuck) = some (.result 0#32) ∧ (after 0x9 stuck).trace.length = 17 ∧
      (after 0x9 stuck).trace.countP isDelay = 2 ∧ (after 0x9 stuck).lines = { sda := .low, scl := .low } := by
  decide +kernel
/-- 4.5 -/
theorem test_stop :
    (after 0xA (withLines .low .low (high []))).trace =
      [.acquire 0, .drive .sda .low, .delayUs 5#32, .drive .scl .rel, .delayUs 5#32, .drive .sda .rel, .delayUs 5#32,
        .release 0] := by decide +kernel
/-- 4.6 -/
theorem test_fnack :
    (after 0xB (withLines .rel .low (high []))).trace =
      [.acquire 0, .delayUs 5#32, .drive .sda .rel, .drive .scl .rel, .delayUs 5#32, .drive .scl .low, .delayUs 5#32,
        .drive .sda .low, .delayUs 5#32, .release 0] := by decide +kernel

/-! ### WBIT, WBYTE, RBYTE -/

/-- 5.1 -/
theorem test_wbit :
    (after 0xC (high [])).trace =
      [.acquire 0, .drive .scl .low, .drive .sda .low, .delayUs 5#32, .drive .scl .rel, .now 0#32, .sample .scl .hi,
        .delayUs 5#32, .release 0] := by decide +kernel
/-- 5.5 -/
theorem test_wbit_timeout :
    last (after 0x10C (bench 1#32 0#32 false true [.lo, .lo] [])) = some (.result 1#32) ∧
      (after 0x10C (bench 1#32 0#32 false true [.lo, .lo] [])).lines = { sda := .rel, scl := .rel } := by decide +kernel
/-- 6.5: 0xA5, and the acknowledge's release of SDA -/
theorem test_wbyte :
    let s := after 0xA50D (high [.lo])
    sdaDrives s.trace = [.rel, .low, .rel, .low, .low, .rel, .low, .rel, .rel] ∧ s.trace.length = 67 ∧
      last s = some (.result 0x00000010#32) ∧ s.lines = { sda := .rel, scl := .low } := by decide +kernel
/-- 6.11: the timeout at the acknowledge pulse -/
theorem test_wbyte_timeout_at_acknowledge :
    let s := after 0x420D (bench 4#32 0#32 false true (List.replicate 8 .hi ++ [.lo, .lo, .lo]) [])
    s.trace.length = 71 ∧ sdaSamples s.trace = [] ∧ last s = some (.result 0x00000001#32) ∧
      s.lines = { sda := .rel, scl := .rel } := by decide +kernel
/-- 7.3: the slave presents 0x5A. -/
theorem test_rbyte :
    let s := after 0xE (withLines .low .low (high [.lo, .hi, .lo, .hi, .hi, .lo, .hi, .lo]))
    last s = some (.result 0x00005A00#32) ∧ s.trace.length = 60 ∧ s.trace.countP isDelay = 17 := by decide +kernel
/-- 7.5: the three bits sampled are discarded. -/
theorem test_rbyte_timeout :
    last (after 0xE (bench 2#32 0#32 false true [.hi, .hi, .hi, .lo, .lo, .lo] [.lo, .hi, .lo])) =
      some (.result 0x00000001#32) := by decide +kernel

/-! ### Transfers -/

/-- 9.4: a NACK, then an acknowledge -/
theorem test_xferW_retry :
    let s := after 0x00215A01 (bench 4#32 2#32 false true (List.replicate 40 .hi) [.hi, .lo, .lo])
    last s = some (.result 0x00005A00#32) ∧ s.trace.length = 227 ∧ s.regs.lastError = 0#32 := by decide +kernel
/-- 9.5: the data byte is not acknowledged -/
theorem test_xferW_io :
    let s := after 0x00215A01 (high [.lo, .hi])
    last s = some (.result 0x00005A03#32) ∧ s.trace.length = 147 ∧ s.regs.lastError = 3#32 := by decide +kernel
/-- 9.6 -/
theorem test_xferR_no_acknowledge :
    let s := after 0x00217711 (bench 4#32 1#32 true true (List.replicate 40 .hi) [.hi, .hi])
    last s = some (.result 0x00007702#32) ∧ s.trace.length = 162 ∧ s.regs.lastError = 2#32 := by decide +kernel
/-- 9.7 -/
theorem test_xferR :
    let s := after 0x00210011 (high [.lo, .hi, .lo, .hi, .hi, .lo, .hi, .lo])
    last s = some (.result 0x00005A00#32) ∧ s.trace.length = 83 ∧ s.work.msgByte = 0x5A#8 := by decide +kernel

/-! ### The machine as a whole -/

/-- The first instruction after reset runs, whatever the open parameters are. -/
theorem test_first_step : ∃ t, step (State.reset.withFetchWord 32 0x9) = .next t := ⟨_, rfl⟩
theorem test_reset_inv : Inv State.reset ↔ RegsOk State.reset.regs := by
  refine ⟨Inv.regs, fun h => ⟨h, Nat.zero_le _, ⟨rfl, rfl⟩, ⟨by simp [State.reset, CreateArgs.bus], ?_⟩⟩⟩
  intro c hc
  cases hc
/-- R194: the word is decoded at once, and its caller waits. -/
theorem test_caller_waits :
    step busy = .next { busy with
      lock := { busy.lock with waiters := [{ caller := 2, command := .stop }] }
      host := { busy.host with turns := [], port := [] } } := rfl
/-- 9.12: whichever caller is granted the guard runs alone. -/
theorem test_second_waiter_granted :
    (match step waiting with | .next t => t.trace | _ => []) = [.acquire 2] := by decide +kernel

/-! ### Witnesses: the hypotheses of every obligation are met together -/

theorem witness_EncodeOfDecodeIsTheWord : decode 0xFFFFFF11#32 = .ok (.xferR 0xFFFF#16 0xFF#8) := by decide
theorem witness_DecoderAgreesWithTheMatchAndMaskTable :
    (⟨0x0000000C#32, 0xFFFFFEFF#32⟩ : TableRow) ∈ opcodeTable ∧
      (⟨0x0000000C#32, 0xFFFFFEFF#32⟩ : TableRow).accepts 0x0000010C#32 = true ∧
      decode 0xFFFFFF01#32 = .ok (.xferW 0xFFFF#16 0xFF#8) ∧ decode 0x00000011#32 = .ok (.xferR 0#16 0#8) ∧
      decode 0x0000010C#32 = .ok (.wbit 1#1) ∧ decode 0x0000FF0D#32 = .ok (.wbyte 0xFF#8) ∧
      decode 0x0000020C#32 = .refused .nonzeroField := by decide
theorem witness_ReservedWords_clauses :
    (0xFFFFFF1F#32).extractLsb' 0 4 ∈ [0x0#4, 0x2#4, 0x3#4, 0x4#4, 0x5#4, 0x6#4, 0x7#4, 0xF#4] ∧
      (0x00000021#32).extractLsb' 5 3 ≠ 0#3 ∧
      ((0x00000018#32).extractLsb' 0 4 ∈ [0x8#4, 0x9#4, 0xA#4, 0xB#4, 0xE#4] ∧
        (0x00000018#32).extractLsb' 4 28 ≠ 0#28) ∧
      ((0x0000020C#32).extractLsb' 0 4 = 0xC#4 ∧ (0x0000020C#32).extractLsb' 9 23 ≠ 0#23) ∧
      ((0x0001000D#32).extractLsb' 0 4 = 0xD#4 ∧ (0x0001000D#32).extractLsb' 16 16 ≠ 0#16) := by decide
/-- A bus with one request in its port. -/
def issued (w : Word) : State := { high [] with host := { (high []).host with port := [{ caller := 7, word := w }] } }
theorem witness_ReservedWords_step :
    (issued 0x0000000F#32).host.created = true ∧ (issued 0x0000000F#32).host.turns = [] ∧
      (issued 0x0000000F#32).lock.guard = .free ∧ (issued 0x0000000F#32).lock.waiters = [] ∧
      (issued 0x0000000F#32).host.port = [{ caller := 7, word := 0x0000000F#32 }] ∧
      decode 0x0000000F#32 = .refused .reservedOp := by decide
theorem witness_StepRunsTheDecodedCommand :
    (issued 0x00215A01#32).host.created = true ∧ (issued 0x00215A01#32).host.turns = [] ∧
      (issued 0x00215A01#32).lock.guard = .free ∧ (issued 0x00215A01#32).lock.waiters = [] ∧
      (issued 0x00215A01#32).host.port = [{ caller := 7, word := 0x00215A01#32 }] ∧
      decode 0x00215A01#32 = .ok (.xferW 0x0021#16 0x5A#8) := by decide
/-- The bench of CFG_TIMEOUT = 1. -/
def brief : State := bench 1#32 0#32 false true [.lo, .lo, .lo] []
theorem witness_SclwIsBounded :
    stuck.regs.sclReadable = true ∧ stuck.regs.cfgTimeout ≠ 0#32 ∧ stuck.trace = [] ∧
      ((sclw stuck).2.trace.countP isNow = 4) ∧ brief.regs.cfgTimeout = 1#32 ∧
      brief.regs.sclReadable = true ∧ brief.trace = [] := by decide +kernel
theorem witness_SclwLeavesTheLinesAsStated :
    (sclw (high [])).1 = .ok () ∧ (high []).regs.sclReadable = true ∧ (high []).trace = [] ∧
      (sclw (bench 4#32 0#32 false false [] [])).1 = .ok () ∧
      (bench 4#32 0#32 false false [] []).regs.sclReadable = false := by decide +kernel
theorem witness_ReferenceWaitTakesTwoPolls :
    (stuck.regs.sclReadable = true ∧ stuck.regs.cfgTimeout ≠ 0#32 ∧ 2 * stuck.regs.poll < 2 ^ 32 ∧
      stuck.env.ticksIn = 0 :: 0 :: 0 :: 0 :: List.replicate 96 0 ∧
      stuck.env.sclIn = .lo :: .lo :: .lo :: List.replicate 37 .lo ∧ stuck.trace = [] ∧
      stuck.regs.cfgTimeout ≠ 1#32) ∧
    (brief.regs.sclReadable = true ∧ brief.regs.cfgTimeout ≠ 0#32 ∧ 2 * brief.regs.poll < 2 ^ 32 ∧
      brief.env.ticksIn = 0 :: 0 :: 0 :: 0 :: List.replicate 96 0 ∧ brief.env.sclIn = .lo :: .lo :: .lo :: [] ∧
      brief.trace = [] ∧ brief.regs.cfgTimeout = 1#32) := by decide +kernel
/-- The hypothesis of every command's completion: SclwCommand, StartCommand, StopCommand, FnackCommand, WbitCommand,
WbyteCommand, RbyteCommand, XferWCommand, XferRCommand, EveryTransferEndsWithTheFinalStop. SclwCommand's and XferRCommand's
inner clauses are met with either capability and either policy. -/
theorem witness_commands :
    stuck.lock.guard = .free ∧ stuck.regs.sclReadable = true ∧ stuck.regs.readAddressPhase = false ∧
      (bench 4#32 0#32 true false [] []).lock.guard = .free ∧
      (bench 4#32 0#32 true false [] []).regs.sclReadable = false ∧
      (bench 4#32 0#32 true false [] []).regs.readAddressPhase = true := by decide
/-- Both results of WBYTE, and a timeout at the third bit that leaves BIT 5. -/
theorem witness_WbyteCommand_clauses :
    (wbyte 0x42#8 (high [.lo])).1 = .ok true ∧ (wbyte 0x42#8 stuck).1 = .err .timeout ∧
      (let u := wbyte 0x42#8 (bench 2#32 0#32 false true [.hi, .hi, .lo, .lo, .lo] [])
       u.1 = .err .timeout ∧ u.2.work.bit.val = 5 ∧ sdaDrives u.2.trace = [.low, .rel, .low]) := by decide +kernel
/-- Both results of RBYTE, and a timeout at the fourth bit (vector 7.5) that leaves the three bits sampled in SHIFT. -/
theorem witness_RbyteCommand_clauses :
    (rbyte (high (List.replicate 8 .hi))).1 = .ok 0xFF#8 ∧ (rbyte stuck).1 = .err .timeout ∧
      (let u := rbyte (bench 2#32 0#32 false true [.hi, .hi, .hi, .lo, .lo, .lo] [.lo, .hi, .lo])
       u.1 = .err .timeout ∧ u.2.work.shift = 2#8 ∧ u.2.work.bit.val = 4) := by decide +kernel
theorem witness_StartThenStopMakesTwoSdaTransitions :
    (high []).lock.guard = .free ∧ (high []).lines = { sda := .rel, scl := .rel } ∧
      (high []).regs.sclReadable = true ∧ (high []).env.sclIn = .hi :: List.replicate 39 .hi := by decide +kernel
theorem witness_PromptWbyteSendsEveryBit :
    (high [.lo]).lock.guard = .free ∧ (high [.lo]).env.sclIn = List.replicate 9 .hi ++ List.replicate 31 .hi ∧
      (high [.lo]).env.sdaIn = .lo :: [] := by decide +kernel
theorem witness_PromptRbyteAssemblesTheByte :
    let bits : List Level := [.lo, .hi, .lo, .hi, .hi, .lo, .hi, .lo]
    (high bits).lock.guard = .free ∧ (high bits).env.sclIn = List.replicate 8 .hi ++ List.replicate 32 .hi ∧
      bits.length = 8 ∧ (high bits).env.sdaIn = bits ++ [] := by decide +kernel
/-- The events between the Acquire and the Release of a command run whole on a fresh bench. -/
def inner (t : State) : List Event := (t.trace.drop 1).dropLast
/-- A bench whose SDA answers replay the data clocks of WBYTE 0x5A. -/
def replay : State := high (((sdaDrives (inner (runWbyte 0x5A#8 (high [.lo])))).take 8).map levelOf)
/-- RBYTE on that bench. -/
def replayed : State := runRbyte replay
theorem witness_LoopBackReturnsTheByte :
    (high [.lo]).lock.guard = .free ∧ exec (.wbyte 0x5A#8) (high [.lo]) = .next (runWbyte 0x5A#8 (high [.lo])) ∧
      (runWbyte 0x5A#8 (high [.lo])).trace = [.acquire 0] ++ inner (runWbyte 0x5A#8 (high [.lo])) ++ [.release 0] ∧
      replay.lock.guard = .free ∧ exec .rbyte replay = .next replayed ∧
      replayed.trace = [.acquire 0] ++ inner replayed ++ [.release 0] ∧ (sdaSamples (inner replayed)).length = 8 ∧
      sdaSamples (inner replayed) = ((sdaDrives (inner (runWbyte 0x5A#8 (high [.lo])))).take 8).map levelOf :=
  ⟨rfl, exec_free (.wbyte 0x5A#8) rfl, by decide +kernel, rfl, exec_free .rbyte rfl, by decide +kernel,
    by decide +kernel, by decide +kernel⟩
theorem witness_HalfBitDelaysPerPrimitive :
    (high []).trace = [] ∧ (sclw (high [])).1 = .ok () ∧ (wbit false (high [])).1 = .ok () ∧ (wbyte 0x42#8 (high [.lo])).1 = .ok true ∧
      (rbyte (high (List.replicate 8 .lo))).1 = .ok 0x00#8 := by decide +kernel
/-- A write whose data byte is not acknowledged. -/
def notAccepted : State := transfer 0x21#16 0#1 0x5A#8 (high [.lo, .hi])
/-- A write on a bus whose clock is held low. -/
def timedOutWrite : State := transfer 0x21#16 0#1 0x5A#8 stuck
/-- What follows a transfer or a micro-op that ran: ResultCodesPerCommand, MessageByteChangesOnlyBySuccessfulReads,
LastErrorIsTheLastTransfersCode, NoStepWritesTheConfiguration. -/
theorem witness_exec_answers :
    (high [.lo, .hi]).lock.guard = .free ∧ exec (.xferW 0x21#16 0x5A#8) (high [.lo, .hi]) = .next notAccepted ∧
      notAccepted.host = answeredPort (high [.lo, .hi]).host (.result 0x00005A03#32) ∧
      step ((high [.lo, .hi]).withFetchWord 32 0x00215A01) = .next notAccepted :=
  ⟨rfl, exec_free (.xferW 0x21#16 0x5A#8) rfl, by decide +kernel, rfl⟩
theorem witness_read_fails :
    exec (.xferR 0x21#16 0x33#8) stuck = .next (transfer 0x21#16 1#1 0x33#8 stuck) ∧
      (transfer 0x21#16 1#1 0x33#8 stuck).host = answeredPort stuck.host (.result 0x00003301#32) :=
  ⟨rfl, by decide +kernel⟩
/-- A transfer in the middle of its last lines. -/
def ending : State :=
  let s := high []
  { s with
    seq := { phase := .stopped, pos := [.setLastError, .setPhase .idle, .endTransfer] }
    lock := { guard := .held 0, waiters := [] }
    work := { s.work with err := some .io }
    trace := [.acquire 0] }
theorem ending_inv : Inv ending :=
  ⟨⟨by decide, by decide, by decide, by decide⟩, by decide, ⟨rfl, by decide⟩, ⟨by decide, by simp [ending]⟩⟩
theorem witness_LastErrorIsWrittenOnlyAtTheEnd :
    Inv ending ∧ ending.lock.guard = .held 0 ∧ (tick ending).regs ≠ ending.regs := ⟨ending_inv, rfl, by decide⟩
theorem witness_StepKeepsTheInvariant : Inv ending ∧ ∃ t, step ending = .next t := ⟨ending_inv, _, rfl⟩
theorem witness_PhaseMovesAlongTheTable : Inv ending ∧ ending.lock.guard = .held 0 := ⟨ending_inv, rfl⟩
theorem witness_CommandsNeverInterleave : TraceOk ending ∧ ∃ t, step ending = .next t :=
  ⟨⟨by decide, fun c h => by cases h; rfl⟩, _, rfl⟩
theorem witness_OneEventAtATime : ending.lock.guard = .held 0 ∧ ∃ t, step ending = .next t := ⟨rfl, _, rfl⟩
theorem witness_AddressNeverAcknowledged :
    let s := bench 4#32 2#32 false true (List.replicate 40 .hi) [.hi, .hi, .hi]
    s.lock.guard = .free ∧ s.regs.addressed 0#1 = true ∧
      s.env.sclIn = List.replicate (10 * (s.regs.cfgRetries.toNat + 1)) .hi ++ List.replicate 10 .hi ∧
      s.env.sdaIn = List.replicate (s.regs.cfgRetries.toNat + 1) .hi ++ [] := by decide +kernel
theorem witness_WriteAcknowledgedAtAttempt :
    let s := bench 4#32 2#32 false true (List.replicate 40 .hi) [.hi, .hi, .lo, .lo]
    s.lock.guard = .free ∧ 2 ≤ s.regs.cfgRetries.toNat ∧
      s.env.sclIn = List.replicate (10 * 2 + 19) .hi ++ [.hi] ∧
      s.env.sdaIn = List.replicate 2 .hi ++ (.lo :: .lo :: []) := by decide +kernel
theorem witness_ReadPaths :
    let bits : List Level := [.lo, .hi, .lo, .hi, .hi, .lo, .hi, .lo]
    let s := high bits
    let u := bench 4#32 1#32 true true (List.replicate 40 .hi) (.hi :: .lo :: bits)
    (s.lock.guard = .free ∧ bits.length = 8 ∧ s.regs.readAddressPhase = false ∧
      s.env.sclIn = List.replicate 9 .hi ++ List.replicate 31 .hi ∧ s.env.sdaIn = bits ++ []) ∧
    (u.lock.guard = .free ∧ u.regs.readAddressPhase = true ∧ 1 ≤ u.regs.cfgRetries.toNat ∧
      u.env.sclIn = List.replicate (10 * 1 + 18) .hi ++ List.replicate 12 .hi ∧
      u.env.sdaIn = List.replicate 1 .hi ++ (.lo :: (bits ++ []))) := by decide +kernel
theorem witness_ClockHeldLowTimesOut :
    stuck.lock.guard = .free ∧ stuck.regs.sclReadable = true ∧ stuck.regs.cfgTimeout ≠ 0#32 ∧
      exec (transferCommand 0#1 0x21#16 0x5A#8) stuck = .next timedOutWrite ∧
      timedOutWrite.trace = [.acquire 0] ++ inner timedOutWrite ++ [.release 0] ∧
      Event.sample .scl .hi ∉ inner timedOutWrite :=
  ⟨rfl, rfl, by decide, exec_free (.xferW 0x21#16 0x5A#8) rfl, by decide +kernel, by decide +kernel⟩
theorem witness_WriteOutcomeIsReadOffTheAcknowledges :
    (high [.lo, .hi]).lock.guard = .free ∧ exec (.xferW 0x21#16 0x5A#8) (high [.lo, .hi]) = .next notAccepted ∧
      notAccepted.trace = [.acquire 0] ++ inner notAccepted ++ [.release 0] :=
  ⟨rfl, exec_free (.xferW 0x21#16 0x5A#8) rfl, by decide +kernel⟩
/-- Each of the four outcomes is reached. -/
theorem witness_write_outcomes :
    (transfer 0x21#16 0#1 0x5A#8 (high [.lo, .lo])).work.err = none ∧
      (transfer 0x21#16 0#1 0x5A#8 (high [.lo, .hi])).work.err = some .io ∧
      (transfer 0x21#16 0#1 0x5A#8 (high [.hi])).work.err = some .noAcknowledge ∧
      (transfer 0x21#16 0#1 0x5A#8 stuck).work.err = some .timeout := by decide +kernel
theorem witness_StartAndStopBracketEveryTransfer :
    (high [.lo, .hi]).lock.guard = .free ∧ (high [.lo, .hi]).lines = { sda := .rel, scl := .rel } ∧
      exec (transferCommand 0#1 0x21#16 0x5A#8) (high [.lo, .hi]) = .next notAccepted ∧
      notAccepted.trace = [.acquire 0] ++ inner notAccepted ++ [.release 0] :=
  ⟨rfl, rfl, exec_free (.xferW 0x21#16 0x5A#8) rfl, by decide +kernel⟩
/-- A write that times out with SDA released: R137's exception. -/
def timedOutReleased : State := transfer 0x7F#16 0#1 0x5A#8 stuck
theorem witness_StartAndStopBracketEveryTransfer_timeout :
    stuck.lock.guard = .free ∧ stuck.lines = { sda := .rel, scl := .rel } ∧
      exec (transferCommand 0#1 0x7F#16 0x5A#8) stuck = .next timedOutReleased ∧
      timedOutReleased.trace = [.acquire 0] ++ inner timedOutReleased ++ [.release 0] ∧
      timedOutReleased.work.err = some .timeout ∧
      sdaEdges stuck.lines (inner timedOutReleased) = [(.low, .rel), (.rel, .low), (.low, .rel), (.rel, .rel)] :=
  ⟨rfl, rfl, exec_free (.xferW 0x7F#16 0x5A#8) rfl, by decide +kernel, by decide +kernel, by decide +kernel⟩
theorem witness_HighAddressBitsHaveNoEffect :
    (high [.lo, .hi]).lock.guard = .free ∧ (0x0021#16).extractLsb' 0 7 = (0xFFA1#16).extractLsb' 0 7 ∧
      exec (transferCommand 0#1 0x0021#16 0x5A#8) (high [.lo, .hi]) = .next notAccepted := ⟨rfl, by decide, rfl⟩
theorem witness_UnaddressedReadIgnoresTheAddress :
    stuck.lock.guard = .free ∧ stuck.regs.readAddressPhase = false ∧
      exec (.xferR 0x0021#16 0x00#8) stuck = .next (transfer 0x0021#16 1#1 0x00#8 stuck) := ⟨rfl, rfl, rfl⟩
theorem witness_EventAndSleepBounds :
    stuck.lock.guard = .free ∧ stuck.regs.cfgTimeout ≠ 0#32 ∧
      (bench 4#32 0#32 false false [] []).regs.sclReadable = false := by decide
theorem witness_SamplesOnlyReleasedLines :
    (high [.lo]).lock.guard = .free ∧ (high [.lo]).trace = [] ∧
      exec (.wbyte 0x42#8) (high [.lo]) = .next (runWbyte 0x42#8 (high [.lo])) := ⟨rfl, rfl, rfl⟩
/-- A bench without read-back of SCL. -/
def blind : State := bench 4#32 0#32 false false [] [.lo]
theorem witness_WithoutReadbackNothingIsWaitedFor :
    blind.lock.guard = .free ∧ blind.regs.sclReadable = false ∧
      exec (.wbyte 0x42#8) blind = .next (runWbyte 0x42#8 blind) ∧ blind.trace = [] ∧
      (runWbyte 0x42#8 blind).host = answeredPort blind.host (.result 0x00000010#32) :=
  ⟨rfl, rfl, rfl, rfl, by decide +kernel⟩
theorem witness_LinesRunToTheMeaning :
    (high []).lock.guard = .free ∧ (high []).seq.pos = [] ∧ exec .stop (high []) = .next (runStop (high [])) :=
  ⟨rfl, rfl, rfl⟩
theorem witness_IdleEngineEmitsNothing :
    (high []).lock.guard = .free ∧ (high []).lock.waiters = [] ∧ (high []).host.port = [] := by decide
/-- `busy` with another request in the port. -/
def busyWith (r : Request) : State := { busy with host := { busy.host with port := [r] } }
/-- The premises of the first clause, and of the second for a word that decodes. -/
theorem witness_CommandsWaitWhileTheGuardIsHeld :
    (let s := { busy with host := { busy.host with issuer := 2 } }
     s.lock.guard = .held 1 ∧ s.host.issuer ≠ 1) ∧
    busy.host.created = true ∧ busy.host.turns = .caller :: [] ∧
      busy.host.port = [{ caller := 2, word := 0x0000000A#32 }] ∧ busy.lock.guard = .held 1 ∧ 2 ≠ 1 ∧
      (∀ w ∈ busy.lock.waiters, w.caller ≠ 2) ∧ decode 0x0000000A#32 = .ok .stop := by decide +kernel
/-- The premises for a word that is refused, all of one state. -/
theorem witness_CommandsWait_refused :
    let s := busyWith { caller := 2, word := 0x00000000#32 }
    s.host.created = true ∧ s.host.turns = .caller :: [] ∧ s.host.port = [{ caller := 2, word := 0x00000000#32 }] ∧
      s.lock.guard = .held 1 ∧ 2 ≠ 1 ∧ (∀ w ∈ s.lock.waiters, w.caller ≠ 2) ∧
      decode 0x00000000#32 = .refused .reservedOp := by decide +kernel
/-- The premises for a caller that holds the guard, and for one that already waits. -/
theorem witness_CommandsWait_blocked :
    (let s := busyWith { caller := 1, word := 0x0000000A#32 }
     s.host.created = true ∧ s.host.turns = .caller :: [] ∧ s.host.port = [{ caller := 1, word := 0x0000000A#32 }] ∧
      s.lock.guard = .held 1) ∧
    (let s := { busy with lock := { busy.lock with waiters := [{ caller := 2, command := .stop }] } }
     s.host.created = true ∧ s.host.turns = .caller :: [] ∧ s.host.port = [{ caller := 2, word := 0x0000000A#32 }] ∧
      s.lock.guard = .held 1 ∧ ∃ w ∈ s.lock.waiters, w.caller = 2) := by decide +kernel
theorem witness_AnyWaiterMayBeGranted :
    waiting.host.created = true ∧ waiting.host.turns = .engine :: [] ∧ waiting.lock.guard = .free ∧
      waiting.lock.waiters[1]? = some { caller := 2, command := .stop } ∧ waiting.env.grantIn = 1 :: [] := by decide
theorem witness_BusesAreIndependent :
    stepAt 0 [high [], stuck] = .next [high [], stuck] ∧ (1 : Nat) ≠ 0 := ⟨rfl, by decide⟩
theorem witness_CreationLeavesTheStatedValues :
    (args 0#32 2#32 false true).ok = true ∧ (args 4#32 0#32 true false).ok = true := by decide
theorem witness_CreationIsRefusedWithoutItsPorts :
    create { args 4#32 0#32 false true with pins := none } = .refused .creationRefused ∧
      create (args 4#32 0#32 false true) = .next (args 4#32 0#32 false true).bus := ⟨rfl, rfl⟩
theorem witness_HostReadsTheNumberedRegisters : (5 < 6) ∧ hostRead 6 (high []) = none := ⟨by decide, rfl⟩
theorem witness_CommandToNoBusIsRefused :
    let s := { State.uncreated with host := { State.uncreated.host with
      port := [{ caller := 0, word := 0x00000009#32 }] } }
    s.host.created = false ∧ s.host.port = [{ caller := 0, word := 0x00000009#32 }] := ⟨rfl, rfl⟩

end Sys2Proof.Tests
end

section
/-! A step of an idle machine: what it takes off the port and runs. -/

namespace Sys2Proof.Proofs.Scope

open Sys2Proof Sys2Proof.Machine

/-- On a bus that exists, with no schedule and the guard free, a step takes the next command and runs it whole. -/
theorem step_eq_stepWhole {s : State} (hcreated : s.host.created = true) (hturns : s.host.turns = [])
    (hguard : s.lock.guard = .free) : step s = stepWhole s := by
  simp only [step, stepBus, hcreated, hturns, hguard, if_true]

/-- With no waiter, a first word of the port that decodes is the next command, for the caller that issued it (R23). -/
theorem fetch_eq_command_of_decode {s : State} {r : Request} {rest : List Request} {i : Instr}
    (hwaiters : s.lock.waiters = []) (hport : s.host.port = r :: rest) (hdecode : decode r.word = .ok i) :
    fetch s = .command i { s with host := { s.host with port := rest, issuer := r.caller } } := by
  simp only [fetch, hwaiters, hport, hdecode]

/-- What is fetched as a command is executed. -/
theorem stepWhole_eq_exec {s t : State} {i : Instr} (hfetch : fetch s = .command i t) :
    stepWhole s = exec i t := by
  simp only [stepWhole, hfetch]

/-- Settles O7: an idle step is a fetch, and the fetch yields the decoded command of the port's first word. -/
theorem stepRunsTheDecodedCommand : Obligations.StepRunsTheDecodedCommand := by
  intro s r rest i hcreated hturns hguard hwaiters hport hdecode
  calc step s = stepWhole s := step_eq_stepWhole hcreated hturns hguard
    _ = exec i { s with host := { s.host with port := rest, issuer := r.caller } } :=
        stepWhole_eq_exec (fetch_eq_command_of_decode hwaiters hport hdecode)

end Sys2Proof.Proofs.Scope
end

section
/-! The numbered registers: what the host reads of them (R30, R51) and what writes them (R31, R33). -/

namespace Sys2Proof.Proofs.Registers

open Sys2Proof Sys2Proof.Machine Sys2Proof.Safety

/-! ### Reserved bits -/

/-- A register of one bit reads as that bit. -/
theorem and_one_eq_ite (w : Word) : w &&& 1#32 = if w.getLsbD 0 then 1#32 else 0#32 := by
  rw [BitVec.and_one_eq_setWidth_ofBool_getLsbD]
  cases w.getLsbD 0 <;> rfl

/-- A register of two bits reads as those two bits. -/
theorem and_three_eq_setWidth (w : Word) : w &&& 3#32 = (w.extractLsb' 0 2).setWidth 32 := by
  apply BitVec.eq_of_toNat_eq
  have hlow : w.toNat &&& 3 = w.toNat % 4 := Nat.and_two_pow_sub_one_eq_mod _ 2
  simp [hlow]
  omega

theorem bitReg_reserved (b : Bool) : bitReg b &&& 0xFFFFFFFE#32 = 0#32 := by
  cases b <;> rfl

theorem lastErrorWord_reserved (e : Option Err) : lastErrorWord e &&& 0xFFFFFFFC#32 = 0#32 := by
  rcases e with _ | _ | _ | _ <;> rfl

/-- The host reads in LAST_ERROR the CODE of the result word that reports the same error (R33, R96). -/
theorem lastErrorWord_read (e : Option Err) (m : Byte) :
    lastErrorWord e &&& 3#32 = (resCode (resWord (errCode e) false m)).setWidth 32 := by
  have hcode : resCode (resWord (errCode e) false m) = errCode e := BitVec.extractLsb'_append_eq_right
  rw [hcode]
  rcases e with _ | _ | _ | _ <;> rfl

theorem hostRead_congr {s t : State} (h : t.regs = s.regs) (n : Nat) : hostRead n t = hostRead n s := by
  simp only [hostRead, h]

theorem hostRead_beyond (n : Nat) (s : State) : hostRead (n + 6) s = none := rfl

/-- Settles O59: each of the six registers is read through the mask of its defined bits. -/
theorem hostReadsTheNumberedRegisters : Obligations.HostReadsTheNumberedRegisters := by
  intro s
  refine ⟨rfl, rfl, rfl, congrArg some (and_one_eq_ite _), congrArg some (and_one_eq_ite _),
    congrArg some (and_three_eq_setWidth _), fun n hn => ?_⟩
  obtain ⟨k, rfl⟩ : ∃ k, n = k + 6 := ⟨n - 6, by omega⟩
  exact hostRead_beyond k s

/-! ### What a whole command leaves -/

/-- The commands that are transfers, and not micro-ops (R103). -/
def isTransfer : Instr → Bool
  | .xferW _ _ => true
  | .xferR _ _ => true
  | _ => false

/-- A micro-op whose primitive ran from the acquired state to `u`, and left ATTEMPT there (R227). -/
theorem microRan_release {s u : State} {es : List Event} (w : Word) (hfree : s.lock.guard = .free)
    (h : Ran (acquire s) u es) (hattempt : u.work.attempt = s.work.attempt) :
    (∃ fs res, MicroRan s (release w u) fs res) ∧ (release w u).work.attempt = s.work.attempt := by
  obtain ⟨htrace, hregs, hseq, hlock, -, -, hhost⟩ := micro_release w h
  exact ⟨⟨es, w, htrace, hregs, hseq, by rw [hlock, ← hfree], hhost⟩, hattempt⟩

/-- Every micro-op has the frame of R227, and leaves ATTEMPT. -/
theorem runCommand_microRan {i : Instr} (hi : isTransfer i = false) {s : State} (hfree : s.lock.guard = .free) :
    (∃ es res, MicroRan s (runCommand i s) es res) ∧ (runCommand i s).work.attempt = s.work.attempt := by
  cases i with
  | xferW addr byte => cases hi
  | xferR addr init => cases hi
  | sclw =>
    obtain ⟨es, hran, -, -, hwork⟩ := sclw_spec (acquire s)
    exact microRan_release _ hfree hran (by rw [hwork]; rfl)
  | start =>
    obtain ⟨es, _, -, hran, -, hwork⟩ := start_spec (acquire s)
    exact microRan_release _ hfree hran (by rw [hwork]; rfl)
  | stop =>
    obtain ⟨hran, -, hwork, -⟩ := stop_spec (acquire s)
    exact microRan_release _ hfree hran (by rw [hwork]; rfl)
  | fnack =>
    obtain ⟨hran, -, hwork, -⟩ := fnack_spec (acquire s)
    exact microRan_release _ hfree hran (by rw [hwork]; rfl)
  | wbit b =>
    obtain ⟨es, -, hran, -, hwork⟩ := wbit_spec (b.getLsbD 0) (acquire s)
    exact microRan_release _ hfree hran (by rw [hwork]; rfl)
  | wbyte v =>
    obtain ⟨es, _, -, hran, hwork, -⟩ := wbyte_spec v (acquire s)
    exact microRan_release _ hfree hran (by rw [hwork]; rfl)
  | rbyte =>
    obtain ⟨_, es, _, _, -, hran, -, hwork, -⟩ := rbyte_spec (acquire s)
    exact microRan_release _ hfree hran (by rw [hwork]; rfl)

/-- A transfer counts at most the retries it is allowed (R37). -/
theorem transferRun_retries_le {r : NumRegs} {addr : BitVec 16} {dir : BitVec 1} {byte m : Byte} {es : List Event}
    {k : Nat} {e : Option Err} (h : TransferRun r addr dir byte es (some k) e m) : k ≤ r.cfgRetries.toNat := by
  cases h with
  | addressed _ _ hrun _ => exact hrun.retries_le
  | addressFailed _ _ hrun => exact hrun.retries_le

/-- Every transfer has the frame of R178 and R185, and leaves ATTEMPT within CFG_RETRIES if it was so before. -/
theorem transfer_transferRan (addr : BitVec 16) (dir : BitVec 1) (byte : Byte) {s : State}
    (hfree : s.lock.guard = .free) :
    (∃ es e m, TransferRan s (transfer addr dir byte s) es e m) ∧
      (s.work.attempt.toNat ≤ s.regs.cfgRetries.toNat →
        (transfer addr dir byte s).work.attempt.toNat ≤ s.regs.cfgRetries.toNat) := by
  obtain ⟨es, k, e, m, hrun, htrace, hregs, ⟨b, hwork, -⟩, hlines, hseq, hlock, hhost⟩ :=
    transfer_spec addr dir byte s
  refine ⟨⟨es, e, m, htrace, hregs, by rw [hwork], by rw [hwork], hlines, hseq, by rw [hlock, ← hfree], hhost⟩,
    fun hle => ?_⟩
  rw [hwork]
  cases k with
  | none => exact hle
  | some k =>
    exact (BitVec.toNat_ofNat k 32 ▸ Nat.mod_le _ _).trans (transferRun_retries_le hrun)

theorem runCommand_transferRan {i : Instr} (hi : isTransfer i = true) {s : State} (hfree : s.lock.guard = .free) :
    (∃ es e m, TransferRan s (runCommand i s) es e m) ∧
      (s.work.attempt.toNat ≤ s.regs.cfgRetries.toNat →
        (runCommand i s).work.attempt.toNat ≤ s.regs.cfgRetries.toNat) := by
  cases i with
  | xferW addr byte => exact transfer_transferRan addr 0#1 byte hfree
  | xferR addr init => exact transfer_transferRan addr 1#1 init hfree
  | _ => cases hi

/-- After a transfer a host read of LAST_ERROR is the CODE of the result word. -/
theorem hostRead_lastError_of_transferRan {s t : State} {es : List Event} {e : Option Err} {m : Byte}
    (h : TransferRan s t es e m) :
    ∃ res, t.host = answeredPort s.host (.result res) ∧ hostRead 5 t = some ((resCode res).setWidth 32) := by
  refine ⟨_, h.host, ?_⟩
  simp only [hostRead, h.regs, lastErrorWord_read e m]

/-- Settles O31, from the frame of a transfer and the frame of a micro-op. -/
theorem lastErrorIsTheLastTransfersCode : Obligations.LastErrorIsTheLastTransfersCode := by
  intro i s t hfree hexec
  obtain rfl : runCommand i s = t := by
    rw [exec_free i hfree] at hexec
    exact Host.Outcome.next.inj hexec
  have htransfer (hi : isTransfer i = true) : ∃ res, (runCommand i s).host = answeredPort s.host (.result res) ∧
      hostRead 5 (runCommand i s) = some ((resCode res).setWidth 32) := by
    obtain ⟨⟨es, e, m, hran⟩, -⟩ := runCommand_transferRan hi hfree
    exact hostRead_lastError_of_transferRan hran
  have hmicro (hi : isTransfer i = false) :
      (runCommand i s).regs = s.regs ∧ hostRead 5 (runCommand i s) = hostRead 5 s := by
    obtain ⟨⟨es, res, hran⟩, -⟩ := runCommand_microRan hi hfree
    exact ⟨hran.regs, hostRead_congr hran.regs 5⟩
  cases i with
  | xferW | xferR => exact htransfer rfl
  | sclw | start | stop | fnack | wbit | wbyte | rbyte => exact hmicro rfl

/-! ### What a step writes -/

/-- Of the numbered registers at most LAST_ERROR was written, and with the code of an error or of none (R31, R33). -/
def OnlyLastError (r r' : NumRegs) : Prop := r' = r ∨ ∃ e, r' = { r with lastError := lastErrorWord e }

theorem onlyLastError_runCommand (i : Instr) {s : State} (hfree : s.lock.guard = .free) :
    OnlyLastError s.regs (runCommand i s).regs := by
  cases hi : isTransfer i with
  | true =>
    obtain ⟨⟨es, e, m, hran⟩, -⟩ := runCommand_transferRan hi hfree
    exact .inr ⟨e, hran.regs⟩
  | false =>
    obtain ⟨⟨es, res, hran⟩, -⟩ := runCommand_microRan hi hfree
    exact .inl hran.regs

/-- A whole command, granted or made to wait. -/
theorem onlyLastError_exec {i : Instr} {s t : State} (h : exec i s = .next t) : OnlyLastError s.regs t.regs := by
  cases hguard : s.lock.guard with
  | free =>
    rw [exec_free i hguard] at h
    obtain rfl := Host.Outcome.next.inj h
    exact onlyLastError_runCommand i hguard
  | held c =>
    rw [exec_held i hguard] at h
    obtain rfl := Host.Outcome.next.inj h
    exact .inl rfl

theorem onlyLastError_runLine (m : Micro) (rest : List Micro) (s : State) :
    OnlyLastError s.regs (runLine m rest s).regs :=
  (runLine_ran m rest s).regs.imp_right fun h => ⟨s.work.err, h⟩

theorem callerMove_regs (s : State) : (callerMove s).regs = s.regs := by
  rcases callerMove_cases s with h | ⟨r, rest, -, -, ⟨why, -, h⟩ | ⟨i, -, h⟩⟩ <;> rw [h]

theorem onlyLastError_engineMove {s t : State} (h : engineMove s = .next t) : OnlyLastError s.regs t.regs := by
  rcases engineMove_cases h with ⟨c, m, rest, -, -, rfl⟩ | ⟨-, -, rfl⟩ | ⟨w, ws, -, -, rfl⟩
  · exact onlyLastError_runLine m rest s
  · exact .inl rfl
  · exact .inl rfl

theorem fetch_command_regs {i : Instr} {s u : State} (h : fetch s = .command i u) : u.regs = s.regs := by
  rcases fetch_cases s with
    ⟨-, -, hf⟩ | ⟨w, ws, -, hf⟩ | ⟨r, rest, -, -, ⟨why, -, hf⟩ | ⟨j, -, hf⟩⟩ <;> cases hf.symm.trans h <;> rfl

theorem fetch_refused_regs {s u : State} (h : fetch s = .refused u) : u.regs = s.regs := by
  rcases fetch_cases s with
    ⟨-, -, hf⟩ | ⟨w, ws, -, hf⟩ | ⟨r, rest, -, -, ⟨why, -, hf⟩ | ⟨j, -, hf⟩⟩ <;> cases hf.symm.trans h
  rfl

/-- Of the numbered registers a step writes at most LAST_ERROR. -/
theorem onlyLastError_step {s t : State} (h : step s = .next t) : OnlyLastError s.regs t.regs := by
  rcases step_cases h with ⟨-, -, rfl⟩ | ⟨ts, -, rfl⟩ | ⟨ts, -, hmove⟩ | ⟨c, -, -, hmove⟩ | ⟨-, -, -, rfl⟩ |
    ⟨-, -, hfetch⟩ | ⟨i, u, -, -, hfetch, hexec⟩
  · exact .inl rfl
  · exact .inl (callerMove_regs _)
  · exact (onlyLastError_engineMove hmove :)
  · exact onlyLastError_engineMove hmove
  · exact .inl rfl
  · exact .inl (fetch_refused_regs hfetch)
  · exact fetch_command_regs hfetch ▸ onlyLastError_exec hexec

/-- Settles O48: what a step can write of the numbered registers is LAST_ERROR alone. -/
theorem noStepWritesTheConfiguration : Obligations.NoStepWritesTheConfiguration := by
  intro s t h
  rcases onlyLastError_step h with hregs | ⟨e, hregs⟩ <;> rw [hregs] <;> exact ⟨rfl, rfl, rfl, rfl, rfl⟩

end Sys2Proof.Proofs.Registers
end

section
/-! The lines of the pseudocode (R45): which of them only do work on the datapath, and where a `Timeout` of theirs goes. -/

namespace Sys2Proof.Proofs.Lines

open Sys2Proof Sys2Proof.Machine Sys2Proof.Safety

/-! ### Lines of a primitive -/

/-- The lines the primitives SCLW, WBIT, WBYTE and RBYTE are made of: a `Timeout` passes over them to the line that
catches it, and they write neither PHASE nor ATTEMPT. -/
def inPrimitive : Micro → Bool
  | .drive _ _ | .half | .nowT0 | .pollScl | .checkTime | .sleepPoll | .setShift _ | .setBit _ | .sampleAck
  | .setAck _ | .sampleBit => true
  | _ => false

theorem inPrimitive_sclwCode (rd : Bool) : (sclwCode rd).all inPrimitive = true := by
  cases rd <;> rfl

theorem inPrimitive_wbitCode (rd b : Bool) : (wbitCode rd b).all inPrimitive = true := by
  cases rd <;> rfl

theorem inPrimitive_wbitsCode (rd : Bool) (v : Byte) (n : Nat) : (wbitsCode rd v n).all inPrimitive = true := by
  induction n with
  | zero => rfl
  | succ n ih => simp [wbitsCode, inPrimitive, inPrimitive_wbitCode, ih]

theorem inPrimitive_wbyteCode (rd : Bool) (v : Byte) : (wbyteCode rd v).all inPrimitive = true := by
  simp [wbyteCode, inPrimitive, inPrimitive_wbitsCode, inPrimitive_sclwCode]

theorem inPrimitive_rbitsCode (rd : Bool) (n : Nat) : (rbitsCode rd n).all inPrimitive = true := by
  induction n with
  | zero => rfl
  | succ n ih => simp [rbitsCode, inPrimitive, inPrimitive_sclwCode, ih]

theorem inPrimitive_rbyteCode (rd : Bool) : (rbyteCode rd).all inPrimitive = true := by
  simp [rbyteCode, inPrimitive, inPrimitive_rbitsCode]

/-- A `Timeout` skips the rest of the primitive (R220). -/
theorem unwind_append {code : List Micro} (hcode : code.all inPrimitive = true) (rest : List Micro) :
    unwind (code ++ rest) = unwind rest := by
  induction code with
  | nil => rfl
  | cons m code ih =>
    obtain ⟨hm, hcode⟩ : inPrimitive m = true ∧ code.all inPrimitive = true := by simpa using hcode
    rw [← ih hcode]
    cases m <;> simp only [inPrimitive, Bool.false_eq_true] at hm <;> rfl

theorem timeoutOk_append {code : List Micro} (hcode : code.all inPrimitive = true) (ph : Phase) (rest : List Micro) :
    timeoutOk ph (code ++ rest) = timeoutOk ph rest := by
  induction code with
  | nil => rfl
  | cons m code ih =>
    obtain ⟨hm, hcode⟩ : inPrimitive m = true ∧ code.all inPrimitive = true := by simpa using hcode
    rw [← ih hcode]
    cases m <;> simp only [inPrimitive, Bool.false_eq_true] at hm <;> rfl

/-! ### Which lines can be run -/

/-- A primitive can be run where its timeout is caught and what follows it can be run. -/
theorem linesOk_append {code rest : List Micro} (hcode : code.all inPrimitive = true) {ph : Phase} {more : Bool}
    (hcaught : timeoutOk ph rest = true) (hrest : linesOk ph more rest = true) :
    linesOk ph more (code ++ rest) = true := by
  induction code with
  | nil => exact hrest
  | cons m code ih =>
    obtain ⟨hm, hcode⟩ : inPrimitive m = true ∧ code.all inPrimitive = true := by simpa using hcode
    have hafter : timeoutOk ph (code ++ rest) = true := by rw [timeoutOk_append hcode, hcaught]
    cases m with
    | pollScl | checkTime => exact Bool.and_eq_true_iff.mpr ⟨hafter, ih hcode⟩
    | drive | half | nowT0 | sleepPoll | setShift | setBit | sampleAck | setAck | sampleBit => exact ih hcode
    | _ => cases hm

theorem linesOk_startCode (rd : Bool) (ph : Phase) (more : Bool) (rest : List Micro) :
    linesOk ph more (startCode rd ++ rest) = linesOk ph more rest := by
  cases rd <;> rfl

theorem linesOk_stopCode (ph : Phase) (more : Bool) (rest : List Micro) :
    linesOk ph more (stopCode ++ rest) = linesOk ph more rest := rfl

/-- FINISH can be run from ADDR and from DATA. -/
theorem linesOk_finishCode {ph : Phase} (h : phaseStep ph .stopped = true) (more : Bool) :
    linesOk ph more finishCode = true :=
  Bool.and_eq_true_iff.mpr ⟨h, rfl⟩

/-- The data phase can be run from STARTED and from ADDR. -/
theorem linesOk_dataCode {ph : Phase} (h : phaseStep ph .data = true) (more rd : Bool) (dir : BitVec 1) (byte : Byte) :
    linesOk ph more (dataCode rd dir byte) = true := by
  have hfinish : linesOk .data more finishCode = true := linesOk_finishCode rfl more
  refine Bool.and_eq_true_iff.mpr ⟨h, ?_⟩
  split
  · exact linesOk_append (inPrimitive_wbyteCode rd byte) rfl hfinish
  · exact linesOk_append (inPrimitive_rbyteCode rd) rfl hfinish

/-- An address attempt can be run from STARTED and from ADDR. -/
theorem linesOk_attemptCode {ph : Phase} (h : phaseStep ph .addr = true) (more rd : Bool) (ab : Byte) :
    linesOk ph more (attemptCode rd ab) = true :=
  Bool.and_eq_true_iff.mpr ⟨h, linesOk_append (inPrimitive_wbyteCode rd ab) rfl rfl⟩

theorem linesOk_transferCode (more : Bool) (r : NumRegs) (addr : BitVec 16) (dir : BitVec 1) (byte : Byte) :
    linesOk .idle more (transferCode r addr dir byte) = true := by
  refine (linesOk_startCode r.sclReadable .started more _).trans ?_
  split
  · exact linesOk_attemptCode (ph := .started) rfl false r.sclReadable (addressByte addr dir)
  · exact linesOk_dataCode (ph := .started) rfl more r.sclReadable dir byte

/-- Every command can be run from IDLE. -/
theorem linesOk_codeOf (more : Bool) (r : NumRegs) (i : Instr) : linesOk .idle more (codeOf r i) = true := by
  cases i with
  | xferW addr byte => exact linesOk_transferCode more r addr 0#1 byte
  | xferR addr init => exact linesOk_transferCode more r addr 1#1 init
  | sclw => exact linesOk_append (inPrimitive_sclwCode _) rfl rfl
  | start => exact linesOk_startCode r.sclReadable .idle more [.endMicro .unit]
  | stop => rfl
  | fnack => rfl
  | wbit b => exact linesOk_append (inPrimitive_wbitCode _ _) rfl rfl
  | wbyte v => exact linesOk_append (inPrimitive_wbyteCode _ v) rfl rfl
  | rbyte => exact linesOk_append (inPrimitive_rbyteCode _) rfl rfl

/-- Lines that can be run with no attempt left can be run with some left. -/
theorem linesOk_of_none_left {ph : Phase} {lines : List Micro} (more : Bool) (h : linesOk ph false lines = true) :
    linesOk ph more lines = true := by
  induction lines generalizing ph with
  | nil => exact h
  | cons m rest ih =>
    cases m with
    | endMicro | endTransfer | setLastError | addrDecide | clearAttempt => exact h
    | nextAttempt => cases h
    | setPhase | pollScl | checkTime | catchMicro | catchTransfer =>
      obtain ⟨hline, hrest⟩ := Bool.and_eq_true_iff.mp h
      exact Bool.and_eq_true_iff.mpr ⟨hline, ih hrest⟩
    | _ => exact ih h

/-- Where the sequencer goes on a `Timeout` that is caught, it can go on (R130, R220, R223). -/
theorem linesOk_unwind {ph : Phase} {more : Bool} {lines : List Micro} (hcaught : timeoutOk ph lines = true)
    (h : linesOk ph more lines = true) : linesOk ph more (unwind lines) = true := by
  induction lines with
  | nil => cases hcaught
  | cons m rest ih =>
    cases m with
    | catchIgnore => exact h
    | catchMicro => exact hcaught
    | catchTransfer =>
      refine linesOk_finishCode ?_ more
      rcases Bool.or_eq_true_iff.mp hcaught with hph | hph <;> rw [beq_iff_eq.mp hph] <;> rfl
    | pollScl | checkTime => exact ih hcaught (Bool.and_eq_true_iff.mp h).2
    | drive | half | nowT0 | sleepPoll | setShift | setBit | sampleAck | setAck | sampleBit | loadMessage
    | writeDecide | takeByte | setErr => exact ih hcaught h
    | _ => cases hcaught

end Sys2Proof.Proofs.Lines
end

section
/-! The invariant of a safe run holds at reset and every step keeps it (R30, R32, R37, R44 to R47, R65, R186). -/

namespace Sys2Proof.Proofs.Invariant

open Sys2Proof Sys2Proof.Machine Sys2Proof.Safety Sys2Proof.Proofs.Registers Sys2Proof.Proofs.Lines

/-! ### The invariant with the guard free and with the guard held -/

theorem sequencerOk_free {s : State} (hfree : s.lock.guard = .free) :
    SequencerOk s ↔ s.seq.phase = .idle ∧ s.seq.pos = [] := by
  rw [SequencerOk, hfree]

/-- Whether ATTEMPT may be incremented (R37, R180). -/
def attemptsLeft (s : State) : Bool := decide (s.work.attempt.toNat < s.regs.cfgRetries.toNat)

theorem sequencerOk_held {s : State} {c : Nat} (hheld : s.lock.guard = .held c) :
    SequencerOk s ↔ s.host.issuer = c ∧ linesOk s.seq.phase (attemptsLeft s) s.seq.pos = true := by
  rw [SequencerOk, hheld]
  rfl

theorem sequencerOk_of_linesOk {s : State} {c : Nat} (hheld : s.lock.guard = .held c) (hissuer : s.host.issuer = c)
    (hlines : linesOk s.seq.phase (attemptsLeft s) s.seq.pos = true) : SequencerOk s :=
  (sequencerOk_held hheld).mpr ⟨hissuer, hlines⟩

/-! ### Registers -/

/-- Creation leaves a timeout that is not 0 and every reserved bit 0 (R30, R32, R240). -/
theorem regsOk_create (a : CreateArgs) : RegsOk a.regs where
  timeout := by
    simp only [CreateArgs.regs]
    split
    · exact a.ticksPerSecond.pos
    · assumption
  policy := bitReg_reserved a.rdaddr
  cap := bitReg_reserved _
  lastError := BitVec.zero_and

theorem regsOk_of_onlyLastError {r r' : NumRegs} (hr : RegsOk r) (h : OnlyLastError r r') : RegsOk r' := by
  rcases h with rfl | ⟨e, rfl⟩
  · exact hr
  · exact ⟨hr.timeout, hr.policy, hr.cap, lastErrorWord_reserved e⟩

/-! ### Waiters -/

/-- A caller that is not blocked may wait (R65.3). -/
theorem waitersOk_append {s : State} {c : Nat} (i : Instr) (h : WaitersOk s.lock) (hb : blocked c s = false) :
    WaitersOk { s.lock with waiters := s.lock.waiters ++ [{ caller := c, command := i }] } := by
  obtain ⟨hnodup, hholder⟩ := h
  simp only [blocked, Bool.or_eq_false_iff, beq_eq_false_iff_ne, List.any_eq_false, beq_iff_eq] at hb
  obtain ⟨hguard, hwaits⟩ := hb
  have hnew : c ∉ s.lock.waiters.map Waiter.caller := by simpa using hwaits
  refine ⟨?_, fun d hd => ?_⟩
  · rw [List.map_append]
    exact hnodup.append (List.nodup_singleton c) (by simpa using hnew)
  · have hne : d ≠ c := fun hdc => hguard (hdc ▸ hd)
    simpa [hne] using hholder d hd

/-- With the waiter at `k` gone the others still differ, and its caller waits no longer (R65.3, R65.4). -/
theorem nodup_eraseIdx_callers {ws : List Waiter} (h : (ws.map Waiter.caller).Nodup) {k : Nat} {w : Waiter}
    (hk : ws[k]? = some w) :
    ((ws.eraseIdx k).map Waiter.caller).Nodup ∧ w.caller ∉ (ws.eraseIdx k).map Waiter.caller := by
  refine ⟨h.sublist ((List.eraseIdx_sublist ws k).map _), fun hmem => ?_⟩
  obtain ⟨v, hv, hcaller⟩ := List.mem_map.mp hmem
  obtain ⟨j, hjk, hj⟩ := List.mem_eraseIdx_iff_getElem?.mp hv
  have hsame : (ws.map Waiter.caller)[j]? = (ws.map Waiter.caller)[k]? := by simp [hj, hk, hcaller]
  have hlt : j < (ws.map Waiter.caller).length := by
    obtain ⟨hlt, -⟩ := List.getElem?_eq_some_iff.mp hj
    simpa using hlt
  exact hjk ((List.getElem?_inj hlt h).mp hsame)

/-- Taking a waiter keeps the invariant, and its caller waits no longer. -/
theorem inv_takeWaiter {s : State} {w : Waiter} {ws : List Waiter} (h : Inv s) (hfree : s.lock.guard = .free)
    (hw : s.lock.waiters = w :: ws) :
    Inv (takeWaiter w ws s).2 ∧ (takeWaiter w ws s).2.lock.guard = .free ∧
      (takeWaiter w ws s).2.host.issuer = (takeWaiter w ws s).1.caller ∧
      (takeWaiter w ws s).1.caller ∉ (takeWaiter w ws s).2.lock.waiters.map Waiter.caller := by
  obtain ⟨k, -, hk, hlock, hhost, hregs, hwork, -, hseq, -⟩ := takeWaiter_spec w ws s
  have hguard : (takeWaiter w ws s).2.lock.guard = .free := by rw [hlock]; exact hfree
  obtain ⟨hnodup, hgone⟩ := nodup_eraseIdx_callers (hw ▸ h.waiters.1) hk
  refine ⟨⟨hregs ▸ h.regs, ?_, ?_, ?_, ?_⟩, hguard, by rw [hhost], by rw [hlock]; exact hgone⟩
  · rw [hwork, hregs]; exact h.attempt
  · rw [sequencerOk_free hguard, hseq]; exact (sequencerOk_free hfree).mp h.sequencer
  · rw [hlock]; exact hnodup
  · intro c hc; cases hguard.symm.trans hc

/-! ### A line of the running command -/

/-- A line that leaves the numbered registers, ATTEMPT, PHASE, the guard and the callers alone (`s` before it, `u` after
it but for STEP), with lines `next` to follow that can be run. -/
theorem inv_goto {s u : State} {c : Nat} {next : List Micro} (h : Inv s) (hheld : s.lock.guard = .held c)
    (hnext : linesOk s.seq.phase (attemptsLeft s) next = true) (hregs : u.regs = s.regs)
    (hattempt : u.work.attempt = s.work.attempt) (hseq : u.seq = s.seq) (hlock : u.lock = s.lock)
    (hhost : u.host = s.host) : Inv (goto next u) := by
  have hguard : (goto next u).lock.guard = .held c := by rw [goto_lock, hlock, hheld]
  obtain ⟨hissuer, -⟩ := (sequencerOk_held hheld).mp h.sequencer
  refine ⟨hregs ▸ h.regs, ?_, (sequencerOk_held hguard).mpr ⟨hhost ▸ hissuer, ?_⟩, hlock ▸ h.waiters⟩
  · simpa only [goto_work, goto_regs, hattempt, hregs] using h.attempt
  · simpa only [attemptsLeft, goto_work, goto_regs, goto_seq, hattempt, hregs, hseq] using hnext

/-- The lines after an address attempt can be run from ADDR: a retry only while ATTEMPT is below CFG_RETRIES (R180). -/
theorem linesOk_afterAttempt {s : State} (hle : s.work.attempt.toNat ≤ s.regs.cfgRetries.toNat) :
    linesOk .addr (attemptsLeft s) (afterAttempt s) = true := by
  rw [afterAttempt]
  split
  · exact linesOk_dataCode rfl _ _ _ _
  split
  · exact linesOk_finishCode (ph := .addr) rfl (attemptsLeft s)
  next hne =>
    have hlt : s.work.attempt.toNat < s.regs.cfgRetries.toNat :=
      lt_of_le_of_ne hle fun heq => hne (BitVec.eq_of_toNat_eq heq)
    rw [linesOk_stopCode, linesOk_startCode]
    exact Bool.and_eq_true_iff.mpr ⟨decide_eq_true hlt, linesOk_attemptCode rfl _ _ _⟩

/-- The guard is released by the last line, in IDLE (R46, R76). -/
theorem inv_release {s : State} (h : Inv s) (res : Word) (hidle : s.seq.phase = .idle) :
    Inv (goto [] (release res s)) :=
  ⟨h.regs, h.attempt, ⟨hidle, rfl⟩, h.waiters.1, fun _ hc => nomatch hc⟩

/-- ATTEMPT is incremented only while attempts are left, so it does not wrap (R37). -/
theorem toNat_succ_attempt {s : State} (h : attemptsLeft s = true) :
    (s.work.attempt + 1#32).toNat = s.work.attempt.toNat + 1 := by
  have hlt : s.work.attempt.toNat < s.regs.cfgRetries.toNat := of_decide_eq_true h
  have hbound : s.regs.cfgRetries.toNat < 2 ^ 32 := s.regs.cfgRetries.isLt
  rw [BitVec.toNat_add, BitVec.toNat_ofNat]
  omega

/-- Every line keeps the invariant. -/
theorem inv_runLine {s : State} {c : Nat} {m : Micro} {rest : List Micro} (h : Inv s)
    (hheld : s.lock.guard = .held c) (hpos : s.seq.pos = m :: rest) : Inv (runLine m rest s) := by
  obtain ⟨hissuer, hlines⟩ := (sequencerOk_held hheld).mp h.sequencer
  rw [hpos] at hlines
  cases m with
  | pollScl =>
    simp only [runLine]
    split
    · exact inv_goto h hheld (Bool.and_eq_true_iff.mp hlines).2 rfl rfl rfl rfl rfl
    · exact inv_goto h hheld hlines rfl rfl rfl rfl rfl
  | checkTime =>
    obtain ⟨hcaught, hrest⟩ := Bool.and_eq_true_iff.mp hlines
    simp only [runLine]
    split
    · exact inv_goto h hheld (linesOk_unwind hcaught hrest) rfl rfl rfl rfl rfl
    · exact inv_goto h hheld hlines rfl rfl rfl rfl rfl
  | setPhase p =>
    obtain ⟨-, hrest⟩ := Bool.and_eq_true_iff.mp hlines
    exact ⟨h.regs, h.attempt, sequencerOk_of_linesOk hheld hissuer hrest, h.waiters⟩
  | clearAttempt =>
    exact ⟨h.regs, Nat.zero_le _, sequencerOk_of_linesOk hheld hissuer (linesOk_of_none_left _ hlines), h.waiters⟩
  | nextAttempt =>
    obtain ⟨hmore, hrest⟩ := Bool.and_eq_true_iff.mp hlines
    have hle : (s.work.attempt + 1#32).toNat ≤ s.regs.cfgRetries.toNat :=
      (toNat_succ_attempt hmore).trans_le (of_decide_eq_true hmore)
    exact ⟨h.regs, hle, sequencerOk_of_linesOk hheld hissuer (linesOk_of_none_left _ hrest), h.waiters⟩
  | addrDecide =>
    have hphase : s.seq.phase = .addr := beq_iff_eq.mp hlines
    exact inv_goto h hheld (hphase ▸ linesOk_afterAttempt h.attempt) rfl rfl rfl rfl rfl
  | setLastError =>
    obtain ⟨hphase, hrest⟩ := Bool.and_eq_true_iff.mp hlines
    have hnext : linesOk s.seq.phase (attemptsLeft s) rest = true := by
      rw [beq_iff_eq.mp hphase, beq_iff_eq.mp hrest]; rfl
    exact ⟨regsOk_of_onlyLastError h.regs (.inr ⟨_, rfl⟩), h.attempt,
      sequencerOk_of_linesOk hheld hissuer hnext, h.waiters⟩
  | endMicro | endTransfer =>
    obtain ⟨hlast, hidle⟩ := Bool.and_eq_true_iff.mp hlines
    obtain rfl := List.isEmpty_iff.mp hlast
    exact inv_release h _ (beq_iff_eq.mp hidle)
  | catchMicro | catchTransfer =>
    exact inv_goto h hheld (Bool.and_eq_true_iff.mp hlines).2 rfl rfl rfl rfl rfl
  | writeDecide =>
    simp only [runLine]
    split <;> exact inv_goto h hheld hlines rfl rfl rfl rfl rfl
  | drive | half | nowT0 | sleepPoll | setShift | setBit | sampleAck | setAck | sampleBit | loadMessage | takeByte
  | setErr | catchIgnore => exact inv_goto h hheld hlines rfl rfl rfl rfl rfl

/-! ### The moves of a step -/

theorem inv_callerMove {s : State} (h : Inv s) : Inv (callerMove s) := by
  rcases callerMove_cases s with hmove | ⟨r, rest, -, hblocked, ⟨why, -, hmove⟩ | ⟨i, -, hmove⟩⟩ <;> rw [hmove]
  · exact h
  · exact ⟨h.regs, h.attempt, h.sequencer, h.waiters⟩
  · exact ⟨h.regs, h.attempt, h.sequencer, waitersOk_append i h.waiters hblocked⟩

/-- The guard is granted to a caller that waits no longer, and its command begins in IDLE (R13, R178). -/
theorem inv_beginCommand {s : State} (i : Instr) (h : Inv s) (hfree : s.lock.guard = .free)
    (hissuer : s.host.issuer ∉ s.lock.waiters.map Waiter.caller) : Inv (beginCommand i s) := by
  obtain ⟨hidle, -⟩ := (sequencerOk_free hfree).mp h.sequencer
  refine ⟨h.regs, h.attempt, ⟨rfl, ?_⟩, h.waiters.1, fun c hc => ?_⟩
  · exact (congrArg (linesOk · _ _) hidle).trans (linesOk_codeOf _ s.regs i)
  · obtain rfl : s.host.issuer = c := Guard.held.inj hc
    exact hissuer

theorem inv_engineMove {s t : State} (h : Inv s) (hmove : engineMove s = .next t) : Inv t := by
  rcases engineMove_cases hmove with ⟨c, m, rest, hheld, hpos, rfl⟩ | ⟨-, -, rfl⟩ | ⟨w, ws, hfree, hw, rfl⟩
  · exact inv_runLine h hheld hpos
  · exact h
  · obtain ⟨htaken, hguard, hissuer, hgone⟩ := inv_takeWaiter h hfree hw
    exact inv_beginCommand _ htaken hguard (hissuer ▸ hgone)

/-- A command run whole leaves the sequencer between commands, as it found it, and its counted attempts in bounds. -/
theorem inv_runCommand {s : State} (i : Instr) (h : Inv s) (hfree : s.lock.guard = .free) : Inv (runCommand i s) := by
  obtain ⟨hidle, hpos⟩ := (sequencerOk_free hfree).mp h.sequencer
  cases hi : isTransfer i with
  | true =>
    obtain ⟨⟨es, e, m, hran⟩, hattempt⟩ := runCommand_transferRan hi hfree
    refine ⟨regsOk_of_onlyLastError h.regs (.inr ⟨e, hran.regs⟩), ?_, ?_, hran.lock ▸ h.waiters⟩
    · rw [hran.regs]; exact hattempt h.attempt
    · rw [sequencerOk_free (hran.lock ▸ hfree), hran.seq]; exact ⟨rfl, hpos⟩
  | false =>
    obtain ⟨⟨es, res, hran⟩, hattempt⟩ := runCommand_microRan hi hfree
    refine ⟨hran.regs ▸ h.regs, ?_, ?_, hran.lock ▸ h.waiters⟩
    · rw [hran.regs, hattempt]; exact h.attempt
    · rw [sequencerOk_free (hran.lock ▸ hfree), hran.seq]; exact ⟨hidle, hpos⟩

/-- What is fetched with the guard free is a state of the invariant, with the guard still free. -/
theorem inv_fetch_command {s u : State} {i : Instr} (h : Inv s) (hfree : s.lock.guard = .free)
    (hfetch : fetch s = .command i u) : Inv u ∧ u.lock.guard = .free := by
  rcases fetch_cases s with
    ⟨-, -, hf⟩ | ⟨w, ws, hw, hf⟩ | ⟨r, rest, -, -, ⟨why, -, hf⟩ | ⟨j, -, hf⟩⟩ <;> cases hf.symm.trans hfetch
  · obtain ⟨htaken, hguard, -⟩ := inv_takeWaiter h hfree hw
    exact ⟨htaken, hguard⟩
  · have hseq := (sequencerOk_free hfree).mp h.sequencer
    exact ⟨⟨h.regs, h.attempt, (sequencerOk_free (by exact hfree)).mpr hseq, h.waiters⟩, hfree⟩

theorem inv_fetch_refused {s u : State} (h : Inv s) (hfetch : fetch s = .refused u) : Inv u := by
  rcases fetch_cases s with
    ⟨-, -, hf⟩ | ⟨w, ws, -, hf⟩ | ⟨r, rest, -, -, ⟨why, -, hf⟩ | ⟨j, -, hf⟩⟩ <;> cases hf.symm.trans hfetch
  exact ⟨h.regs, h.attempt, h.sequencer, h.waiters⟩

/-- The schedule is no part of the invariant. -/
theorem inv_turns {s : State} (h : Inv s) (ts : List Turn) : Inv { s with host := { s.host with turns := ts } } :=
  ⟨h.regs, h.attempt, h.sequencer, h.waiters⟩

/-- Settles O46, one kind of step at a time. -/
theorem stepKeepsTheInvariant : Obligations.StepKeepsTheInvariant := by
  intro s t h hstep
  rcases step_cases hstep with ⟨-, -, rfl⟩ | ⟨ts, -, rfl⟩ | ⟨ts, -, hmove⟩ | ⟨c, -, -, hmove⟩ | ⟨-, -, -, rfl⟩ |
    ⟨-, -, hfetch⟩ | ⟨i, u, -, hfree, hfetch, hexec⟩
  · exact h
  · exact inv_callerMove (inv_turns h ts)
  · exact inv_engineMove (inv_turns h ts) hmove
  · exact inv_engineMove h hmove
  · exact h
  · exact inv_fetch_refused h hfetch
  · obtain ⟨hu, hguard⟩ := inv_fetch_command h hfree hfetch
    rw [exec_free i hguard] at hexec
    obtain rfl := Host.Outcome.next.inj hexec
    exact inv_runCommand i hu hguard

/-- Settles O32: of all lines only that of LAST_ERROR writes a numbered register, and where it can be run the invariant
says what is left of the transfer. -/
theorem lastErrorIsWrittenOnlyAtTheEnd : Obligations.LastErrorIsWrittenOnlyAtTheEnd := by
  intro s c h hheld hwrites
  obtain ⟨-, hlines⟩ := (sequencerOk_held hheld).mp h.sequencer
  cases hpos : s.seq.pos with
  | nil => rw [hpos] at hlines; cases hlines
  | cons m rest =>
    rw [hpos] at hlines
    rw [tick_cons hpos] at hwrites ⊢
    cases m with
    | setLastError =>
      obtain ⟨hphase, hrest⟩ := Bool.and_eq_true_iff.mp hlines
      exact ⟨beq_iff_eq.mp hphase, by rw [beq_iff_eq.mp hrest], rfl⟩
    | pollScl | checkTime | writeDecide => simp only [runLine] at hwrites; split at hwrites <;> exact absurd rfl hwrites
    | _ => exact absurd rfl hwrites

/-! ### Reset and the idle machine -/

/-- Creation gives a bus of the invariant whose trace agrees with its guard, whatever its arguments (R240, R242). -/
theorem inv_create (a : CreateArgs) : Inv a.bus ∧ TraceOk a.bus :=
  ⟨⟨regsOk_create a, Nat.zero_le _, ⟨rfl, rfl⟩, List.nodup_nil, fun _ hc => nomatch hc⟩, rfl, fun _ hc => nomatch hc⟩

/-- Settles O45: reset is a creation. -/
theorem resetMeetsTheInvariants : Obligations.ResetMeetsTheInvariants := inv_create CreateArgs.platform

/-- With nothing issued and nobody waiting a step at most takes a move off the schedule (R46). -/
theorem step_idle {s : State} (hfree : s.lock.guard = .free) (hwaiters : s.lock.waiters = [])
    (hport : s.host.port = []) : ∃ host, step s = .next { s with host := host } := by
  cases hcreated : s.host.created with
  | false => exact ⟨s.host, by simp [step, hcreated, hport]⟩
  | true =>
    cases hturns : s.host.turns with
    | nil => exact ⟨s.host, by simp [step, stepBus, stepWhole, fetch, hcreated, hturns, hfree, hwaiters, hport]⟩
    | cons turn ts =>
      refine ⟨{ s.host with turns := ts }, ?_⟩
      cases turn with
      | engine => simp [step, stepBus, scheduled, engineMove, hcreated, hturns, hfree, hwaiters]
      | caller => simp [step, stepBus, scheduled, callerMove, hcreated, hturns, hport]

/-- Settles O51: such a step changes the callers' side alone. -/
theorem idleEngineEmitsNothing : Obligations.IdleEngineEmitsNothing := by
  intro s hfree hwaiters hport
  obtain ⟨host, hstep⟩ := step_idle hfree hwaiters hport
  exact ⟨_, hstep, rfl, rfl, rfl, rfl, rfl, rfl⟩

end Sys2Proof.Proofs.Invariant
end

section
/-! The two grains of the model agree (log 7, log 14, log 20): the lines of each primitive run to what the primitive
means, and so the lines of each command to what the command means. -/

namespace Sys2Proof.Proofs.Grains

open Sys2Proof Sys2Proof.Machine Sys2Proof.Safety Sys2Proof.Proofs.Registers Sys2Proof.Proofs.Lines
  Sys2Proof.Proofs.Invariant

/-! ### Running lines with the guard held -/

/-- The engine's lines lead from `s` to `t`, with caller `c` holding the guard at every state before `t`. -/
def Runs (c : Nat) (s t : State) : Prop := ∃ n, ticks n s = t ∧ ∀ m, m < n → (ticks m s).lock.guard = .held c

theorem Runs.refl (c : Nat) (s : State) : Runs c s s := ⟨0, rfl, fun _ hm => absurd hm (Nat.not_lt_zero _)⟩

theorem Runs.trans {c : Nat} {s t u : State} (h : Runs c s t) (k : Runs c t u) : Runs c s u := by
  obtain ⟨n, rfl, hn⟩ := h
  obtain ⟨j, rfl, hj⟩ := k
  refine ⟨n + j, ticks_add n j s, fun m hm => ?_⟩
  rcases Nat.lt_or_ge m n with hlt | hge
  · exact hn m hlt
  · obtain ⟨i, rfl⟩ := Nat.exists_eq_add_of_le hge
    rw [ticks_add]
    exact hj i (by omega)

theorem runLine_writeDecide_ack {s : State} {rest : List Micro} (h : s.work.ack = true) :
    runLine .writeDecide rest s = goto rest s := by
  simp only [runLine, h, if_true]

theorem runLine_writeDecide_nack {s : State} {rest : List Micro} (h : s.work.ack = false) :
    runLine .writeDecide rest s = goto rest (enterError .io s) := by
  simp only [runLine, h, Bool.false_eq_true, if_false]

/-- A line does not depend on what STEP listed before it. -/
theorem runLine_goto (m : Micro) (rest lines : List Micro) (s : State) :
    runLine m rest (goto lines s) = runLine m rest s := by
  cases m with
  | writeDecide =>
    cases hack : s.work.ack with
    | true => rw [runLine_writeDecide_ack hack, runLine_writeDecide_ack (s := goto lines s) hack]; rfl
    | false => rw [runLine_writeDecide_nack hack, runLine_writeDecide_nack (s := goto lines s) hack]; rfl
  | _ => rfl

/-- The first line of STEP is run. -/
theorem Runs.line {c : Nat} {m : Micro} {rest : List Micro} {s t : State} (hheld : s.lock.guard = .held c)
    (h : Runs c (runLine m rest s) t) : Runs c (goto (m :: rest) s) t := by
  have hfirst : Runs c (goto (m :: rest) s) (runLine m rest s) :=
    ⟨1, runLine_goto m rest _ s, fun k hk => by obtain rfl := Nat.lt_one_iff.mp hk; exact hheld⟩
  exact hfirst.trans h

/-- Caller `c` holds the guard, and read-back is as the code was listed for. -/
def Granted (c : Nat) (rd : Bool) (s : State) : Prop := s.lock.guard = .held c ∧ s.regs.sclReadable = rd

theorem Granted.ran {c : Nat} {rd : Bool} {s t : State} {es : List Event} (h : Granted c rd s) (k : Ran s t es) :
    Granted c rd t :=
  ⟨k.lock ▸ h.1, k.regs ▸ h.2⟩

/-- The lines to go on with after a primitive that returned `q`: those after it, or those its `Timeout` leads to. -/
def resume {α : Type} : Ret α → List Micro → List Micro
  | .ok _, rest => rest
  | .err _, rest => unwind rest

section Running

variable {c : Nat} {rd : Bool} {s : State}

/-! ### SCLW and the conditions -/

theorem runLine_pollScl_high {rest : List Micro} (h : sampled .scl s = .hi) :
    runLine .pollScl rest s = goto (.half :: rest) (sample .scl s) := by
  simp only [runLine, h]

theorem runLine_pollScl_low {rest : List Micro} (h : sampled .scl s = .lo) :
    runLine .pollScl rest s = goto (.checkTime :: rest) (sample .scl s) := by
  simp only [runLine, h]

theorem runLine_checkTime_timedOut {rest : List Micro} (h : timedOut (nowCheck s) = true) :
    runLine .checkTime rest s = goto (unwind rest) (nowCheck s) := by
  simp only [runLine, h, if_true]

theorem runLine_checkTime_again {rest : List Micro} (h : timedOut (nowCheck s) = false) :
    runLine .checkTime rest s = goto (.sleepPoll :: .pollScl :: rest) (nowCheck s) := by
  simp only [runLine, h, Bool.false_eq_true, if_false]

/-- SCLW's loop: the rounds it may still make are enough for the polls slept so far to time it out (R117, log 15). -/
theorem runs_pollScl {s : State} (n : Nat) (hheld : s.lock.guard = .held c)
    (hpolls : 2 * s.regs.poll ≤ elapsed s s.env.tick + n * s.regs.poll) (rest : List Micro) :
    Runs c (goto (.pollScl :: rest) s) (goto (resume (pollScl n s).1 rest) (pollScl n s).2) := by
  refine .line hheld ?_
  cases hlevel : sampled .scl s with
  | hi =>
    rw [runLine_pollScl_high hlevel, pollScl_high n hlevel]
    exact .line hheld (.refl _ _)
  | lo =>
    rw [runLine_pollScl_low hlevel]
    refine .line hheld ?_
    cases hlate : timedOut (nowCheck (sample .scl s)) with
    | true =>
      rw [runLine_checkTime_timedOut hlate, pollScl_timeout n hlevel hlate]
      exact .refl _ _
    | false =>
      match n with
      | 0 =>
        have hlast : timedOut (nowCheck (sample .scl s)) = true := pollScl_third_check (by omega)
        cases hlate.symm.trans hlast
      | n + 1 =>
        rw [runLine_checkTime_again hlate, pollScl_again n hlevel hlate]
        have hround := elapsed_round (Nat.le_refl _) hlate
        rw [Nat.add_one_mul n] at hpolls
        refine .line hheld (runs_pollScl (s := sleepPoll (nowCheck (sample .scl s))) n hheld ?_ rest)
        simp only [sleepPoll_regs, nowCheck_regs, sample_regs]
        omega

theorem runs_sclw (h : Granted c rd s) (rest : List Micro) :
    Runs c (goto (sclwCode rd ++ rest) s) (goto (resume (sclw s).1 rest) (sclw s).2) := by
  obtain ⟨hheld, rfl⟩ := h
  cases hrd : s.regs.sclReadable with
  | false =>
    have hsclw : sclw s = (.ok (), halfBit (drive .scl .rel s)) := by simp [sclw, hrd]
    rw [hsclw]
    exact .line hheld (.line hheld (.refl _ _))
  | true =>
    have hsclw : sclw s = pollScl 2 (nowT0 (drive .scl .rel s)) := by simp [sclw, hrd]
    rw [hsclw]
    exact .line hheld (.line hheld (runs_pollScl (s := nowT0 (drive .scl .rel s)) 2 hheld (Nat.le_add_left _ _) rest))

theorem Granted.sclw (h : Granted c rd s) : Granted c rd (Machine.sclw s).2 := by
  obtain ⟨es, hran, -⟩ := sclw_spec s
  exact h.ran hran

theorem runs_start (h : Granted c rd s) (rest : List Micro) :
    Runs c (goto (startCode rd ++ rest) s) (goto rest (start s)) := by
  have hwait := runs_sclw (s := drive .sda .rel s) h
    (.catchIgnore :: .half :: .drive .sda .low :: .half :: .drive .scl .low :: rest)
  have hheld : (sclw (drive .sda .rel s)).2.lock.guard = .held c := (Granted.sclw (s := drive .sda .rel s) h).1
  have htail : Runs c
      (goto (.half :: .drive .sda .low :: .half :: .drive .scl .low :: rest) (sclw (drive .sda .rel s)).2)
      (goto rest (start s)) :=
    .line hheld (.line hheld (.line hheld (.line hheld (.refl _ _))))
  simp only [startCode, List.cons_append, List.append_assoc, List.nil_append]
  refine .line h.1 (hwait.trans ?_)
  cases (sclw (drive .sda .rel s)).1 with
  | ok _ => exact .line hheld htail
  | err _ => exact htail

theorem Granted.start (h : Granted c rd s) : Granted c rd (Machine.start s) := by
  obtain ⟨es, _, -, hran, -⟩ := start_spec s
  exact h.ran hran

theorem runs_stop (hheld : s.lock.guard = .held c) (rest : List Micro) :
    Runs c (goto (stopCode ++ rest) s) (goto rest (stop s)) :=
  .line hheld (.line hheld (.line hheld (.line hheld (.line hheld (.line hheld (.refl _ _))))))

theorem runs_fnack (hheld : s.lock.guard = .held c) (rest : List Micro) :
    Runs c (goto (fnackCode ++ rest) s) (goto rest (fnack s)) :=
  .line hheld (.line hheld (.line hheld (.line hheld (.line hheld (.line hheld (.line hheld (.line hheld
    (.refl _ _))))))))

/-! ### The bit and byte shifters -/

theorem runs_wbit (b : Bool) (h : Granted c rd s) (rest : List Micro) :
    Runs c (goto (wbitCode rd b ++ rest) s) (goto (resume (wbit b s).1 rest) (wbit b s).2) :=
  .line h.1 (.line h.1 (.line h.1 (runs_sclw (s := halfBit (drive .sda (drvOf b) (drive .scl .low s))) h rest)))

theorem runs_wbits (n : Nat) (v : Byte) (h : Granted c rd s) (hshift : s.work.shift = v) (rest : List Micro) :
    Runs c (goto (wbitsCode rd v n ++ rest) s) (goto (resume (wbits n s).1 rest) (wbits n s).2) := by
  induction n generalizing s with
  | zero => exact .refl _ _
  | succ n ih =>
    have hbit := runs_wbit (s := setBit (Fin.ofNat 8 n) s) (v.getLsbD n) h (wbitsCode rd v n ++ rest)
    obtain ⟨es, -, hran, -, hwork⟩ := wbit_spec (v.getLsbD n) (setBit (Fin.ofNat 8 n) s)
    obtain ⟨q, u, hq⟩ : ∃ q u, wbit (v.getLsbD n) (setBit (Fin.ofNat 8 n) s) = (q, u) := ⟨_, _, rfl⟩
    rw [hq] at hbit hran hwork
    simp only [wbitsCode, List.cons_append, List.append_assoc]
    refine .line h.1 (hbit.trans ?_)
    cases q with
    | ok _ =>
      rw [wbits_ok (hshift ▸ hq)]
      exact ih (Granted.ran (s := setBit (Fin.ofNat 8 n) s) h hran) (by rw [hwork]; exact hshift)
    | err e =>
      rw [wbits_err (hshift ▸ hq), resume, unwind_append (inPrimitive_wbitsCode rd v n)]
      exact .refl _ _

/-- The acknowledge pulse is a bit of value 1 with SDA sampled in it (R152). -/
theorem runs_ackPulse (h : Granted c rd s) (rest : List Micro) :
    Runs c (goto (wbitCode rd true ++ .sampleAck :: rest) s)
      (goto (resume (ackPulse s).1 rest) (ackPulse s).2) := by
  have hbit := runs_wbit (s := s) true h (.sampleAck :: rest)
  obtain ⟨es, -, hran, -⟩ := wbit_spec true s
  obtain ⟨q, u, hq⟩ : ∃ q u, wbit true s = (q, u) := ⟨_, _, rfl⟩
  rw [hq] at hbit hran
  have hheld : u.lock.guard = .held c := (h.ran hran).1
  refine hbit.trans ?_
  cases q with
  | ok _ =>
    rw [ackPulse_ok hq]
    exact .line hheld (.line hheld (.line hheld (.refl _ _)))
  | err e =>
    rw [ackPulse_err hq]
    exact .refl _ _

theorem runs_wbyte (v : Byte) (h : Granted c rd s) (rest : List Micro) :
    Runs c (goto (wbyteCode rd v ++ rest) s) (goto (resume (wbyte v s).1 rest) (wbyte v s).2) := by
  have hbits := runs_wbits (s := setShift v s) 8 v h rfl (wbitCode rd true ++ .sampleAck :: rest)
  obtain ⟨es, k, -, hran, -⟩ := wbits_spec 8 (setShift v s)
  obtain ⟨q, u, hq⟩ : ∃ q u, wbits 8 (setShift v s) = (q, u) := ⟨_, _, rfl⟩
  rw [hq] at hbits hran
  have hcode : wbyteCode rd v ++ rest =
      .setShift v :: (wbitsCode rd v 8 ++ (wbitCode rd true ++ .sampleAck :: rest)) := by
    simp [wbyteCode, wbitCode, drvOf]
  rw [hcode]
  refine .line h.1 (hbits.trans ?_)
  cases q with
  | ok _ =>
    rw [wbyte_ok hq]
    exact runs_ackPulse (Granted.ran (s := setShift v s) h hran) rest
  | err e =>
    rw [wbyte_err hq, resume, unwind_append (inPrimitive_wbitCode rd true)]
    exact .refl _ _

theorem runs_rbits (n : Nat) (h : Granted c rd s) (rest : List Micro) :
    Runs c (goto (rbitsCode rd n ++ rest) s) (goto (resume (rbits n s).1 rest) (rbits n s).2) := by
  induction n generalizing s with
  | zero => exact .refl _ _
  | succ n ih =>
    have hwait := runs_sclw (s := setBit (Fin.ofNat 8 n) s) h
      (.sampleBit :: .drive .scl .low :: .half :: (rbitsCode rd n ++ rest))
    have hu := Granted.sclw (s := setBit (Fin.ofNat 8 n) s) h
    obtain ⟨q, u, hq⟩ : ∃ q u, sclw (setBit (Fin.ofNat 8 n) s) = (q, u) := ⟨_, _, rfl⟩
    rw [hq] at hwait hu
    simp only [rbitsCode, List.cons_append, List.append_assoc]
    refine .line h.1 (hwait.trans ?_)
    cases q with
    | ok _ =>
      rw [rbits_ok hq]
      exact .line hu.1 (.line hu.1 (.line hu.1 (ih hu)))
    | err e =>
      rw [rbits_err hq]
      have hskip : unwind (.sampleBit :: .drive .scl .low :: .half :: (rbitsCode rd n ++ rest)) = unwind rest :=
        unwind_append (inPrimitive_rbitsCode rd n) rest
      rw [resume, hskip]
      exact .refl _ _

theorem runs_rbyte (h : Granted c rd s) (rest : List Micro) :
    Runs c (goto (rbyteCode rd ++ rest) s) (goto (resume (rbyte s).1 rest) (rbyte s).2) := by
  have hbits := runs_rbits (s := setShift 0#8 (halfBit (drive .sda .rel s))) 8 h rest
  obtain ⟨q, u, hq⟩ : ∃ q u, rbits 8 (setShift 0#8 (halfBit (drive .sda .rel s))) = (q, u) := ⟨_, _, rfl⟩
  rw [hq] at hbits
  refine .line h.1 (.line h.1 (.line h.1 ?_))
  cases q with
  | ok _ => rw [rbyte_ok hq]; exact hbits
  | err e => rw [rbyte_err hq]; exact hbits

/-! ### The phases of a transfer -/

/-- FINISH ends with the Release, so nothing is left in STEP (R185). -/
theorem runs_finish (hheld : s.lock.guard = .held c) : Runs c (goto finishCode s) (goto [] (finish s)) := by
  have hstop := runs_stop (s := setPhase .stopped s) hheld [.setLastError, .setPhase .idle, .endTransfer]
  exact .line hheld (hstop.trans (.line hheld (.line hheld (.line hheld (.refl _ _)))))

theorem Granted.wbyte (v : Byte) (h : Granted c rd s) : Granted c rd (Machine.wbyte v s).2 := by
  obtain ⟨es, k, -, hran, -⟩ := wbyte_spec v s
  exact h.ran hran

/-- ACK is the acknowledge WBYTE returns (R152). -/
theorem wbyte_ack {v : Byte} {a : Bool} {u : State} (h : wbyte v s = (.ok a, u)) : u.work.ack = a := by
  obtain ⟨es, k, hrun, -, hwork, -⟩ := wbyte_spec v s
  rw [h] at hrun hwork
  obtain ⟨l, hsamples, hack⟩ := hrun.sdaSamples_ok
  rw [hwork, hsamples, ← hack]
  rfl

theorem wbyte_err_timeout {v : Byte} {e : Err} {u : State} (h : wbyte v s = (.err e, u)) : e = .timeout := by
  obtain ⟨es, k, hrun, -⟩ := wbyte_spec v s
  rw [h] at hrun
  exact hrun.err_timeout

theorem afterAttempt_acknowledged (h : s.work.ack = true) :
    afterAttempt s = dataCode s.regs.sclReadable s.work.msgDir s.work.msgByte := by
  rw [afterAttempt, if_pos h]

theorem afterAttempt_exhausted (h : s.work.ack = false) (hlast : s.work.attempt = s.regs.cfgRetries) :
    afterAttempt s = .setErr .noAcknowledge :: finishCode := by
  rw [afterAttempt, h, if_neg Bool.false_ne_true, if_pos hlast]

theorem afterAttempt_retry (h : s.work.ack = false) (hleft : s.work.attempt ≠ s.regs.cfgRetries) :
    afterAttempt s = stopCode ++ (startCode s.regs.sclReadable ++
      (.nextAttempt :: attemptCode s.regs.sclReadable (addressByte s.work.msgAddr s.work.msgDir))) := by
  rw [afterAttempt, h, if_neg Bool.false_ne_true, if_neg hleft]

/-- The lines after the address phase: the data phase, or the entry of its error (R178, R220). -/
def afterAddress (u : State) : Ret Unit → List Micro
  | .ok _ => dataCode u.regs.sclReadable u.work.msgDir u.work.msgByte
  | .err e => .setErr e :: finishCode

/-- A completed attempt goes on with the decision on its acknowledge (R180). -/
theorem runs_attempt_ok {ab : Byte} {a : Bool} {u : State} (h : Granted c rd s)
    (hq : wbyte ab (setPhase .addr s) = (.ok a, u)) :
    Runs c (goto (attemptCode rd ab) s) (goto (afterAttempt u) u) := by
  have hbyte := runs_wbyte (s := setPhase .addr s) ab h [.catchTransfer, .addrDecide]
  have hu := Granted.wbyte (s := setPhase .addr s) ab h
  rw [hq] at hbyte hu
  exact .line h.1 (hbyte.trans (.line hu.1 (.line hu.1 (.refl _ _))))

/-- A timed-out attempt goes to FINISH (R180, R220). -/
theorem runs_attempt_err {ab : Byte} {e : Err} {u : State} (h : Granted c rd s)
    (hq : wbyte ab (setPhase .addr s) = (.err e, u)) :
    Runs c (goto (attemptCode rd ab) s) (goto (.setErr e :: finishCode) u) := by
  have hbyte := runs_wbyte (s := setPhase .addr s) ab h [.catchTransfer, .addrDecide]
  rw [hq] at hbyte
  rw [wbyte_err_timeout hq]
  exact .line h.1 hbyte

/-- A NACK with a retry left: STOP and START, ATTEMPT is incremented, and the next attempt begins (R181). -/
theorem runs_retry (h : Granted c rd s) (hnack : s.work.ack = false) (hleft : s.work.attempt ≠ s.regs.cfgRetries) :
    Runs c (goto (afterAttempt s) s)
      (goto (attemptCode rd (addressByte s.work.msgAddr s.work.msgDir))
        (setAttempt ((start (stop s)).work.attempt + 1#32) (start (stop s)))) := by
  have hstart : Granted c rd (start (stop s)) := Granted.start (s := stop s) h
  rw [afterAttempt_retry hnack hleft, h.2]
  exact (runs_stop h.1 _).trans ((runs_start (s := stop s) h _).trans (.line hstart.1 (.refl _ _)))

/-- What a retry is listed for is the same after `t` as after `s` (R181). -/
structure SameAttempt (s t : State) : Prop where
  regs : t.regs = s.regs
  msgAddr : t.work.msgAddr = s.work.msgAddr
  msgDir : t.work.msgDir = s.work.msgDir
  attempt : t.work.attempt = s.work.attempt

theorem wbyte_sameAttempt (v : Byte) (s : State) : SameAttempt s (wbyte v s).2 := by
  obtain ⟨es, k, -, hran, hwork, -⟩ := wbyte_spec v s
  exact ⟨hran.regs, by rw [hwork], by rw [hwork], by rw [hwork]⟩

theorem start_sameAttempt (s : State) : SameAttempt s (start s) := by
  obtain ⟨es, _, -, hran, -, hwork⟩ := start_spec s
  exact ⟨hran.regs, by rw [hwork], by rw [hwork], by rw [hwork]⟩

/-- The address phase: `n` is what is left of CFG_RETRIES after ATTEMPT (log 20). -/
theorem runs_addressPhase {s : State} (n : Nat) {ab : Byte} (h : Granted c rd s)
    (hab : addressByte s.work.msgAddr s.work.msgDir = ab)
    (hn : s.work.attempt.toNat + n = s.regs.cfgRetries.toNat) :
    Runs c (goto (attemptCode rd ab) s)
      (goto (afterAddress (addressPhase n ab s).2 (addressPhase n ab s).1) (addressPhase n ab s).2) := by
  have hu := Granted.wbyte (s := setPhase .addr s) ab h
  obtain ⟨hregs, haddr, hdir, hattempt⟩ := wbyte_sameAttempt ab (setPhase .addr s)
  obtain ⟨q, u, hq⟩ : ∃ q u, wbyte ab (setPhase .addr s) = (q, u) := ⟨_, _, rfl⟩
  rw [hq] at hu hregs haddr hdir hattempt
  replace hn : u.work.attempt.toNat + n = u.regs.cfgRetries.toNat := by rw [hattempt, hregs]; exact hn
  match q, n with
  | .err e, n =>
    rw [addressPhase_err hq]
    exact runs_attempt_err h hq
  | .ok true, n =>
    rw [addressPhase_ack hq]
    have hrun := runs_attempt_ok h hq
    rwa [afterAttempt_acknowledged (wbyte_ack hq)] at hrun
  | .ok false, 0 =>
    have hlast : u.work.attempt = u.regs.cfgRetries := BitVec.eq_of_toNat_eq hn
    have hrun := runs_attempt_ok h hq
    rw [afterAttempt_exhausted (wbyte_ack hq) hlast] at hrun
    rwa [addressPhase_last_nack hq]
  | .ok false, n + 1 =>
    have hlt : u.work.attempt.toNat < u.regs.cfgRetries.toNat := by omega
    have hleft : u.work.attempt ≠ u.regs.cfgRetries := fun heq => hlt.ne (congrArg _ heq)
    have hbyte : addressByte u.work.msgAddr u.work.msgDir = ab := by rw [haddr, hdir]; exact hab
    have hretry := runs_retry hu (wbyte_ack hq) hleft
    obtain ⟨sregs, saddr, sdir, sattempt⟩ := start_sameAttempt (stop u)
    rw [addressPhase_nack hq]
    rw [hbyte] at hretry
    refine (runs_attempt_ok h hq).trans (hretry.trans (runs_addressPhase n ?_ ?_ ?_))
    · exact Granted.start (s := stop u) hu
    · rw [setAttempt_work, saddr, sdir]; exact hbyte
    · rw [setAttempt_work, setAttempt_regs, sregs, sattempt]
      calc (u.work.attempt + 1#32).toNat + n
          = u.work.attempt.toNat + 1 + n := by rw [toNat_succ_attempt (decide_eq_true hlt)]
        _ = u.regs.cfgRetries.toNat := by omega

/-- The write data phase (R182). -/
theorem runs_writePhase (h : Granted c rd s) :
    Runs c (goto (wbyteCode rd s.work.msgByte ++ .catchTransfer :: .writeDecide :: finishCode) s)
      (goto finishCode (writePhase s)) := by
  have hbyte := runs_wbyte s.work.msgByte h (.catchTransfer :: .writeDecide :: finishCode)
  have hu := h.wbyte s.work.msgByte
  obtain ⟨q, u, hq⟩ : ∃ q u, wbyte s.work.msgByte s = (q, u) := ⟨_, _, rfl⟩
  rw [hq] at hbyte hu
  refine hbyte.trans ?_
  match q with
  | .err e =>
    rw [writePhase_err hq, wbyte_err_timeout hq]
    exact .line hu.1 (.refl _ _)
  | .ok true =>
    rw [writePhase_ack hq]
    refine .line hu.1 (.line hu.1 ?_)
    rw [runLine_writeDecide_ack (wbyte_ack hq)]
    exact .refl _ _
  | .ok false =>
    rw [writePhase_nack hq]
    refine .line hu.1 (.line hu.1 ?_)
    rw [runLine_writeDecide_nack (wbyte_ack hq)]
    exact .refl _ _

theorem Granted.rbyte (h : Granted c rd s) : Granted c rd (Machine.rbyte s).2 := by
  obtain ⟨_, es, _, _, -, hran, -⟩ := rbyte_spec s
  exact h.ran hran

/-- The value RBYTE returns is in SHIFT (R155). -/
theorem rbyte_shift {b : Byte} {u : State} (h : rbyte s = (.ok b, u)) : u.work.shift = b := by
  obtain ⟨q, w, hq⟩ : ∃ q w, rbits 8 (setShift 0#8 (halfBit (drive .sda .rel s))) = (q, w) := ⟨_, _, rfl⟩
  cases q with
  | ok _ => cases (rbyte_ok hq).symm.trans h; rfl
  | err e => cases (rbyte_err hq).symm.trans h

theorem rbyte_err_timeout {e : Err} {u : State} (h : rbyte s = (.err e, u)) : e = .timeout := by
  obtain ⟨_, es, q, _, -, -, -, -, -, hq⟩ := rbyte_spec s
  rw [h] at hq
  cases q with
  | ok _ => cases hq.1
  | err _ => cases hq.2.1; rfl

/-- The read data phase (R183). -/
theorem runs_readPhase (h : Granted c rd s) :
    Runs c (goto (rbyteCode rd ++ .catchTransfer :: .takeByte :: (fnackCode ++ finishCode)) s)
      (goto finishCode (readPhase s)) := by
  have hbyte := runs_rbyte h (.catchTransfer :: .takeByte :: (fnackCode ++ finishCode))
  have hu := h.rbyte
  obtain ⟨q, u, hq⟩ : ∃ q u, rbyte s = (q, u) := ⟨_, _, rfl⟩
  rw [hq] at hbyte hu
  refine hbyte.trans ?_
  cases q with
  | err e =>
    rw [readPhase_err hq, rbyte_err_timeout hq]
    exact .line hu.1 (.refl _ _)
  | ok b =>
    obtain rfl := rbyte_shift hq
    rw [readPhase_ok hq]
    exact .line hu.1 (.line hu.1 (runs_fnack (s := setMsgByte u.work.shift u) hu.1 finishCode))

/-- The data phase of the message's direction (R178). -/
theorem runs_dataPhase (h : Granted c rd s) :
    Runs c (goto (dataCode rd s.work.msgDir s.work.msgByte) s) (goto finishCode (dataPhase s)) := by
  refine .line h.1 ?_
  by_cases hdir : s.work.msgDir = 0#1
  · have hphase : dataPhase s = writePhase (setPhase .data s) := if_pos hdir
    rw [if_pos hdir, hphase]
    exact runs_writePhase (s := setPhase .data s) h
  · have hphase : dataPhase s = readPhase (setPhase .data s) := if_neg hdir
    rw [if_neg hdir, hphase]
    exact runs_readPhase (s := setPhase .data s) h

theorem Granted.addressPhase (n : Nat) (ab : Byte) (h : Granted c rd s) :
    Granted c rd (Machine.addressPhase n ab s).2 := by
  obtain ⟨_, es, _, -, hran, -⟩ := addressPhase_spec n ab s
  exact ⟨hran.lock ▸ h.1, hran.regs ▸ h.2⟩

/-- The phases between START and FINISH (R178). -/
theorem runs_phases (h : Granted c rd s) :
    Runs c
      (goto (if s.regs.addressed s.work.msgDir then
          .clearAttempt :: attemptCode rd (addressByte s.work.msgAddr s.work.msgDir)
        else dataCode rd s.work.msgDir s.work.msgByte) s)
      (goto finishCode (phases s)) := by
  cases haddressed : s.regs.addressed s.work.msgDir with
  | false =>
    rw [phases_unaddressed haddressed]
    exact runs_dataPhase h
  | true =>
    have hrun := runs_addressPhase (s := setAttempt 0#32 s) s.regs.cfgRetries.toNat h rfl (Nat.zero_add _)
    have hu := Granted.addressPhase (s := setAttempt 0#32 s) s.regs.cfgRetries.toNat
      (addressByte s.work.msgAddr s.work.msgDir) h
    obtain ⟨q, u, hq⟩ : ∃ q u, addressPhase s.regs.cfgRetries.toNat
      (addressByte s.work.msgAddr s.work.msgDir) (setAttempt 0#32 s) = (q, u) := ⟨_, _, rfl⟩
    rw [setAttempt_work, hq] at hrun
    rw [hq] at hu
    refine .line h.1 (hrun.trans ?_)
    cases q with
    | ok _ =>
      rw [phases_acknowledged haddressed hq, afterAddress, hu.2]
      exact runs_dataPhase hu
    | err e =>
      rw [phases_failed haddressed hq]
      exact .line hu.1 (.refl _ _)

theorem Granted.phases (h : Granted c rd s) (hclear : s.work.err = none) : Granted c rd (Machine.phases s) := by
  obtain ⟨es, _, _, _, _, hran, -⟩ := phases_spec s hclear
  exact ⟨hran.lock ▸ h.1, hran.regs ▸ h.2⟩

/-! ### Whole commands -/

theorem granted_acquire (s : State) : Granted s.host.issuer s.regs.sclReadable (acquire s) := ⟨rfl, rfl⟩

theorem runs_transfer (addr : BitVec 16) (dir : BitVec 1) (byte : Byte) (s : State) :
    Runs s.host.issuer (goto (transferCode s.regs addr dir byte) (acquire s)) (goto [] (transfer addr dir byte s)) := by
  have hloaded : Granted s.host.issuer s.regs.sclReadable
      (setPhase .started (loadMessage addr dir byte (acquire s))) := granted_acquire s
  obtain ⟨es, _, -, hran, -, hwork⟩ := start_spec (setPhase .started (loadMessage addr dir byte (acquire s)))
  have hstarted := hloaded.ran hran
  have hended := hstarted.phases (by rw [hwork]; rfl)
  have hphases := runs_phases hstarted
  rw [hran.regs, hwork] at hphases
  exact .line rfl (.line rfl ((runs_start hloaded _).trans (hphases.trans (runs_finish hended.1))))

/-- A micro-op ends with its result word, whether its primitive returned or timed out (R223, R227). -/
theorem runs_endMicro {α : Type} {q : Ret α} {k : ResKind} {w : Word} (hheld : s.lock.guard = .held c)
    (hok : ∀ v, q = .ok v → microRes k s = w) (herr : ∀ e, q = .err e → microRes .timedOut s = w) :
    Runs c (goto (resume q [.catchMicro, .endMicro k]) s) (goto [] (release w s)) := by
  cases q with
  | ok v =>
    obtain rfl := hok v rfl
    exact .line hheld (.line hheld (.refl _ _))
  | err e =>
    obtain rfl := herr e rfl
    exact .line hheld (.refl _ _)

/-- From its Acquire every command runs to the state its meaning gives. -/
theorem runs_command (i : Instr) (s : State) :
    Runs s.host.issuer (beginCommand i s) (goto [] (runCommand i s)) := by
  have h := granted_acquire s
  cases i with
  | xferW addr byte => exact runs_transfer addr 0#1 byte s
  | xferR addr init => exact runs_transfer addr 1#1 init s
  | sclw =>
    obtain ⟨es, hran, hrun, -⟩ := sclw_spec (acquire s)
    refine (runs_sclw h _).trans (runs_endMicro (h.ran hran).1 (fun v hv => ?_) (fun e he => ?_))
    · rw [hv]; rfl
    · rw [he] at hrun ⊢; rw [hrun.err_timeout]; rfl
  | start => exact (runs_start h _).trans (.line (Granted.start h).1 (.refl _ _))
  | stop => exact (runs_stop h.1 _).trans (.line h.1 (.refl _ _))
  | fnack => exact (runs_fnack h.1 _).trans (.line h.1 (.refl _ _))
  | wbit b =>
    obtain ⟨es, hrun, hran, -⟩ := wbit_spec (b.getLsbD 0) (acquire s)
    refine (runs_wbit _ h _).trans (runs_endMicro (h.ran hran).1 (fun v hv => ?_) (fun e he => ?_))
    · rw [hv]; rfl
    · rw [he] at hrun ⊢; rw [hrun.err_timeout]; rfl
  | wbyte v =>
    refine (runs_wbyte v h _).trans (runs_endMicro (h.wbyte v).1 (fun a ha => ?_) (fun e he => ?_))
    · rw [microRes, wbyte_ack (Prod.ext ha rfl), ha, ackRes]
    · rw [he, wbyte_err_timeout (Prod.ext he rfl)]; rfl
  | rbyte =>
    refine (runs_rbyte h _).trans (runs_endMicro h.rbyte.1 (fun b hb => ?_) (fun e he => ?_))
    · rw [microRes, rbyte_shift (Prod.ext hb rfl), hb, byteRes]
    · rw [he, rbyte_err_timeout (Prod.ext he rfl)]; rfl

/-- A command run whole leaves STEP as it found it. -/
theorem runCommand_pos (i : Instr) (hfree : s.lock.guard = .free) : (runCommand i s).seq.pos = s.seq.pos := by
  cases hi : isTransfer i with
  | true =>
    obtain ⟨⟨es, e, m, hran⟩, -⟩ := runCommand_transferRan hi hfree
    rw [hran.seq]
  | false =>
    obtain ⟨⟨es, res, hran⟩, -⟩ := runCommand_microRan hi hfree
    rw [hran.seq]

theorem goto_nil (hpos : s.seq.pos = []) : goto [] s = s := by
  rw [← hpos]
  rfl

end Running

/-- Settles O49: the lines of a command run to its meaning with no line left, which is where its meaning leaves STEP. -/
theorem linesRunToTheMeaning : Obligations.LinesRunToTheMeaning := by
  intro i s t hfree hpos hexec
  rw [exec_free i hfree] at hexec
  obtain rfl := Host.Outcome.next.inj hexec
  have hrun := runs_command i s
  rwa [goto_nil ((runCommand_pos i hfree).trans hpos)] at hrun

end Sys2Proof.Proofs.Grains
end

section
/-! The guard (R62 to R65, R193, R194, R231): the trace agrees with it, one event at a time while it is held, who waits
for it, and who may get it. -/

namespace Sys2Proof.Proofs.Guard

open Sys2Proof Sys2Proof.Machine Sys2Proof.Safety Sys2Proof.Proofs.Registers Sys2Proof.Proofs.Grains

/-! ### The holder after a trace -/

theorem guardAfter_append (h : Option Nat) (es fs : List Event) :
    guardAfter h (es ++ fs) = (guardAfter h es).bind fun h' => guardAfter h' fs := by
  induction es generalizing h with
  | nil => rfl
  | cons e es ih =>
    cases h with
    | none => cases e <;> simp [guardAfter, ih]
    | some d =>
      cases e with
      | release c => by_cases hc : c = d <;> simp [guardAfter, ih, hc]
      | _ => simp [guardAfter, ih]

/-- The events of a command between its Acquire and its Release. -/
def isInner : Event → Bool
  | .acquire _ => false
  | .release _ => false
  | _ => true

theorem guardAfter_inner (c : Nat) {e : Event} (he : isInner e = true) : guardAfter (some c) [e] = some (some c) := by
  cases e with
  | acquire | release => cases he
  | drive | sample | delayUs | now | sleepTicks => rfl

theorem guardAfter_release (c : Nat) : guardAfter (some c) [.release c] = some none := by
  simp [guardAfter]

/-! ### What keeps the trace in agreement with the guard -/

section Agreement

variable {s t : State}

theorem traceOk_silent (h : TraceOk s) (htrace : t.trace = s.trace) (hguard : t.lock.guard = s.lock.guard)
    (hissuer : t.host.issuer = s.host.issuer) : TraceOk t :=
  ⟨by rw [htrace, hguard]; exact h.guard, by rw [hguard, hissuer]; exact h.issuer⟩

/-- While the guard is free it does not matter who the issuing caller is. -/
theorem traceOk_silent_free (h : TraceOk s) (hfree : s.lock.guard = .free) (htrace : t.trace = s.trace)
    (hstill : t.lock.guard = .free) : TraceOk t :=
  ⟨by rw [htrace, hstill, ← hfree]; exact h.guard, fun _ hc => nomatch hstill.symm.trans hc⟩

/-- An event of the running command. -/
theorem traceOk_inner {c : Nat} (h : TraceOk s) (hheld : s.lock.guard = .held c) {e : Event} (he : isInner e = true)
    (htrace : t.trace = s.trace ++ [e]) (hguard : t.lock.guard = s.lock.guard)
    (hissuer : t.host.issuer = s.host.issuer) : TraceOk t := by
  refine ⟨?_, by rw [hguard, hissuer]; exact h.issuer⟩
  rw [htrace, guardAfter_append, h.guard, hguard, hheld]
  exact guardAfter_inner c he

/-- The holder is the issuing caller, so what it releases is its own guard (R62). -/
theorem traceOk_release {c : Nat} (h : TraceOk s) (hheld : s.lock.guard = .held c) (res : Word) :
    TraceOk (release res s) := by
  refine ⟨?_, fun _ hd => nomatch hd⟩
  rw [release_trace, guardAfter_append, h.guard, hheld, h.issuer c hheld]
  exact guardAfter_release c

/-- The guard is acquired only when it is free (R13). -/
theorem traceOk_acquire (h : TraceOk s) (hfree : s.lock.guard = .free) : TraceOk (acquire s) := by
  refine ⟨?_, fun _ hc => Guard.held.inj hc⟩
  rw [acquire_trace, guardAfter_append, h.guard, hfree]
  rfl

theorem traceOk_goto (h : TraceOk s) (rest : List Micro) : TraceOk (goto rest s) := traceOk_silent h rfl rfl rfl

theorem traceOk_beginCommand (i : Instr) (h : TraceOk s) (hfree : s.lock.guard = .free) : TraceOk (beginCommand i s) :=
  traceOk_goto (traceOk_acquire h hfree) _

/-- A line of the running command is silent, an event of the command, or its Release. -/
theorem traceOk_runLine {c : Nat} (h : TraceOk s) (hheld : s.lock.guard = .held c) (m : Micro) (rest : List Micro) :
    TraceOk (runLine m rest s) := by
  cases m with
  | endMicro k => exact traceOk_goto (traceOk_release h hheld _) rest
  | endTransfer => exact traceOk_goto (traceOk_release h hheld _) rest
  | drive l d => exact traceOk_inner h hheld (e := .drive l d) rfl rfl rfl rfl
  | half => exact traceOk_inner h hheld (e := .delayUs s.regs.cfgHalf) rfl rfl rfl rfl
  | nowT0 => exact traceOk_inner h hheld (e := .now s.env.laterTick) rfl rfl rfl rfl
  | sleepPoll => exact traceOk_inner h hheld (e := .sleepTicks s.regs.poll) rfl rfl rfl rfl
  | sampleAck | sampleBit => exact traceOk_inner h hheld (e := .sample .sda (sampled .sda s)) rfl rfl rfl rfl
  | pollScl =>
    simp only [runLine]
    split <;> exact traceOk_inner h hheld (e := .sample .scl (sampled .scl s)) rfl rfl rfl rfl
  | checkTime =>
    simp only [runLine]
    split <;> exact traceOk_inner h hheld (e := .now (checkTick s)) rfl rfl rfl rfl
  | writeDecide =>
    simp only [runLine]
    split <;> exact traceOk_silent h rfl rfl rfl
  | setShift | setBit | setAck | loadMessage | setPhase | clearAttempt | nextAttempt | addrDecide | takeByte | setErr
  | setLastError | catchIgnore | catchMicro | catchTransfer => exact traceOk_silent h rfl rfl rfl

theorem traceOk_tick {c : Nat} (h : TraceOk s) (hheld : s.lock.guard = .held c) : TraceOk (tick s) := by
  cases hpos : s.seq.pos with
  | nil => rwa [tick, hpos]
  | cons m rest =>
    rw [tick_cons hpos]
    exact traceOk_runLine h hheld m rest

/-- Lines run with the guard held to the last. -/
theorem traceOk_runs {c : Nat} (h : TraceOk s) (hruns : Runs c s t) : TraceOk t := by
  obtain ⟨n, rfl, hheld⟩ := hruns
  induction n generalizing s with
  | zero => exact h
  | succ n ih =>
    exact ih (traceOk_tick h (hheld 0 (Nat.succ_pos n))) fun m hm => hheld (m + 1) (Nat.succ_lt_succ hm)

/-- A command run whole comes to what its lines come to one by one, so it too keeps the agreement. -/
theorem traceOk_runCommand (i : Instr) (h : TraceOk s) (hfree : s.lock.guard = .free) : TraceOk (runCommand i s) :=
  traceOk_silent (traceOk_runs (traceOk_beginCommand i h hfree) (runs_command i s)) rfl rfl rfl

/-! ### The moves of a step -/

theorem traceOk_callerMove (h : TraceOk s) : TraceOk (callerMove s) := by
  rcases callerMove_cases s with hmove | ⟨r, rest, -, -, ⟨why, -, hmove⟩ | ⟨i, -, hmove⟩⟩ <;> rw [hmove]
  · exact h
  · exact traceOk_silent h rfl rfl rfl
  · exact traceOk_silent h rfl rfl rfl

theorem traceOk_engineMove (h : TraceOk s) (hmove : engineMove s = .next t) : TraceOk t := by
  rcases engineMove_cases hmove with ⟨c, m, rest, hheld, -, rfl⟩ | ⟨-, -, rfl⟩ | ⟨w, ws, hfree, -, rfl⟩
  · exact traceOk_runLine h hheld m rest
  · exact h
  · exact traceOk_beginCommand _ (traceOk_silent_free h hfree rfl hfree) hfree

/-- What is fetched to run whole has emitted nothing yet and has not the guard yet. -/
theorem traceOk_fetch_command {i : Instr} (h : TraceOk s) (hfree : s.lock.guard = .free)
    (hfetch : fetch s = .command i t) : TraceOk t ∧ t.lock.guard = .free := by
  rcases fetch_cases s with
    ⟨-, -, hf⟩ | ⟨w, ws, -, hf⟩ | ⟨r, rest, -, -, ⟨why, -, hf⟩ | ⟨j, -, hf⟩⟩ <;> cases hf.symm.trans hfetch
  · exact ⟨traceOk_silent_free h hfree rfl hfree, hfree⟩
  · exact ⟨traceOk_silent_free h hfree rfl hfree, hfree⟩

theorem traceOk_fetch_refused (h : TraceOk s) (hfetch : fetch s = .refused t) : TraceOk t := by
  rcases fetch_cases s with
    ⟨-, -, hf⟩ | ⟨w, ws, -, hf⟩ | ⟨r, rest, -, -, ⟨why, -, hf⟩ | ⟨j, -, hf⟩⟩ <;> cases hf.symm.trans hfetch
  exact traceOk_silent h rfl rfl rfl

theorem traceOk_turns (h : TraceOk s) (ts : List Turn) : TraceOk { s with host := { s.host with turns := ts } } :=
  traceOk_silent h rfl rfl rfl

end Agreement

/-- Settles O50, one kind of step at a time. -/
theorem commandsNeverInterleave : Obligations.CommandsNeverInterleave := by
  intro s t h hstep
  rcases step_cases hstep with ⟨-, -, rfl⟩ | ⟨ts, -, rfl⟩ | ⟨ts, -, hmove⟩ | ⟨c, -, -, hmove⟩ | ⟨-, -, -, rfl⟩ |
    ⟨-, -, hfetch⟩ | ⟨i, u, -, hfree, hfetch, hexec⟩
  · exact h
  · exact traceOk_callerMove (traceOk_turns h ts)
  · exact traceOk_engineMove (traceOk_turns h ts) hmove
  · exact traceOk_engineMove h hmove
  · exact h
  · exact traceOk_fetch_refused h hfetch
  · obtain ⟨hu, hguard⟩ := traceOk_fetch_command h hfree hfetch
    rw [exec_free i hguard] at hexec
    obtain rfl := Host.Outcome.next.inj hexec
    exact traceOk_runCommand i hu hguard

/-! ### One event at a time -/

theorem callerMove_trace (s : State) : (callerMove s).trace = s.trace := by
  rcases callerMove_cases s with hmove | ⟨r, rest, -, -, ⟨why, -, hmove⟩ | ⟨i, -, hmove⟩⟩ <;> rw [hmove]

theorem lineRan_one_event {s t : State} (h : LineRan s t) : t.trace = s.trace ∨ ∃ e, t.trace = s.trace ++ [e] := by
  obtain ⟨es, hlength, htrace⟩ := h.trace
  match es, hlength with
  | [], _ => exact .inl (by rw [htrace, List.append_nil])
  | [e], _ => exact .inr ⟨e, htrace⟩

/-- With the guard held a move of the engine is a line of the running command. -/
theorem lineRan_engineMove_held {s t : State} {c : Nat} (hheld : s.lock.guard = .held c)
    (hmove : engineMove s = .next t) : LineRan s t := by
  rcases engineMove_cases hmove with ⟨_, m, rest, -, -, rfl⟩ | ⟨hfree, -⟩ | ⟨_, _, hfree, -⟩
  · exact runLine_ran m rest s
  · cases hheld.symm.trans hfree
  · cases hheld.symm.trans hfree

/-- Settles O52: with the guard held a step is a caller's move, which emits nothing, or a line of the command. -/
theorem oneEventAtATime : Obligations.OneEventAtATime := by
  intro s t c hheld hstep
  rcases step_cases hstep with ⟨-, -, rfl⟩ | ⟨ts, -, rfl⟩ | ⟨ts, -, hmove⟩ | ⟨_, -, -, hmove⟩ | ⟨-, hfree, -⟩ |
    ⟨-, hfree, -⟩ | ⟨i, u, -, hfree, -⟩
  · exact .inl rfl
  · exact .inl (callerMove_trace _)
  · exact (lineRan_one_event (lineRan_engineMove_held (by exact hheld) hmove) :)
  · exact lineRan_one_event (lineRan_engineMove_held hheld hmove)
  all_goals cases hheld.symm.trans hfree

/-! ### Issuing a command -/

theorem blocked_eq_true_iff {c : Nat} {s : State} :
    blocked c s = true ↔ s.lock.guard = .held c ∨ ∃ w ∈ s.lock.waiters, w.caller = c := by
  simp [blocked]

section Issue

variable {s : State} {r : Request} {rest : List Request}

/-- A blocked caller's word stays in the port (log 10). -/
theorem callerMove_blocked (hport : s.host.port = r :: rest) (hblocked : blocked r.caller s = true) :
    callerMove s = s := by
  simp only [callerMove, hport, hblocked, if_true]

/-- A word that decodes waits (R194). -/
theorem callerMove_ok {i : Instr} (hport : s.host.port = r :: rest) (hblocked : blocked r.caller s = false)
    (hdecode : decode r.word = .ok i) :
    callerMove s =
      { s with
        host := { s.host with port := rest }
        lock := { s.lock with waiters := s.lock.waiters ++ [{ caller := r.caller, command := i }] } } := by
  simp only [callerMove, hport, hblocked, hdecode, Bool.false_eq_true, if_false]

/-- A word that does not is answered at once (R93). -/
theorem callerMove_refused {why : Reject} (hport : s.host.port = r :: rest) (hblocked : blocked r.caller s = false)
    (hdecode : decode r.word = .refused why) :
    callerMove s = refuseWord r.caller why { s with host := { s.host with port := rest } } := by
  simp only [callerMove, hport, hblocked, hdecode, Bool.false_eq_true, if_false]

end Issue

/-- On a bus that exists the first listed move is the next step. -/
theorem step_scheduled {s : State} {x : Turn} {ts : List Turn} (hcreated : s.host.created = true)
    (hturns : s.host.turns = x :: ts) : step s = scheduled x { s with host := { s.host with turns := ts } } := by
  simp only [step, stepBus, hcreated, hturns, if_true]

/-- Settles O53: run whole a command waits where the guard is held, and at the port a word waits, is refused or stays, by
what it decodes to and whether its caller is blocked. -/
theorem commandsWaitWhileTheGuardIsHeld : Obligations.CommandsWaitWhileTheGuardIsHeld := by
  refine ⟨fun i s c hheld _ => exec_held i hheld, fun s c r rest ts hcreated hturns hport hheld => ?_⟩
  obtain ⟨u, hu⟩ : ∃ u : State, u = { s with host := { s.host with turns := ts } } := ⟨_, rfl⟩
  have hmove : step s = .next (callerMove u) := hu ▸ step_scheduled hcreated hturns
  have hport' : u.host.port = r :: rest := hu ▸ hport
  have hblocked : blocked r.caller u = true ↔ r.caller = c ∨ ∃ w ∈ s.lock.waiters, w.caller = r.caller := by
    rw [blocked_eq_true_iff, hu, hheld, Guard.held.injEq, eq_comm]
  refine ⟨fun hother hnew => ?_, fun hwaits => ?_⟩
  · have hfree : blocked r.caller u = false := by
      rw [← Bool.not_eq_true, hblocked]
      rintro (hsame | ⟨w, hw, hsame⟩)
      · exact hother hsame
      · exact hnew w hw hsame
    refine ⟨fun i hdecode => ?_, fun why hdecode => ?_⟩
    · rw [hmove, callerMove_ok hport' hfree hdecode, hu]
    · rw [hmove, callerMove_refused hport' hfree hdecode, hu, refuseWord]
  · rw [hmove, callerMove_blocked hport' (hblocked.mpr hwaits), hu]

/-! ### Granting the free guard -/

/-- With the guard free and somebody waiting a move of the engine is the grant. -/
theorem engineMove_grant {s : State} {w : Waiter} {ws : List Waiter} (hfree : s.lock.guard = .free)
    (hwaiters : s.lock.waiters = w :: ws) :
    engineMove s = .next (beginCommand (takeWaiter w ws s).1.command (takeWaiter w ws s).2) := by
  simp only [engineMove, hfree, hwaiters]

/-- Where the mutex chooses place `k` among the waiters, the waiter there is taken and the others wait on (R65.4). -/
theorem takeWaiter_chosen {s : State} {w v : Waiter} {ws : List Waiter} {k : Nat} {g : List Nat}
    (hk : (w :: ws)[k]? = some v) (hgrant : s.env.grantIn = k :: g) :
    (takeWaiter w ws s).1 = v ∧ (takeWaiter w ws s).2.lock.waiters = (w :: ws).eraseIdx k := by
  obtain ⟨hlt, -⟩ := List.getElem?_eq_some_iff.mp hk
  have hchoice : s.env.grantChoice % (ws.length + 1) = k := by
    rw [Env.grantChoice, hgrant]
    exact Nat.mod_eq_of_lt hlt
  refine ⟨?_, ?_⟩
  · simp only [takeWaiter, hchoice, List.getD_eq_getElem?_getD, hk, Option.getD_some]
  · simp only [takeWaiter, hchoice]

/-- Settles O54: the choice of the mutex is the waiter's place in the list. -/
theorem anyWaiterMayBeGranted : Obligations.AnyWaiterMayBeGranted := by
  intro s k v g ts hcreated hturns hfree hk hgrant
  cases hwaiters : s.lock.waiters with
  | nil => rw [hwaiters] at hk; cases hk
  | cons w ws =>
    rw [hwaiters] at hk
    have hmove := (step_scheduled hcreated hturns).trans (engineMove_grant (by exact hfree) hwaiters)
    obtain ⟨hchosen, hrest⟩ :=
      takeWaiter_chosen (s := { s with host := { s.host with turns := ts } }) hk (by exact hgrant)
    have hissuer := congrArg Waiter.caller hchosen
    rw [hchosen] at hmove
    exact ⟨_, hmove, congrArg Guard.held hissuer, hrest, hissuer, congrArg (fun c => s.trace ++ [.acquire c]) hissuer,
      rfl, rfl, rfl, rfl, rfl⟩

/-! ### Several buses -/

theorem stepAt_eq_next {buses next : List State} {k : Nat} (h : stepAt k buses = .next next) :
    next = buses ∨ ∃ t, next = buses.set k t := by
  rw [stepAt] at h
  split at h
  · exact .inl (Host.Outcome.next.inj h).symm
  · split at h
    · rename_i t _
      exact .inr ⟨t, (Host.Outcome.next.inj h).symm⟩
    · cases h
    · cases h

/-- Settles O55: a step at a place of the list sets at most that place. -/
theorem busesAreIndependent : Obligations.BusesAreIndependent := by
  intro buses next k j hstep hj
  rcases stepAt_eq_next hstep with rfl | ⟨t, rfl⟩
  · rfl
  · exact List.getElem?_set_ne hj.symm

end Sys2Proof.Proofs.Guard
end

section
/-! Samples (R61): no command samples a line its own driver holds low. Each primitive's events are such from whatever
driver states it starts in. -/

namespace Sys2Proof.Proofs.Samples

open Sys2Proof Sys2Proof.Machine Sys2Proof.Safety

/-- These events sample only released lines, from whatever driver states they start in (R61). -/
def SamplesSafely (es : List Event) : Prop := ∀ x : Lines, samplesReleased x es = true

theorem samplesReleased_append {x : Lines} {es fs : List Event} (h : samplesReleased x es = true)
    (k : SamplesSafely fs) : samplesReleased x (es ++ fs) = true := by
  induction es generalizing x with
  | nil => exact k x
  | cons e es ih =>
    cases e with
    | sample l v =>
      obtain ⟨hrel, h⟩ := Bool.and_eq_true_iff.mp h
      exact Bool.and_eq_true_iff.mpr ⟨hrel, ih h⟩
    | drive | delayUs | now | sleepTicks | acquire | release => exact ih h

theorem SamplesSafely.append {es fs : List Event} (h : SamplesSafely es) (k : SamplesSafely fs) :
    SamplesSafely (es ++ fs) :=
  fun x => samplesReleased_append (h x) k

section Primitives

variable {r : NumRegs} {es : List Event}

/-- SCLW releases SCL before it samples it, and leaves SDA's driver alone (R116). -/
theorem samplesReleased_sclwRun {q : Ret Unit} (h : SclwRun r es q) (x : Lines) (fs : List Event) :
    samplesReleased x (es ++ fs) = samplesReleased { x with scl := .rel } fs := by
  cases h <;> rfl

theorem samplesSafely_sclwRun {q : Ret Unit} (h : SclwRun r es q) : SamplesSafely es :=
  fun x => List.append_nil es ▸ samplesReleased_sclwRun h x []

theorem samplesSafely_startEvents {q : Ret Unit} (h : SclwRun r es q) : SamplesSafely (startEvents r es) :=
  fun x => samplesReleased_sclwRun h { x with sda := .rel } _

theorem samplesSafely_stopEvents (r : NumRegs) : SamplesSafely (stopEvents r) := fun _ => rfl

theorem samplesSafely_fnackEvents (r : NumRegs) : SamplesSafely (fnackEvents r) := fun _ => rfl

theorem samplesSafely_bitSetup (r : NumRegs) (b : Bool) : SamplesSafely (bitSetup r b) := fun _ => rfl

theorem samplesSafely_writeBits {v : Byte} {n : Nat} {q : Ret Unit} (h : WriteBits r v n es q) : SamplesSafely es := by
  induction h with
  | done => exact fun _ => rfl
  | bit hwait _ ih => exact (samplesSafely_bitSetup r _).append ((samplesSafely_sclwRun hwait).append ih)
  | timeout hwait => exact (samplesSafely_bitSetup r _).append (samplesSafely_sclwRun hwait)

/-- SDA is released for the acknowledge that is sampled (R152). -/
theorem samplesSafely_acknowledge {q : Ret Unit} (h : SclwRun r es q) (a : Level) :
    SamplesSafely (bitSetup r true ++ (es ++ [.sample .sda a, .drive .scl .low])) :=
  fun _ => samplesReleased_sclwRun h { sda := .rel, scl := .low } _

theorem samplesSafely_byteWrite {v : Byte} {q : Ret Bool} (h : ByteWrite r v es q) : SamplesSafely es := by
  cases h with
  | bitTimeout hbits => exact samplesSafely_writeBits hbits
  | ackTimeout hbits hwait =>
    exact (samplesSafely_writeBits hbits).append ((samplesSafely_bitSetup r true).append (samplesSafely_sclwRun hwait))
  | acknowledge a hbits hwait => exact (samplesSafely_writeBits hbits).append (samplesSafely_acknowledge hwait a)

/-- RBYTE's bits are sampled with SDA released before them, which no bit changes (R155). -/
theorem samplesReleased_readBits {n : Nat} {vs : List Level} {q : Ret Unit} (h : ReadBits r n vs es q) {x : Lines}
    (hx : x.sda = .rel) : samplesReleased x es = true := by
  induction h generalizing x with
  | done => rfl
  | bit v hwait _ ih =>
    rw [samplesReleased_sclwRun hwait]
    exact Bool.and_eq_true_iff.mpr ⟨beq_iff_eq.mpr hx, ih hx⟩
  | timeout hwait => exact samplesSafely_sclwRun hwait x

theorem samplesSafely_byteRead {vs : List Level} {q : Ret Unit} (h : ByteRead r vs es q) : SamplesSafely es := by
  obtain ⟨fs, hbits, rfl⟩ := h
  exact fun x => samplesReleased_readBits (x := { x with sda := .rel }) hbits rfl

/-! ### Transfers -/

theorem samplesSafely_addressRun {ab : Byte} {n k : Nat} {q : Ret Unit} (h : AddressRun r ab n k es q) :
    SamplesSafely es := by
  induction h with
  | acknowledged hbyte | timeout hbyte | exhausted hbyte => exact samplesSafely_byteWrite hbyte
  | retry hbyte hwait _ ih =>
    exact (samplesSafely_byteWrite hbyte).append
      ((samplesSafely_stopEvents r).append ((samplesSafely_startEvents hwait).append ih))

theorem samplesSafely_dataRun {dir : BitVec 1} {byte m : Byte} {e : Option Err} (h : DataRun r dir byte es e m) :
    SamplesSafely es := by
  cases h with
  | written _ hbyte | notAcknowledged _ hbyte | writeTimeout _ hbyte => exact samplesSafely_byteWrite hbyte
  | read _ hbyte => exact (samplesSafely_byteRead hbyte).append (samplesSafely_fnackEvents r)
  | readTimeout _ hbyte => exact samplesSafely_byteRead hbyte

theorem samplesSafely_transferRun {addr : BitVec 16} {dir : BitVec 1} {byte m : Byte} {k : Option Nat}
    {e : Option Err} (h : TransferRun r addr dir byte es k e m) : SamplesSafely es := by
  cases h with
  | unaddressed _ hwait hdata =>
    exact (samplesSafely_startEvents hwait).append
      ((samplesSafely_dataRun hdata).append (samplesSafely_stopEvents r))
  | addressed _ hwait haddress hdata =>
    exact (samplesSafely_startEvents hwait).append ((samplesSafely_addressRun haddress).append
      ((samplesSafely_dataRun hdata).append (samplesSafely_stopEvents r)))
  | addressFailed _ hwait haddress =>
    exact (samplesSafely_startEvents hwait).append
      ((samplesSafely_addressRun haddress).append (samplesSafely_stopEvents r))

end Primitives

/-! ### Whole commands -/

/-- Between its Acquire and its Release every command samples only released lines. -/
theorem runCommand_samplesSafely (i : Instr) (s : State) :
    ∃ es, (runCommand i s).trace = s.trace ++ (.acquire s.host.issuer :: (es ++ [.release s.host.issuer])) ∧
      SamplesSafely es := by
  cases i with
  | xferW addr byte =>
    obtain ⟨es, _, _, _, hrun, htrace, -⟩ := transfer_spec addr 0#1 byte s
    exact ⟨es, htrace, samplesSafely_transferRun hrun⟩
  | xferR addr init =>
    obtain ⟨es, _, _, _, hrun, htrace, -⟩ := transfer_spec addr 1#1 init s
    exact ⟨es, htrace, samplesSafely_transferRun hrun⟩
  | sclw =>
    obtain ⟨es, hran, hrun, -⟩ := sclw_spec (acquire s)
    exact ⟨es, (micro_release _ hran).1, samplesSafely_sclwRun hrun⟩
  | start =>
    obtain ⟨es, _, hrun, hran, -⟩ := start_spec (acquire s)
    exact ⟨_, (micro_release _ hran).1, samplesSafely_startEvents hrun⟩
  | stop => exact ⟨_, (micro_release _ (stop_spec (acquire s)).1).1, samplesSafely_stopEvents s.regs⟩
  | fnack => exact ⟨_, (micro_release _ (fnack_spec (acquire s)).1).1, samplesSafely_fnackEvents s.regs⟩
  | wbit b =>
    obtain ⟨es, hrun, hran, -⟩ := wbit_spec (b.getLsbD 0) (acquire s)
    exact ⟨_, (micro_release _ hran).1, (samplesSafely_bitSetup s.regs _).append (samplesSafely_sclwRun hrun)⟩
  | wbyte v =>
    obtain ⟨es, _, hrun, hran, -⟩ := wbyte_spec v (acquire s)
    exact ⟨es, (micro_release _ hran).1, samplesSafely_byteWrite hrun⟩
  | rbyte =>
    obtain ⟨_, es, _, _, hrun, hran, -⟩ := rbyte_spec (acquire s)
    exact ⟨es, (micro_release _ hran).1, samplesSafely_byteRead hrun⟩

/-- Settles O43: the events of a command are its Acquire, events that sample only released lines, and its Release. -/
theorem samplesOnlyReleasedLines : Obligations.SamplesOnlyReleasedLines := by
  intro i s t es hfree hexec htrace
  rw [exec_free i hfree] at hexec
  obtain rfl := Host.Outcome.next.inj hexec
  obtain ⟨fs, hfs, hsafe⟩ := runCommand_samplesSafely i s
  obtain rfl := List.append_cancel_left (htrace.symm.trans hfs)
  exact samplesReleased_append (hsafe s.lines) fun _ => rfl

end Sys2Proof.Proofs.Samples
end

section
/-! MSG_BYTE and BYTER (R71, R96): what a command leaves of the message byte and reports of it. -/

namespace Sys2Proof.Proofs.MessageByte

open Sys2Proof Sys2Proof.Machine Sys2Proof.Safety Sys2Proof.Proofs.Registers

theorem resCode_resWord (code : BitVec 2) (ackr : Bool) (byter : Byte) : resCode (resWord code ackr byter) = code :=
  BitVec.extractLsb'_append_eq_right

/-- Below BYTER lie CODE, two reserved bits, ACKR and three reserved bits (R96). -/
theorem resByte_resWord (code : BitVec 2) (ackr : Bool) (byter : Byte) : resByte (resWord code ackr byter) = byter :=
  calc resByte (resWord code ackr byter)
    _ = (0#16 ++ byter ++ 0#3 ++ BitVec.ofBool ackr ++ 0#2).extractLsb' 6 8 :=
        BitVec.extractLsb'_append_eq_of_le (by decide)
    _ = (0#16 ++ byter ++ 0#3 ++ BitVec.ofBool ackr).extractLsb' 4 8 :=
        BitVec.extractLsb'_append_eq_of_le (by decide)
    _ = (0#16 ++ byter ++ 0#3).extractLsb' 3 8 := BitVec.extractLsb'_append_eq_of_le (by decide)
    _ = (0#16 ++ byter).extractLsb' 0 8 := BitVec.extractLsb'_append_eq_of_le (by decide)
    _ = byter := BitVec.extractLsb'_append_eq_right

/-- A data phase changes MSG_BYTE only where it reads a byte without an error (R182, R183). -/
theorem dataRun_msgByte {r : NumRegs} {dir : BitVec 1} {byte m : Byte} {es : List Event} {e : Option Err}
    (h : DataRun r dir byte es e m) (hkept : dir = 0#1 ∨ e ≠ none) : m = byte := by
  cases h with
  | read hdir _ =>
    rcases hkept with hwrite | herr
    · cases hdir.symm.trans hwrite
    · exact absurd rfl herr
  | written | notAcknowledged | writeTimeout | readTimeout => rfl

theorem transferRun_msgByte {r : NumRegs} {addr : BitVec 16} {dir : BitVec 1} {byte m : Byte} {es : List Event}
    {k : Option Nat} {e : Option Err} (h : TransferRun r addr dir byte es k e m) (hkept : dir = 0#1 ∨ e ≠ none) :
    m = byte := by
  cases h with
  | unaddressed _ _ hdata => exact dataRun_msgByte hdata hkept
  | addressed _ _ _ hdata => exact dataRun_msgByte hdata hkept
  | addressFailed => rfl

/-- A transfer reports MSG_BYTE in BYTER; it is the byte it was given, unless a read ended without an error. -/
theorem transfer_msgByte (addr : BitVec 16) (dir : BitVec 1) (byte : Byte) (s : State) :
    ∃ res, (transfer addr dir byte s).host = answeredPort s.host (.result res) ∧
      resByte res = (transfer addr dir byte s).work.msgByte ∧
      (dir = 0#1 ∨ resCode res ≠ 0#2 → (transfer addr dir byte s).work.msgByte = byte) := by
  obtain ⟨_, _, e, m, hrun, -, -, ⟨_, hwork, -⟩, -, -, -, hhost⟩ := transfer_spec addr dir byte s
  refine ⟨_, hhost, by rw [hwork, resByte_resWord], fun hkept => ?_⟩
  rw [hwork]
  refine transferRun_msgByte hrun (hkept.imp_right fun hcode => ?_)
  rintro rfl
  exact hcode (resCode_resWord _ _ _)

/-- A micro-op leaves MSG_BYTE: it writes of the working registers at most T0, SHIFT, BIT and ACK. -/
theorem runCommand_msgByte {i : Instr} (hi : isTransfer i = false) (s : State) :
    (runCommand i s).work.msgByte = s.work.msgByte := by
  cases i with
  | xferW | xferR => cases hi
  | sclw =>
    obtain ⟨_, -, -, -, hwork⟩ := sclw_spec (acquire s)
    exact (congrArg WorkRegs.msgByte hwork :)
  | start =>
    obtain ⟨_, _, -, -, -, hwork⟩ := start_spec (acquire s)
    exact (congrArg WorkRegs.msgByte hwork :)
  | stop | fnack => rfl
  | wbit b =>
    obtain ⟨_, -, -, -, hwork⟩ := wbit_spec (b.getLsbD 0) (acquire s)
    exact (congrArg WorkRegs.msgByte hwork :)
  | wbyte v =>
    obtain ⟨_, _, -, -, hwork, -⟩ := wbyte_spec v (acquire s)
    exact (congrArg WorkRegs.msgByte hwork :)
  | rbyte =>
    obtain ⟨_, _, _, _, -, -, -, hwork, -⟩ := rbyte_spec (acquire s)
    exact (congrArg WorkRegs.msgByte hwork :)

/-- Settles O30, from what a transfer reports and what a micro-op leaves. -/
theorem messageByteChangesOnlyBySuccessfulReads : Obligations.MessageByteChangesOnlyBySuccessfulReads := by
  intro i s t hfree hexec
  rw [exec_free i hfree] at hexec
  obtain rfl := Host.Outcome.next.inj hexec
  cases i with
  | xferW addr byte =>
    obtain ⟨res, hhost, hbyter, hkept⟩ := transfer_msgByte addr 0#1 byte s
    have hbyte := hkept (.inl rfl)
    exact ⟨hbyte, res, hhost, hbyter.trans hbyte⟩
  | xferR addr init =>
    obtain ⟨res, hhost, hbyter, hkept⟩ := transfer_msgByte addr 1#1 init s
    exact ⟨res, hhost, hbyter, fun hcode => hkept (.inr hcode)⟩
  | sclw | start | stop | fnack | wbit | wbyte | rbyte => exact runCommand_msgByte rfl s

end Sys2Proof.Proofs.MessageByte
end

section
/-! The decoder and the encoder (R80 to R86). A row of the match and mask table fixes every field its mask covers, and
those fields are all the decoder tests; so a row's word decodes to the row's command with the operands read off it. -/

namespace Sys2Proof.Proofs.Encoding

open Sys2Proof Sys2Proof.Machine

/-- The command of the same row whose operands are the free fields of the word `w` (R80, R82, R83). -/
def readFrom (w : Word) : Instr → Instr
  | .xferW _ _ => .xferW (field w 16 16) (field w 8 8)
  | .xferR _ _ => .xferR (field w 16 16) (field w 8 8)
  | .sclw => .sclw
  | .start => .start
  | .stop => .stop
  | .fnack => .fnack
  | .wbit _ => .wbit (field w 8 1)
  | .wbyte _ => .wbyte (field w 8 8)
  | .rbyte => .rbyte

theorem row_readFrom (w : Word) (i : Instr) : (readFrom w i).row = i.row := by
  cases i <;> rfl

theorem extractLsb'_append_middle {a b c : Nat} (hi : BitVec a) (mid : BitVec b) (lo : BitVec c) :
    (hi ++ mid ++ lo).extractLsb' c b = mid := by
  rw [BitVec.extractLsb'_append_eq_of_le (Nat.le_refl c), Nat.sub_self, BitVec.extractLsb'_append_eq_right]

theorem extractLsb'_append_high {a b c : Nat} (hi : BitVec a) (mid : BitVec b) (lo : BitVec c) :
    (hi ++ mid ++ lo).extractLsb' (b + c) a = hi := by
  rw [BitVec.extractLsb'_append_eq_of_le (Nat.le_add_left c b), Nat.add_sub_cancel, BitVec.extractLsb'_append_eq_left]

/-- The free fields of a command's own word hold its operands. -/
theorem readFrom_encode (i : Instr) : readFrom (encode i) i = i := by
  cases i with
  | xferW addr byte =>
    exact congrArg₂ Instr.xferW (extractLsb'_append_high addr byte _) (extractLsb'_append_middle addr byte _)
  | xferR addr init =>
    exact congrArg₂ Instr.xferR (extractLsb'_append_high addr init _) (extractLsb'_append_middle addr init _)
  | wbit b => exact congrArg Instr.wbit (extractLsb'_append_middle _ b _)
  | wbyte v => exact congrArg Instr.wbyte (extractLsb'_append_middle _ v _)
  | sclw | start | stop | fnack | rbyte => rfl

/-! ### What a row accepts -/

/-- The row law of Laws/PerInstr, of every command. -/
theorem rowMatch_statement (i : Instr) : Laws.RowMatch.Statement i := by
  cases i with
  | xferW addr byte => exact Laws.RowMatch.xferW addr byte
  | xferR addr init => exact Laws.RowMatch.xferR addr init
  | sclw => exact Laws.RowMatch.sclw
  | start => exact Laws.RowMatch.start
  | stop => exact Laws.RowMatch.stop
  | fnack => exact Laws.RowMatch.fnack
  | wbit b => exact Laws.RowMatch.wbit b
  | wbyte v => exact Laws.RowMatch.wbyte v
  | rbyte => exact Laws.RowMatch.rbyte

theorem row_mem_opcodeTable (i : Instr) : i.row ∈ opcodeTable := (rowMatch_statement i).1

theorem row_accepts_encode (i : Instr) : i.row.accepts (encode i) = true := (rowMatch_statement i).2

/-- A word a row accepts has the row's match bits in every field the row's mask covers. -/
theorem field_of_and {w mask bits : Word} (h : w &&& mask = bits) (lo width : Nat)
    (hmask : field mask lo width = BitVec.allOnes width) : field w lo width = field bits lo width := by
  rw [← h, field, field, BitVec.extractLsb'_and, ← field, ← field, hmask, BitVec.and_allOnes]

theorem decode_xferW {w : Word} (h : w &&& 0x000000FF#32 = 0x00000001#32) :
    decode w = .ok (.xferW (field w 16 16) (field w 8 8)) := by
  have hreserved : field w 5 3 = 0#3 := field_of_and h 5 3 rfl
  have hop : field w 0 4 = 0x1#4 := field_of_and h 0 4 rfl
  have hdir : field w 4 1 = 0#1 := field_of_and h 4 1 rfl
  simp [decode, hreserved, hop, hdir]

theorem decode_xferR {w : Word} (h : w &&& 0x000000FF#32 = 0x00000011#32) :
    decode w = .ok (.xferR (field w 16 16) (field w 8 8)) := by
  have hreserved : field w 5 3 = 0#3 := field_of_and h 5 3 rfl
  have hop : field w 0 4 = 0x1#4 := field_of_and h 0 4 rfl
  have hdir : field w 4 1 = 1#1 := field_of_and h 4 1 rfl
  simp [decode, hreserved, hop, hdir]

theorem decode_wbit {w : Word} (h : w &&& 0xFFFFFEFF#32 = 0x0000000C#32) : decode w = .ok (.wbit (field w 8 1)) := by
  have hreserved : field w 5 3 = 0#3 := field_of_and h 5 3 rfl
  have hop : field w 0 4 = 0xC#4 := field_of_and h 0 4 rfl
  have hhigh : field w 9 23 = 0#23 := field_of_and h 9 23 rfl
  have hlow : field w 4 4 = 0#4 := field_of_and h 4 4 rfl
  simp [decode, hreserved, hop, hhigh, hlow]

theorem decode_wbyte {w : Word} (h : w &&& 0xFFFF00FF#32 = 0x0000000D#32) : decode w = .ok (.wbyte (field w 8 8)) := by
  have hreserved : field w 5 3 = 0#3 := field_of_and h 5 3 rfl
  have hop : field w 0 4 = 0xD#4 := field_of_and h 0 4 rfl
  have hhigh : field w 16 16 = 0#16 := field_of_and h 16 16 rfl
  have hlow : field w 4 4 = 0#4 := field_of_and h 4 4 rfl
  simp [decode, hreserved, hop, hhigh, hlow]

/-- A mask of all ones accepts one word. -/
theorem eq_of_full_mask {w bits : Word} (h : w &&& 0xFFFFFFFF#32 = bits) : w = bits :=
  BitVec.and_allOnes.symm.trans h

/-- A word the row of `i` accepts decodes to the row's command, its operands the word's free fields. -/
theorem decode_of_accepts {i : Instr} {w : Word} (haccepts : i.row.accepts w = true) :
    decode w = .ok (readFrom w i) := by
  have h : w &&& i.row.mask = i.row.matchBits := beq_iff_eq.mp haccepts
  cases i with
  | xferW addr byte => exact decode_xferW h
  | xferR addr init => exact decode_xferR h
  | wbit b => exact decode_wbit h
  | wbyte v => exact decode_wbyte h
  | sclw | start | stop | fnack | rbyte =>
    obtain rfl := eq_of_full_mask h
    decide

/-- Settles O1: a command's word is accepted by the command's row, and its free fields are the operands. -/
theorem decodeOfEncodeIsTheCommand : Obligations.DecodeOfEncodeIsTheCommand := by
  intro i
  rw [decode_of_accepts (row_accepts_encode i), readFrom_encode]

/-! ### Every bit of an accepted word is the command's -/

theorem field_append_field (w : Word) (lo n m : Nat) : field w (lo + n) m ++ field w lo n = field w lo (m + n) :=
  BitVec.extractLsb'_append_extractLsb'_eq_extractLsb' rfl

theorem field_whole (w : Word) : field w 0 32 = w := BitVec.extractLsb'_eq_self

/-- A word put together again from the field above bit 16, the byte below it and the low byte. -/
theorem eq_of_bytes {w : Word} {high : BitVec 16} {low : Byte} (hhigh : field w 16 16 = high)
    (hlow : field w 0 8 = low) : (high ++ field w 8 8 ++ low : Word) = w := by
  rw [← hhigh, ← hlow, field_append_field w 8 8 16, field_append_field w 0 8 24, field_whole]

/-- A word put together again from the field above bit 9, bit 8 and the low byte. -/
theorem eq_of_bit {w : Word} {high : BitVec 23} {low : Byte} (hhigh : field w 9 23 = high)
    (hlow : field w 0 8 = low) : (high ++ field w 8 1 ++ low : Word) = w := by
  rw [← hhigh, ← hlow, field_append_field w 8 1 23, field_append_field w 0 8 24, field_whole]

/-- A word with nothing above OP is OP. -/
theorem eq_of_bare {w : Word} {op : BitVec 4} (hop : field w 0 4 = op) (hbare : field w 4 28 = 0#28) :
    (0#28 ++ op : Word) = w := by
  rw [← hop, ← hbare, field_append_field w 0 4 28, field_whole]

/-- The low byte is the four bits above OP, and OP. -/
theorem low_byte_of_op {w : Word} {high op : BitVec 4} (hhigh : field w 4 4 = high) (hop : field w 0 4 = op) :
    field w 0 8 = high ++ op := by
  rw [← field_append_field w 0 4 4, ← hhigh, ← hop]

/-- The four bits above OP are the reserved bits, which are 0, and DIR. -/
theorem bits_above_op {w : Word} {dir : BitVec 1} (hreserved : field w 5 3 = 0#3) (hdir : field w 4 1 = dir) :
    field w 4 4 = 0#3 ++ dir := by
  rw [← field_append_field w 4 1 3, ← hreserved, ← hdir]

/-- A word that decodes is the word of the command it decodes to: the fields tested on the way there and the operands
are all of its bits. -/
theorem encode_of_decode {w : Word} {i : Instr} (h : decode w = .ok i) : encode i = w := by
  simp only [decode, decodeBare] at h
  split_ifs at h with hreserved hop hdir h8 hbare8 h9 hbare9 hA hbareA hB hbareB hC hbit hD hbyte hE hbareE <;> cases h
  · exact eq_of_bytes rfl (low_byte_of_op (bits_above_op (not_not.mp hreserved) hdir) hop)
  · have hread := (BitVec.eq_zero_or_eq_one _).resolve_left hdir
    exact eq_of_bytes rfl (low_byte_of_op (bits_above_op (not_not.mp hreserved) hread) hop)
  · exact eq_of_bare h8 hbare8
  · exact eq_of_bare h9 hbare9
  · exact eq_of_bare hA hbareA
  · exact eq_of_bare hB hbareB
  · exact eq_of_bit hbit.1 (low_byte_of_op hbit.2 hC)
  · exact eq_of_bytes hbyte.1 (low_byte_of_op hbyte.2 hD)
  · exact eq_of_bare hE hbareE

/-- Settles O2: the decoder tests or reads every field of a word it accepts. -/
theorem encodeOfDecodeIsTheWord : Obligations.EncodeOfDecodeIsTheWord := fun _ _ => encode_of_decode

/-! ### The decoder and the table -/

theorem accepts_of_decode {w : Word} {i : Instr} (h : decode w = .ok i) : i.row.accepts w = true :=
  encode_of_decode h ▸ row_accepts_encode i

/-- The operands of a decoded command are the free fields of its word. -/
theorem readFrom_of_decode {w : Word} {i : Instr} (h : decode w = .ok i) : readFrom w i = i :=
  Decoded.ok.inj ((decode_of_accepts (accepts_of_decode h)).symm.trans h)

/-- Every row of the table is a command's. -/
theorem exists_row_eq {r : TableRow} (hr : r ∈ opcodeTable) : ∃ i : Instr, i.row = r := by
  have hrows : opcodeTable = [.xferW 0 0, .xferR 0 0, .sclw, .start, .stop, .fnack, .wbit 0, .wbyte 0, .rbyte].map
      Instr.row := rfl
  obtain ⟨i, -, hi⟩ := List.mem_map.mp (hrows ▸ hr)
  exact ⟨i, hi⟩

theorem accepts_iff_decode {r : TableRow} (hr : r ∈ opcodeTable) (w : Word) :
    r.accepts w = true ↔ ∃ i, decode w = .ok i ∧ i.row = r := by
  constructor
  · intro haccepts
    obtain ⟨i, rfl⟩ := exists_row_eq hr
    exact ⟨_, decode_of_accepts haccepts, row_readFrom w i⟩
  · rintro ⟨i, hdecode, rfl⟩
    exact accepts_of_decode hdecode

/-- No two rows accept one word, since a word decodes to one command. -/
theorem not_both_accept (w : Word) : opcodeTable.Pairwise fun a b => ¬(a.accepts w = true ∧ b.accepts w = true) := by
  have hdistinct : opcodeTable.Pairwise (· ≠ ·) := by decide
  refine hdistinct.imp_of_mem fun ha hb hne hboth => hne ?_
  obtain ⟨i, hi, rfl⟩ := (accepts_iff_decode ha w).mp hboth.1
  obtain ⟨j, hj, rfl⟩ := (accepts_iff_decode hb w).mp hboth.2
  rw [Decoded.ok.inj (hi.symm.trans hj)]

theorem refused_iff_forall_ne_ok (w : Word) : (∃ why, decode w = .refused why) ↔ ∀ i, decode w ≠ .ok i := by
  cases decode w <;> simp

theorem refused_iff_no_row_accepts (w : Word) :
    (∃ why, decode w = .refused why) ↔ ∀ r ∈ opcodeTable, r.accepts w = false := by
  rw [refused_iff_forall_ne_ok]
  constructor
  · intro hnone r hr
    refine Bool.eq_false_iff.mpr fun haccepts => ?_
    obtain ⟨i, hdecode, -⟩ := (accepts_iff_decode hr w).mp haccepts
    exact hnone i hdecode
  · intro hnone i hdecode
    exact Bool.false_ne_true ((hnone _ (row_mem_opcodeTable i)).symm.trans (accepts_of_decode hdecode))

/-- Settles O3: a row accepts the words that decode to its command, and what a command leaves free is its operands. -/
theorem decoderAgreesWithTheMatchAndMaskTable : Obligations.DecoderAgreesWithTheMatchAndMaskTable := by
  intro w
  refine ⟨fun r hr => accepts_iff_decode hr w, not_both_accept w, refused_iff_no_row_accepts w,
    fun addr byte h => ?_, fun addr init h => ?_, fun b h => ?_, fun v h => ?_⟩
  · obtain ⟨haddr, hbyte⟩ := Instr.xferW.inj (readFrom_of_decode h)
    exact ⟨haddr.symm, hbyte.symm⟩
  · obtain ⟨haddr, hinit⟩ := Instr.xferR.inj (readFrom_of_decode h)
    exact ⟨haddr.symm, hinit.symm⟩
  · exact (Instr.wbit.inj (readFrom_of_decode h)).symm
  · exact (Instr.wbyte.inj (readFrom_of_decode h)).symm

/-! ### Refused words -/

/-- A decoded word has the OP of its command's row. -/
theorem op_of_decode {w : Word} {i : Instr} (h : decode w = .ok i) : field w 0 4 = field i.row.matchBits 0 4 := by
  have hcovered : ∀ r ∈ opcodeTable, field r.mask 0 4 = BitVec.allOnes 4 := by decide
  exact field_of_and (beq_iff_eq.mp (accepts_of_decode h)) 0 4 (hcovered _ (row_mem_opcodeTable i))

/-- Every row with an OP of `ops` demands the value `v` in the field, and its mask covers the field (R85). -/
def Demanded (ops : List (BitVec 4)) (lo width : Nat) (v : BitVec width) : Prop :=
  ∀ r ∈ opcodeTable, field r.matchBits 0 4 ∈ ops →
    field r.mask lo width = BitVec.allOnes width ∧ field r.matchBits lo width = v

/-- A word without the value its OP demands in a field is refused. -/
theorem refused_of_demanded {ops : List (BitVec 4)} {lo width : Nat} {v : BitVec width} (h : Demanded ops lo width v)
    {w : Word} (hop : field w 0 4 ∈ ops) (hne : field w lo width ≠ v) : ∃ why, decode w = .refused why := by
  refine (refused_iff_forall_ne_ok w).mpr fun i hdecode => hne ?_
  obtain ⟨hcovered, hvalue⟩ := h i.row (row_mem_opcodeTable i) (op_of_decode hdecode ▸ hop)
  rw [field_of_and (beq_iff_eq.mp (accepts_of_decode hdecode)) lo width hcovered, hvalue]

theorem refused_of_reserved_op {w : Word}
    (hop : field w 0 4 ∈ [0x0#4, 0x2#4, 0x3#4, 0x4#4, 0x5#4, 0x6#4, 0x7#4, 0xF#4]) :
    ∃ why, decode w = .refused why := by
  have hunused : ∀ r ∈ opcodeTable,
      field r.matchBits 0 4 ∉ [0x0#4, 0x2#4, 0x3#4, 0x4#4, 0x5#4, 0x6#4, 0x7#4, 0xF#4] := by decide
  exact (refused_iff_forall_ne_ok w).mpr fun i hdecode =>
    hunused i.row (row_mem_opcodeTable i) (op_of_decode hdecode ▸ hop)

theorem demanded_bare : Demanded [0x8#4, 0x9#4, 0xA#4, 0xB#4, 0xE#4] 4 28 0#28 := by unfold Demanded; decide
theorem demanded_wbit_high : Demanded [0xC#4] 9 23 0#23 := by unfold Demanded; decide
theorem demanded_wbit_low : Demanded [0xC#4] 4 4 0#4 := by unfold Demanded; decide
theorem demanded_wbyte_high : Demanded [0xD#4] 16 16 0#16 := by unfold Demanded; decide
theorem demanded_wbyte_low : Demanded [0xD#4] 4 4 0#4 := by unfold Demanded; decide

/-- A step of an idle bus over a refused word takes it off the port and tells its caller (R93). -/
theorem step_refuseWord {s : State} {r : Request} {rest : List Request} {why : Reject}
    (hcreated : s.host.created = true) (hturns : s.host.turns = []) (hguard : s.lock.guard = .free)
    (hwaiters : s.lock.waiters = []) (hport : s.host.port = r :: rest) (hdecode : decode r.word = .refused why) :
    step s = .next (refuseWord r.caller why { s with host := { s.host with port := rest } }) := by
  rw [Scope.step_eq_stepWhole hcreated hturns hguard]
  simp only [stepWhole, fetch, hwaiters, hport, hdecode]

/-- Settles O6: a refused word lacks what every row of its OP demands, and a step over it only answers its caller. -/
theorem reservedWordsAreRefusedWithoutEffect : Obligations.ReservedWordsAreRefusedWithoutEffect := by
  refine ⟨fun w hop => refused_of_reserved_op hop, fun w hreserved => ⟨.reservedBits, if_pos hreserved⟩,
    fun w hop hne => refused_of_demanded demanded_bare hop hne, fun w hop hne => ?_, fun w hop hne => ?_,
    fun s r rest why hcreated hturns hguard hwaiters hport hdecode =>
      step_refuseWord hcreated hturns hguard hwaiters hport hdecode⟩
  · rcases hne with hhigh | hlow
    · exact refused_of_demanded demanded_wbit_high (List.mem_singleton.mpr hop) hhigh
    · exact refused_of_demanded demanded_wbit_low (List.mem_singleton.mpr hop) hlow
  · rcases hne with hhigh | hlow
    · exact refused_of_demanded demanded_wbyte_high (List.mem_singleton.mpr hop) hhigh
    · exact refused_of_demanded demanded_wbyte_low (List.mem_singleton.mpr hop) hlow

/-! ### The examples of R87 -/

/-- Settles O4: each word is the word of the command it is to decode to. -/
theorem exampleWordsDecode : Obligations.ExampleWordsDecode :=
  ⟨decodeOfEncodeIsTheCommand (.xferW 0x0021#16 0x5A#8), decodeOfEncodeIsTheCommand (.xferR 0x0021#16 0x00#8),
    decodeOfEncodeIsTheCommand (.wbit 1#1), decodeOfEncodeIsTheCommand (.wbit 0#1),
    decodeOfEncodeIsTheCommand (.wbyte 0x42#8), decodeOfEncodeIsTheCommand .start⟩

/-- A line with its operands in range assembles to the word of its command (R100). -/
theorem assembleLine_of_wf {l : AsmLine} {i : Instr} (hwf : l.wf = true) (hcommand : lineCommand l = some i) :
    assembleLine l = some (encode i) := by
  rw [assembleLine, if_pos hwf, hcommand, Option.map_some]

theorem assembleLine_of_not_wf {l : AsmLine} (hwf : l.wf = false) : assembleLine l = none := by
  rw [assembleLine, hwf, if_neg Bool.false_ne_true]

/-- Settles O5: each line is in range but the last, SEND's and RECV's whatever their `flags`, and stands for the command
of its word. -/
theorem assemblerGivesTheExampleWords : Obligations.AssemblerGivesTheExampleWords :=
  ⟨assembleLine_of_wf (i := .xferW 0x21#16 0x5A#8) rfl rfl, assembleLine_of_wf (i := .xferR 0x21#16 0#8) rfl rfl,
    assembleLine_of_wf (i := .wbit 1#1) rfl rfl, assembleLine_of_wf (i := .wbit 0#1) rfl rfl,
    assembleLine_of_wf (i := .wbyte 0x42#8) rfl rfl, assembleLine_of_wf (i := .start) rfl rfl,
    fun _ => assembleLine_of_wf (i := .xferW 0x21#16 0x5A#8) rfl rfl,
    fun _ => assembleLine_of_wf (i := .xferR 0x21#16 0#8) rfl rfl, assembleLine_of_not_wf rfl⟩

/-! ### The result word -/

theorem resAck_resWord (code : BitVec 2) (ackr : Bool) (byter : Byte) : resAck (resWord code ackr byter) = ackr :=
  calc resAck (resWord code ackr byter)
    _ = (0#16 ++ byter ++ 0#3 ++ BitVec.ofBool ackr ++ 0#2).getLsbD 2 := BitVec.getLsbD_append
    _ = (0#16 ++ byter ++ 0#3 ++ BitVec.ofBool ackr).getLsbD 0 := BitVec.getLsbD_append
    _ = (BitVec.ofBool ackr).getLsbD 0 := BitVec.getLsbD_append
    _ = ackr := BitVec.getLsbD_ofBool ackr 0

/-- The reserved bits of the result word are the constant fields between CODE, ACKR and BYTER (R96). -/
theorem resWord_reserved (code : BitVec 2) (ackr : Bool) (byter : Byte) :
    resWord code ackr byter &&& 0xFFFF00EC#32 = 0#32 := by
  change (0#16 ++ byter ++ 0#3 ++ BitVec.ofBool ackr ++ 0#2 ++ code) &&&
    (0xFFFF#16 ++ 0#8 ++ 0x7#3 ++ 0#1 ++ 0x3#2 ++ 0#2) = 0#32
  simp only [BitVec.and_append, BitVec.and_zero, BitVec.zero_and]
  rfl

/-- Settles O8, field by field. -/
theorem resultWordHasTheFieldsOfTheTable : Obligations.ResultWordHasTheFieldsOfTheTable := fun code ackr byter =>
  ⟨MessageByte.resCode_resWord code ackr byter, resAck_resWord code ackr byter,
    MessageByte.resByte_resWord code ackr byter, resWord_reserved code ackr byter⟩

end Sys2Proof.Proofs.Encoding
end

section
/-! The CODE of each command's result word (R98), from the errors its primitives end with. -/

namespace Sys2Proof.Proofs.ResultCodes

open Sys2Proof Sys2Proof.Machine Sys2Proof.Safety Sys2Proof.Proofs.MessageByte

/-! ### The result a caller is told -/

theorem answeredPort_result_inj {h : HostPort} {w res : Word}
    (heq : answeredPort h (.result w) = answeredPort h (.result res)) : w = res := by
  have hreplies := List.append_cancel_left (congrArg HostPort.replies heq)
  exact Answer.result.inj (Reply.mk.inj (List.singleton_inj.mp hreplies)).2

/-- A micro-op's result word is the one it is released with. -/
theorem result_of_release {s u : State} {es : List Event} {w res : Word} (hran : Ran (acquire s) u es)
    (hres : (release w u).host = answeredPort s.host (.result res)) : w = res := by
  obtain ⟨-, -, -, -, -, -, hhost⟩ := micro_release w hran
  exact answeredPort_result_inj (hhost.symm.trans hres)

/-! ### Micro-ops -/

/-- A primitive that ends with Ok or `Timeout` has CODE 0 or 1, if the result word of an error is its code. -/
theorem resCode_of_timeout {α : Type} {f : Ret α → Word} {q : Ret α} (hok : ∀ a, resCode (f (.ok a)) = 0#2)
    (herr : ∀ e, resCode (f (.err e)) = errCode (some e)) (hq : ∀ e, q = .err e → e = .timeout) :
    resCode (f q) = 0#2 ∨ resCode (f q) = 1#2 := by
  cases q with
  | ok a => exact .inl (hok a)
  | err e =>
    obtain rfl := hq e rfl
    exact .inr (herr .timeout)

theorem resCode_unitRes {q : Ret Unit} (hq : ∀ e, q = .err e → e = .timeout) :
    resCode (unitRes q) = 0#2 ∨ resCode (unitRes q) = 1#2 :=
  resCode_of_timeout (fun _ => resCode_resWord _ _ _) (fun _ => resCode_resWord _ _ _) hq

theorem resCode_ackRes {q : Ret Bool} (hq : ∀ e, q = .err e → e = .timeout) :
    resCode (ackRes q) = 0#2 ∨ resCode (ackRes q) = 1#2 :=
  resCode_of_timeout (fun _ => resCode_resWord _ _ _) (fun _ => resCode_resWord _ _ _) hq

theorem resCode_byteRes {q : Ret Byte} (hq : ∀ e, q = .err e → e = .timeout) :
    resCode (byteRes q) = 0#2 ∨ resCode (byteRes q) = 1#2 :=
  resCode_of_timeout (fun _ => resCode_resWord _ _ _) (fun _ => resCode_resWord _ _ _) hq

/-! ### Reads -/

/-- Only the write data phase ends with Io (R182). -/
theorem addressRun_ne_io {r : NumRegs} {ab : Byte} {n k : Nat} {es : List Event} {q : Ret Unit}
    (h : AddressRun r ab n k es q) : q ≠ .err .io := by
  induction h with
  | acknowledged | timeout | exhausted => exact nofun
  | retry _ _ _ ih => exact ih

theorem dataRun_read_err {r : NumRegs} {byte m : Byte} {es : List Event} {e : Option Err}
    (h : DataRun r 1#1 byte es e m) : e = none ∨ e = some .timeout := by
  cases h with
  | written hdir | notAcknowledged hdir | writeTimeout hdir => exact absurd hdir (by decide)
  | read => exact .inl rfl
  | readTimeout => exact .inr rfl

/-- A read ends without an error, with `Timeout`, or, where it sends the address, with NoAcknowledge (R171, R177). -/
theorem transferRun_read_err {r : NumRegs} {addr : BitVec 16} {init m : Byte} {es : List Event} {k : Option Nat}
    {e : Option Err} (h : TransferRun r addr 1#1 init es k e m) :
    e = none ∨ e = some .timeout ∨ (e = some .noAcknowledge ∧ r.readAddressPhase = true) := by
  cases h with
  | unaddressed _ _ hdata => exact (dataRun_read_err hdata).imp_right .inl
  | addressed _ _ _ hdata => exact (dataRun_read_err hdata).imp_right .inl
  | @addressFailed _ _ _ _ e haddressed _ haddress =>
    cases e with
    | timeout => exact .inr (.inl rfl)
    | noAcknowledge => exact .inr (.inr ⟨rfl, haddressed⟩)
    | io => exact absurd rfl (addressRun_ne_io haddress)

/-- Settles O29, from the result word each command is released with. -/
theorem resultCodesPerCommand : Obligations.ResultCodesPerCommand := by
  intro i s t res hfree hexec hres
  rw [exec_free i hfree] at hexec
  obtain rfl := Host.Outcome.next.inj hexec
  cases i with
  | xferW addr byte => trivial
  | xferR addr init =>
    obtain ⟨_, _, e, m, hrun, -, -, -, -, -, -, hhost⟩ := transfer_spec addr 1#1 init s
    obtain rfl := answeredPort_result_inj (hhost.symm.trans hres)
    rw [resCode_resWord]
    rcases transferRun_read_err hrun with rfl | rfl | ⟨rfl, hphase⟩
    · exact ⟨by decide, fun h => absurd h (by decide)⟩
    · exact ⟨by decide, fun h => absurd h (by decide)⟩
    · exact ⟨by decide, fun _ => hphase⟩
  | sclw =>
    obtain ⟨es, hran, hrun, -⟩ := sclw_spec (acquire s)
    obtain rfl := result_of_release hran hres
    exact resCode_unitRes fun e he => (he ▸ hrun).err_timeout
  | start =>
    obtain ⟨es, _, -, hran, -⟩ := start_spec (acquire s)
    obtain rfl := result_of_release hran hres
    exact resCode_resWord _ _ _
  | stop =>
    obtain rfl := result_of_release (stop_spec (acquire s)).1 hres
    exact resCode_resWord _ _ _
  | fnack =>
    obtain rfl := result_of_release (fnack_spec (acquire s)).1 hres
    exact resCode_resWord _ _ _
  | wbit b =>
    obtain ⟨es, hrun, hran, -⟩ := wbit_spec (b.getLsbD 0) (acquire s)
    obtain rfl := result_of_release hran hres
    exact resCode_unitRes fun e he => (he ▸ hrun).err_timeout
  | wbyte v =>
    obtain ⟨es, _, hrun, hran, -⟩ := wbyte_spec v (acquire s)
    obtain rfl := result_of_release hran hres
    exact resCode_ackRes fun e he => (he ▸ hrun).err_timeout
  | rbyte =>
    obtain ⟨_, es, _, _, -, hran, -⟩ := rbyte_spec (acquire s)
    obtain rfl := result_of_release hran hres
    exact resCode_byteRes fun e he => Grains.rbyte_err_timeout (Prod.ext he rfl)

end Sys2Proof.Proofs.ResultCodes
end

section
/-! Message address bits 15:7 (R84, R170). MSG_ADDR is read only to form the address byte: every primitive runs alike
whatever MSG_ADDR holds, and so do two transfers that put the same address byte on the wire, or none. -/

namespace Sys2Proof.Proofs.MessageAddress

open Sys2Proof Sys2Proof.Machine Sys2Proof.Safety

/-- The state with another MSG_ADDR. -/
def withAddr (addr : BitVec 16) (s : State) : State := { s with work := { s.work with msgAddr := addr } }

/-- What a primitive gives, its final state with another MSG_ADDR. -/
def resultWithAddr {α : Type} (addr : BitVec 16) (p : Ret α × State) : Ret α × State := (p.1, withAddr addr p.2)

/-! ### SCLW and the conditions -/

/-- SCLW's loop where no round is left. -/
theorem pollScl_zero_low {s : State} (h : sampled .scl s = .lo) :
    pollScl 0 s = (.err .timeout, nowCheck (sample .scl s)) := by
  rw [pollScl, h]
  exact ite_self _

theorem sclw_of_readback {s : State} (h : s.regs.sclReadable = true) :
    sclw s = pollScl 2 (nowT0 (drive .scl .rel s)) := if_pos h

theorem sclw_of_no_readback {s : State} (h : s.regs.sclReadable = false) :
    sclw s = (.ok (), halfBit (drive .scl .rel s)) := by
  simp [sclw, h]

section Primitives

variable (addr : BitVec 16)

theorem pollScl_withAddr (n : Nat) (s : State) :
    pollScl n (withAddr addr s) = resultWithAddr addr (pollScl n s) := by
  induction n generalizing s with
  | zero =>
    cases hlevel : sampled .scl s with
    | hi => rw [pollScl_high 0 hlevel]; exact pollScl_high 0 hlevel
    | lo => rw [pollScl_zero_low hlevel]; exact pollScl_zero_low hlevel
  | succ n ih =>
    cases hlevel : sampled .scl s with
    | hi => rw [pollScl_high _ hlevel]; exact pollScl_high _ hlevel
    | lo =>
      cases hcheck : timedOut (nowCheck (sample .scl s)) with
      | true => rw [pollScl_timeout _ hlevel hcheck]; exact pollScl_timeout _ hlevel hcheck
      | false =>
        rw [pollScl_again _ hlevel hcheck, ← ih]
        exact pollScl_again (s := withAddr addr s) n hlevel hcheck

theorem sclw_withAddr (s : State) : sclw (withAddr addr s) = resultWithAddr addr (sclw s) := by
  cases hreadback : s.regs.sclReadable with
  | true =>
    rw [sclw_of_readback hreadback, ← pollScl_withAddr]
    exact sclw_of_readback (s := withAddr addr s) hreadback
  | false =>
    rw [sclw_of_no_readback hreadback]
    exact sclw_of_no_readback (s := withAddr addr s) hreadback

theorem start_withAddr (s : State) : start (withAddr addr s) = withAddr addr (start s) := by
  have hwait := sclw_withAddr addr (drive .sda .rel s)
  exact congrArg (fun p : Ret Unit × State => drive .scl .low (halfBit (drive .sda .low (halfBit p.2)))) hwait

theorem stop_withAddr (s : State) : stop (withAddr addr s) = withAddr addr (stop s) := rfl

theorem fnack_withAddr (s : State) : fnack (withAddr addr s) = withAddr addr (fnack s) := rfl

/-! ### The shifters -/

theorem wbit_withAddr (b : Bool) (s : State) : wbit b (withAddr addr s) = resultWithAddr addr (wbit b s) :=
  sclw_withAddr addr (halfBit (drive .sda (drvOf b) (drive .scl .low s)))

theorem wbits_withAddr (n : Nat) (s : State) : wbits n (withAddr addr s) = resultWithAddr addr (wbits n s) := by
  induction n generalizing s with
  | zero => rfl
  | succ n ih =>
    have hbit := wbit_withAddr addr (s.work.shift.getLsbD n) (setBit (Fin.ofNat 8 n) s)
    obtain ⟨q, u, hq⟩ : ∃ q u, wbit (s.work.shift.getLsbD n) (setBit (Fin.ofNat 8 n) s) = (q, u) := ⟨_, _, rfl⟩
    rw [hq] at hbit
    cases q with
    | ok _ => rw [wbits_ok hq, ← ih]; exact wbits_ok hbit
    | err e => rw [wbits_err hq]; exact wbits_err hbit

theorem ackPulse_withAddr (s : State) : ackPulse (withAddr addr s) = resultWithAddr addr (ackPulse s) := by
  have hbit := wbit_withAddr addr true s
  obtain ⟨q, u, hq⟩ : ∃ q u, wbit true s = (q, u) := ⟨_, _, rfl⟩
  rw [hq] at hbit
  cases q with
  | ok _ => rw [ackPulse_ok hq]; exact ackPulse_ok hbit
  | err e => rw [ackPulse_err hq]; exact ackPulse_err hbit

theorem wbyte_withAddr (v : Byte) (s : State) : wbyte v (withAddr addr s) = resultWithAddr addr (wbyte v s) := by
  have hbits := wbits_withAddr addr 8 (setShift v s)
  obtain ⟨q, u, hq⟩ : ∃ q u, wbits 8 (setShift v s) = (q, u) := ⟨_, _, rfl⟩
  rw [hq] at hbits
  cases q with
  | ok _ => rw [wbyte_ok hq, ← ackPulse_withAddr]; exact wbyte_ok hbits
  | err e => rw [wbyte_err hq]; exact wbyte_err hbits

theorem rbits_withAddr (n : Nat) (s : State) : rbits n (withAddr addr s) = resultWithAddr addr (rbits n s) := by
  induction n generalizing s with
  | zero => rfl
  | succ n ih =>
    have hwait := sclw_withAddr addr (setBit (Fin.ofNat 8 n) s)
    obtain ⟨q, u, hq⟩ : ∃ q u, sclw (setBit (Fin.ofNat 8 n) s) = (q, u) := ⟨_, _, rfl⟩
    rw [hq] at hwait
    cases q with
    | ok _ => rw [rbits_ok hq, ← ih]; exact rbits_ok (s := withAddr addr s) hwait
    | err e => rw [rbits_err hq]; exact rbits_err (s := withAddr addr s) hwait

theorem rbyte_withAddr (s : State) : rbyte (withAddr addr s) = resultWithAddr addr (rbyte s) := by
  have hbits := rbits_withAddr addr 8 (setShift 0#8 (halfBit (drive .sda .rel s)))
  obtain ⟨q, u, hq⟩ : ∃ q u, rbits 8 (setShift 0#8 (halfBit (drive .sda .rel s))) = (q, u) := ⟨_, _, rfl⟩
  rw [hq] at hbits
  cases q with
  | ok _ => rw [rbyte_ok hq]; exact rbyte_ok (s := withAddr addr s) hbits
  | err e => rw [rbyte_err hq]; exact rbyte_err (s := withAddr addr s) hbits

/-! ### The phases of a transfer -/

/-- The address byte is given, so the address phase does not read MSG_ADDR. -/
theorem addressPhase_withAddr (n : Nat) (ab : Byte) (s : State) :
    addressPhase n ab (withAddr addr s) = resultWithAddr addr (addressPhase n ab s) := by
  have hbyte := wbyte_withAddr addr ab (setPhase .addr s)
  obtain ⟨q, u, hq⟩ : ∃ q u, wbyte ab (setPhase .addr s) = (q, u) := ⟨_, _, rfl⟩
  rw [hq] at hbyte
  match q, n with
  | .ok true, _ => rw [addressPhase_ack hq]; exact addressPhase_ack hbyte
  | .err e, _ => rw [addressPhase_err hq]; exact addressPhase_err hbyte
  | .ok false, 0 => rw [addressPhase_last_nack hq]; exact addressPhase_last_nack hbyte
  | .ok false, n + 1 =>
    have hretry := addressPhase_nack (n := n) (s := withAddr addr s) hbyte
    rw [stop_withAddr, start_withAddr] at hretry
    rw [addressPhase_nack hq, ← addressPhase_withAddr n]
    exact hretry

theorem writePhase_withAddr (s : State) : writePhase (withAddr addr s) = withAddr addr (writePhase s) := by
  have hbyte := wbyte_withAddr addr s.work.msgByte s
  obtain ⟨q, u, hq⟩ : ∃ q u, wbyte s.work.msgByte s = (q, u) := ⟨_, _, rfl⟩
  rw [hq] at hbyte
  match q with
  | .ok true => rw [writePhase_ack hq]; exact writePhase_ack hbyte
  | .ok false => rw [writePhase_nack hq]; exact writePhase_nack hbyte
  | .err e => rw [writePhase_err hq]; exact writePhase_err hbyte

theorem readPhase_withAddr (s : State) : readPhase (withAddr addr s) = withAddr addr (readPhase s) := by
  have hbyte := rbyte_withAddr addr s
  obtain ⟨q, u, hq⟩ : ∃ q u, rbyte s = (q, u) := ⟨_, _, rfl⟩
  rw [hq] at hbyte
  cases q with
  | ok b => rw [readPhase_ok hq, ← fnack_withAddr]; exact readPhase_ok (u := withAddr addr u) hbyte
  | err e => rw [readPhase_err hq]; exact readPhase_err hbyte

theorem dataPhase_write {s : State} (h : s.work.msgDir = 0#1) : dataPhase s = writePhase (setPhase .data s) := if_pos h

theorem dataPhase_read {s : State} (h : s.work.msgDir ≠ 0#1) : dataPhase s = readPhase (setPhase .data s) := if_neg h

theorem setPhase_withAddr (p : Phase) (s : State) : setPhase p (withAddr addr s) = withAddr addr (setPhase p s) := rfl

theorem dataPhase_withAddr (s : State) : dataPhase (withAddr addr s) = withAddr addr (dataPhase s) := by
  by_cases hwrite : s.work.msgDir = 0#1
  · rw [dataPhase_write hwrite, dataPhase_write (s := withAddr addr s) hwrite, setPhase_withAddr, writePhase_withAddr]
  · rw [dataPhase_read hwrite, dataPhase_read (s := withAddr addr s) hwrite, setPhase_withAddr, readPhase_withAddr]

variable {addr}

/-- The phases run alike with another MSG_ADDR whose address byte is the same, where the address is sent at all. -/
theorem phases_withAddr {s : State} (h : s.regs.addressed s.work.msgDir = true →
    addressByte addr s.work.msgDir = addressByte s.work.msgAddr s.work.msgDir) :
    phases (withAddr addr s) = withAddr addr (phases s) := by
  cases haddressed : s.regs.addressed s.work.msgDir with
  | false =>
    rw [phases_unaddressed haddressed, ← dataPhase_withAddr]
    exact phases_unaddressed (s := withAddr addr s) haddressed
  | true =>
    have hphase := addressPhase_withAddr addr s.regs.cfgRetries.toNat
      (addressByte s.work.msgAddr s.work.msgDir) (setAttempt 0#32 s)
    obtain ⟨q, u, hq⟩ : ∃ q u, addressPhase s.regs.cfgRetries.toNat
      (addressByte s.work.msgAddr s.work.msgDir) (setAttempt 0#32 s) = (q, u) := ⟨_, _, rfl⟩
    rw [hq, ← h haddressed] at hphase
    cases q with
    | ok _ =>
      rw [phases_acknowledged haddressed hq, ← dataPhase_withAddr]
      exact phases_acknowledged (s := withAddr addr s) haddressed hphase
    | err e =>
      rw [phases_failed haddressed hq]
      exact phases_failed (s := withAddr addr s) haddressed hphase

theorem finish_withAddr (s : State) : finish (withAddr addr s) = withAddr addr (finish s) := rfl

end Primitives

theorem start_work_address (s : State) :
    (start s).work.msgAddr = s.work.msgAddr ∧ (start s).work.msgDir = s.work.msgDir ∧ (start s).regs = s.regs := by
  obtain ⟨_, _, -, hran, -, hwork⟩ := start_spec s
  exact ⟨by rw [hwork], by rw [hwork], hran.regs⟩

/-- Two transfers that send the same address byte, or none, differ in MSG_ADDR only. -/
theorem transfer_withAddr {addr addr' : BitVec 16} {dir : BitVec 1} {s : State}
    (h : s.regs.addressed dir = true → addressByte addr' dir = addressByte addr dir) (byte : Byte) :
    transfer addr' dir byte s = withAddr addr' (transfer addr dir byte s) := by
  obtain ⟨u, hu⟩ : ∃ u, u = setPhase .started (loadMessage addr dir byte (acquire s)) := ⟨_, rfl⟩
  obtain ⟨haddr, hdir, hregs⟩ := start_work_address u
  have hphases : phases (withAddr addr' (start u)) = withAddr addr' (phases (start u)) := by
    refine phases_withAddr ?_
    rw [haddr, hdir, hregs, hu]
    exact h
  calc transfer addr' dir byte s
    _ = finish (phases (start (withAddr addr' u))) := by rw [hu]; rfl
    _ = withAddr addr' (finish (phases (start u))) := by rw [start_withAddr, hphases, finish_withAddr]
    _ = withAddr addr' (transfer addr dir byte s) := by rw [hu]; rfl

/-- A command of a transfer runs the transfer of its direction. -/
theorem runCommand_transferCommand (dir : BitVec 1) (addr : BitVec 16) (byte : Byte) (s : State) :
    runCommand (transferCommand dir addr byte) s = transfer addr dir byte s := by
  rcases BitVec.eq_zero_or_eq_one dir with rfl | rfl <;> rfl

/-- Settles O39: the address byte holds bits 6:0 of the address. -/
theorem highAddressBitsHaveNoEffect : Obligations.HighAddressBitsHaveNoEffect := by
  intro dir addr addr' byte s t hfree hlow hexec
  rw [exec_free _ hfree, runCommand_transferCommand] at hexec
  obtain rfl := Host.Outcome.next.inj hexec
  have hsent : addressByte addr' dir = addressByte addr dir := by rw [addressByte, ← hlow, addressByte]
  rw [exec_free _ hfree, runCommand_transferCommand, transfer_withAddr (fun _ => hsent)]
  rfl

end Sys2Proof.Proofs.MessageAddress
end

section
/-! SCLW (R116 to R121): what each of the seven forms of R120 bounds, and the wait of R121's reference time source. -/

namespace Sys2Proof.Proofs.LineTiming

open Sys2Proof Sys2Proof.Machine Sys2Proof.Safety

/-- Settles O9: SCLW's own law gives the form. -/
theorem sclwTraceIsOneOfTheTable : Obligations.SclwTraceIsOneOfTheTable := by
  intro s
  obtain ⟨es, hran, hrun, -⟩ := sclw_spec s
  exact ⟨es, hran.trace, hrun⟩

/-- The events SCLW appended to the trace are the form its law names. -/
theorem sclwRun_of_trace {s : State} {es : List Event} (htrace : (sclw s).2.trace = s.trace ++ es) :
    SclwRun s.regs es (sclw s).1 := by
  obtain ⟨fs, hran, hrun, -⟩ := sclw_spec s
  obtain rfl := List.append_cancel_left (htrace.symm.trans hran.trace)
  exact hrun

/-! ### The forms of R120 -/

section Forms

variable {r : NumRegs} {es : List Event} {q : Ret Unit}

/-- The two forms with a third sample are the longest, and only the one that times out there reads the clock a fourth
time (R117). -/
theorem sclwRun_bounds (h : SclwRun r es q) :
    es.countP isSclSample ≤ 3 ∧ es.countP isSleep ≤ 2 ∧ es.countP isNow ≤ 4 ∧ es.length ≤ 10 := by
  cases h <;> simp [List.countP_cons, isSclSample, isSleep, isNow]

/-- The clock is read four times only where the third check times out, which is before any settle delay (R117). -/
theorem sclwRun_four_reads (h : SclwRun r es q) (hreads : es.countP isNow = 4) :
    q = .err .timeout ∧ es.countP isDelay = 0 := by
  cases h with
  | timeoutAtThird => exact ⟨rfl, rfl⟩
  | noReadback | highAtFirst | highAtSecond | highAtThird | timeoutAtFirst | timeoutAtSecond => cases hreads

/-- A second check that does not time out is after one POLL at least, so CFG_TIMEOUT is more than POLL: it is not 1. -/
theorem cfgTimeout_ne_one {k t : Nat} (hcheck : t < r.cfgTimeout.toNat) (hgap : k + r.poll ≤ t) :
    r.cfgTimeout ≠ 1#32 := by
  intro hone
  rw [NumRegs.poll, hone] at hgap
  rw [hone] at hcheck
  exact absurd hcheck (by simp; omega)

/-- With CFG_TIMEOUT = 1 the second check times out, so there is no third sample and no second sleep (R117). -/
theorem sclwRun_bounds_of_cfgTimeout_one (h : SclwRun r es q) (hone : r.cfgTimeout = 1#32) :
    es.countP isSclSample ≤ 2 ∧ es.countP isSleep ≤ 1 := by
  cases h with
  | highAtThird _ _ _ _ _ hcheck hgap => exact absurd hone (cfgTimeout_ne_one hcheck hgap)
  | timeoutAtThird _ _ _ _ _ _ hcheck _ hgap _ => exact absurd hone (cfgTimeout_ne_one hcheck hgap)
  | noReadback | highAtFirst | highAtSecond | timeoutAtFirst | timeoutAtSecond =>
    simp [List.countP_cons, isSclSample, isSleep]

theorem sclwRun_of_no_readback (h : SclwRun r es q) (hrd : r.sclReadable = false) :
    es = [.drive .scl .rel, .delayUs r.cfgHalf] ∧ q = .ok () := by
  cases h with
  | noReadback => exact ⟨rfl, rfl⟩
  | highAtFirst h | highAtSecond h | highAtThird h | timeoutAtFirst h | timeoutAtSecond h | timeoutAtThird h =>
    cases h.symm.trans hrd

/-- With read-back a wait starts with the release of SCL and the clock, which becomes T0 (R40, R116). -/
theorem sclwRun_of_readback (h : SclwRun r es q) (hrd : r.sclReadable = true) (t0 : Word) :
    ∃ fs, es = .drive .scl .rel :: .now (startTick t0 es) :: fs := by
  cases h with
  | noReadback h => cases h.symm.trans hrd
  | highAtFirst | highAtSecond | highAtThird | timeoutAtFirst | timeoutAtSecond | timeoutAtThird => exact ⟨_, rfl⟩

/-- An SCLW that succeeds with read-back does so on a sample of SCL that answered HI, its last (R118). -/
theorem sclwRun_last_sample (h : SclwRun r es (.ok ())) (hrd : r.sclReadable = true) :
    (es.filter isSclSample).getLast? = some (.sample .scl .hi) := by
  cases h with
  | noReadback h => cases h.symm.trans hrd
  | highAtFirst | highAtSecond | highAtThird => rfl

end Forms

/-- Settles O10, from what each form bounds. -/
theorem sclwIsBounded : Obligations.SclwIsBounded := by
  intro s es _ _ htrace
  have hrun := sclwRun_of_trace htrace
  obtain ⟨hsamples, hsleeps, hreads, hevents⟩ := sclwRun_bounds hrun
  exact ⟨hsamples, hsleeps, hreads, hevents, sclwRun_four_reads hrun, sclwRun_bounds_of_cfgTimeout_one hrun⟩

/-- Settles O11: the drivers by SCLW's law, the samples by the form. -/
theorem sclwLeavesTheLinesAsStated : Obligations.SclwLeavesTheLinesAsStated := by
  intro s es htrace
  have hrun := sclwRun_of_trace htrace
  obtain ⟨_, -, -, hlines, -⟩ := sclw_spec s
  refine ⟨hlines, fun hok => ⟨sclwRun_last_sample (hok ▸ hrun), fun hrd => ?_⟩⟩
  rw [(sclwRun_of_no_readback hrun hrd).1]
  rfl

/-! ### The command -/

/-- A micro-op whose primitive ran from the acquired state to `u` has the frame of R227. -/
theorem microRan_of_ran {s u : State} {es : List Event} (w : Word) (hfree : s.lock.guard = .free)
    (h : Ran (acquire s) u es) : MicroRan s (release w u) es w := by
  obtain ⟨htrace, hregs, hseq, hlock, -, -, hhost⟩ := micro_release w h
  exact ⟨htrace, hregs, hseq, by rw [hlock, ← hfree], hhost⟩

/-- Settles O13: SCLW's law between an Acquire and a Release. -/
theorem sclwCommand : Obligations.SclwCommand := by
  refine ⟨by decide, fun s hfree => ?_⟩
  obtain ⟨es, hran, hrun, hlines, hwork⟩ := sclw_spec (acquire s)
  have ht0 : (runSclw s).work.t0 = startTick s.work.t0 es := congrArg WorkRegs.t0 hwork
  refine ⟨runSclw s, es, (sclw (acquire s)).1, exec_free .sclw hfree, microRan_of_ran _ hfree hran, hrun, hlines,
    ht0 ▸ hwork, fun hrd => ht0 ▸ sclwRun_of_readback hrun hrd _, fun hrd => ?_⟩
  obtain ⟨rfl, -⟩ := sclwRun_of_no_readback hrun hrd
  exact hwork

/-! ### The reference time source of R121 -/

section Reference

variable {s : State} {n k : Nat}

theorem admittedElapsed_no_extra {lo T P : Nat} (h : lo < T → lo + P < 2 ^ 32) : admittedElapsed lo T P 0 = lo := by
  simp only [admittedElapsed, Nat.zero_mod, Nat.add_zero]
  exact if_neg fun hpassed => absurd (h hpassed.1) (Nat.not_lt.mpr hpassed.2)

/-- `k` ticks have passed since T0, SCL is LO at the next `n` samples, and up to the next `n` readings of the clock no
tick passes but in sleeps. -/
structure HeldLow (n k : Nat) (s : State) : Prop where
  elapsed : elapsed s s.env.tick = k
  ticks : ∃ rt, s.env.ticksIn = List.replicate n 0 ++ rt
  scl : ∃ rs, s.env.sclIn = List.replicate n .lo ++ rs

/-- The state after a round of SCLW's loop that sleeps. -/
def slept (s : State) : State := sleepPoll (nowCheck (sample .scl s))

theorem HeldLow.sampled (h : HeldLow (n + 1) k s) : sampled .scl s = .lo := by
  obtain ⟨rs, hscl⟩ := h.scl
  have hothers : s.env.others .scl = .lo := by rw [Env.others, hscl]; rfl
  rw [Machine.sampled, hothers]
  cases s.lines.get .scl <;> rfl

/-- A check finds the clock where it stood, if the sleep that may follow stays within the clock's range (R21). -/
theorem HeldLow.tick_nowCheck (h : HeldLow (n + 1) k s)
    (hfits : k < s.regs.cfgTimeout.toNat → k + s.regs.poll < 2 ^ 32) :
    (nowCheck (sample .scl s)).env.tick = s.env.tick := by
  obtain ⟨rt, hticks⟩ := h.ticks
  have hextra : (sample .scl s).env.extraTicks = 0 := by simp [Env.extraTicks, hticks, List.replicate_succ]
  have helapsed : admittedElapsed k s.regs.cfgTimeout.toNat s.regs.poll (sample .scl s).env.extraTicks = k :=
    hextra ▸ admittedElapsed_no_extra hfits
  calc (nowCheck (sample .scl s)).env.tick
    _ = s.work.t0 + BitVec.ofNat 32 (Machine.elapsed s s.env.tick) := by
        rw [h.elapsed, ← helapsed, ← h.elapsed]; rfl
    _ = s.env.tick := by
        rw [Machine.elapsed, BitVec.ofNat_toNat, BitVec.setWidth_eq, add_sub_cancel]

theorem HeldLow.timedOut (h : HeldLow (n + 1) k s) (hfits : k < s.regs.cfgTimeout.toNat → k + s.regs.poll < 2 ^ 32) :
    timedOut (nowCheck (sample .scl s)) = decide (s.regs.cfgTimeout.toNat ≤ k) := by
  rw [Machine.timedOut, h.tick_nowCheck hfits, ← h.elapsed]
  rfl

/-- SCLW's loop times out after `j` sleeps, and in no more ticks than they take. -/
structure TimesOutAfter (m j : Nat) (s : State) : Prop where
  result : (pollScl m s).1 = .err .timeout
  tick : (pollScl m s).2.env.tick = s.env.tick + BitVec.ofNat 32 (j * s.regs.poll)
  sleeps : ∃ es, Ran s (pollScl m s).2 es ∧ es.countP isSleep = j

theorem HeldLow.timesOut (h : HeldLow (n + 1) k s) (hpassed : s.regs.cfgTimeout.toNat ≤ k) (m : Nat) :
    TimesOutAfter m 0 s := by
  have hfits : k < s.regs.cfgTimeout.toNat → k + s.regs.poll < 2 ^ 32 :=
    fun hlt => absurd hpassed (Nat.not_le.mpr hlt)
  have hpoll := pollScl_timeout m h.sampled ((h.timedOut hfits).trans (decide_eq_true hpassed))
  refine ⟨by rw [hpoll], ?_, _, by rw [hpoll]; exact ran_timeout s, rfl⟩
  rw [hpoll, h.tick_nowCheck hfits, Nat.zero_mul]
  exact (BitVec.add_zero _).symm

theorem HeldLow.timesOut_of_slept {m j : Nat} (h : HeldLow (n + 1) k s) (hleft : k < s.regs.cfgTimeout.toNat)
    (hfits : k + s.regs.poll < 2 ^ 32) (hrest : HeldLow n (k + s.regs.poll) (slept s) → TimesOutAfter m j (slept s)) :
    TimesOutAfter (m + 1) (j + 1) s := by
  have htick := h.tick_nowCheck fun _ => hfits
  have helapsed : Machine.elapsed (nowCheck (sample .scl s)) (nowCheck (sample .scl s)).env.tick = k := by
    rw [htick, ← h.elapsed]; rfl
  have hslept : HeldLow n (k + s.regs.poll) (slept s) := by
    obtain ⟨rt, hticks⟩ := h.ticks
    obtain ⟨rs, hscl⟩ := h.scl
    refine ⟨?_, ⟨rt, by simp [slept, hticks, List.replicate_succ]⟩,
      ⟨rs, by simp [slept, hscl, List.replicate_succ]⟩⟩
    rw [slept, elapsed_sleepPoll _ (helapsed.symm ▸ hfits), helapsed]
    rfl
  have hpoll : pollScl (m + 1) s = pollScl m (slept s) :=
    pollScl_again m h.sampled ((h.timedOut fun _ => hfits).trans (decide_eq_false (Nat.not_le.mpr hleft)))
  obtain ⟨hresult, hend, es, hran, hsleeps⟩ := hrest hslept
  refine ⟨hpoll ▸ hresult, ?_, _, hpoll ▸ (ran_round s).trans hran,
    by rw [List.countP_append, hsleeps, add_comm]; rfl⟩
  calc (pollScl (m + 1) s).2.env.tick
    _ = (nowCheck (sample .scl s)).env.tick + BitVec.ofNat 32 s.regs.poll + BitVec.ofNat 32 (j * s.regs.poll) :=
        hpoll ▸ hend
    _ = s.env.tick + BitVec.ofNat 32 ((j + 1) * s.regs.poll) := by
        rw [htick, add_assoc, ← BitVec.ofNat_add, Nat.succ_mul, Nat.add_comm]

/-- With CFG_TIMEOUT = 1 one POLL of sleep passes it. -/
theorem HeldLow.one_poll (h : HeldLow 3 0 s) (hone : s.regs.cfgTimeout = 1#32) : TimesOutAfter 2 1 s := by
  have hT : s.regs.cfgTimeout.toNat = 1 := congrArg BitVec.toNat hone
  have hpoll : s.regs.poll = 1 := by rw [NumRegs.poll, hT]
  refine h.timesOut_of_slept (by omega) (by omega) fun h' => h'.timesOut ?_ 1
  change s.regs.cfgTimeout.toNat ≤ 0 + s.regs.poll
  omega

/-- With any greater CFG_TIMEOUT one POLL of sleep does not pass it, and two do. -/
theorem HeldLow.two_polls (h : HeldLow 3 0 s) (hlt : 1 < s.regs.cfgTimeout.toNat)
    (hfits : 2 * s.regs.poll < 2 ^ 32) : TimesOutAfter 2 2 s := by
  have hpassed := two_poll s.regs
  have hpoll : s.regs.poll < s.regs.cfgTimeout.toNat := by rw [NumRegs.poll]; omega
  refine h.timesOut_of_slept (by omega) (by omega) fun h' => h'.timesOut_of_slept ?_ ?_ fun h'' => h''.timesOut ?_ 0
  · change 0 + s.regs.poll < s.regs.cfgTimeout.toNat
    omega
  · change 0 + s.regs.poll + s.regs.poll < 2 ^ 32
    omega
  · change s.regs.cfgTimeout.toNat ≤ 0 + s.regs.poll + s.regs.poll
    omega

/-- The wait starts with no tick passed. -/
theorem heldLow_start {rt : List Nat} {rs : List Level} (hticks : s.env.ticksIn = 0 :: (List.replicate n 0 ++ rt))
    (hscl : s.env.sclIn = List.replicate n .lo ++ rs) :
    HeldLow n 0 (nowT0 (drive .scl .rel s)) ∧ (nowT0 (drive .scl .rel s)).env.tick = s.env.tick := by
  refine ⟨⟨?_, ⟨rt, by simp [hticks]⟩, ⟨rs, by simp [hscl]⟩⟩, ?_⟩
  · simp [elapsed]
  · simp [Env.laterTick, Env.extraTicks, hticks]

end Reference

/-- Settles O12: the wait from T0 on, after the release of SCL and the reading of T0, in which no tick passes. -/
theorem referenceWaitTakesTwoPolls : Obligations.ReferenceWaitTakesTwoPolls := by
  intro s rt rs es hrd htimeout hfits hticks hscl htrace
  obtain ⟨hheld, htick⟩ := heldLow_start (n := 3) hticks hscl
  rw [MessageAddress.sclw_of_readback hrd] at htrace ⊢
  have hwait {j : Nat} (h : TimesOutAfter 2 j (nowT0 (drive .scl .rel s))) :
      (pollScl 2 (nowT0 (drive .scl .rel s))).1 = .err .timeout ∧ es.countP isSleep = j ∧
        (pollScl 2 (nowT0 (drive .scl .rel s))).2.env.tick = s.env.tick + BitVec.ofNat 32 (j * s.regs.poll) := by
    obtain ⟨hresult, hend, fs, hloop, hsleeps⟩ := h
    have hran := ((ran_drive .scl .rel s).trans (ran_nowT0 _)).trans hloop
    obtain rfl := List.append_cancel_left (htrace.symm.trans hran.trace)
    exact ⟨hresult, hsleeps, by rw [hend, htick]; rfl⟩
  by_cases hone : s.regs.cfgTimeout = 1#32
  · have hpoll : s.regs.poll = 1 := by rw [NumRegs.poll, hone]; rfl
    obtain ⟨hresult, hsleeps, hend⟩ := hwait (hheld.one_poll hone)
    exact ⟨hresult, fun h => absurd hone h, fun _ => ⟨hsleeps, by rw [hend, hpoll]⟩⟩
  · have hlt : 1 < s.regs.cfgTimeout.toNat := by
      have h0 : s.regs.cfgTimeout.toNat ≠ 0 := fun h => htimeout (BitVec.eq_of_toNat_eq h)
      have h1 : s.regs.cfgTimeout.toNat ≠ 1 := fun h => hone (BitVec.eq_of_toNat_eq h)
      omega
    obtain ⟨hresult, hsleeps, hend⟩ := hwait (hheld.two_polls hlt hfits)
    exact ⟨hresult, fun _ => ⟨hsleeps, hend⟩, fun h => absurd h hone⟩

end Sys2Proof.Proofs.LineTiming
end

section
/-! How many events a command has between its Acquire and its Release (R217), and what it waits for without read-back
(R113, R119). Its events are those of its waits for SCL, each one SCLW, and a fixed number of others. -/

namespace Sys2Proof.Proofs.Bounds

open Sys2Proof Sys2Proof.Machine Sys2Proof.Safety Sys2Proof.Proofs.LineTiming

/-! ### The events of a whole command -/

/-- The events of a command between its Acquire and its Release, and its result word (R96, R178, R227). -/
inductive CommandRun (r : NumRegs) : Instr → List Event → Word → Prop where
  | xferW {addr : BitVec 16} {byte m : Byte} {es : List Event} {k : Option Nat} {e : Option Err}
      (h : TransferRun r addr 0#1 byte es k e m) : CommandRun r (.xferW addr byte) es (resWord (errCode e) false m)
  | xferR {addr : BitVec 16} {init m : Byte} {es : List Event} {k : Option Nat} {e : Option Err}
      (h : TransferRun r addr 1#1 init es k e m) : CommandRun r (.xferR addr init) es (resWord (errCode e) false m)
  | sclw {es : List Event} {q : Ret Unit} (h : SclwRun r es q) : CommandRun r .sclw es (unitRes q)
  | start {es : List Event} {q : Ret Unit} (h : SclwRun r es q) :
      CommandRun r .start (startEvents r es) (unitRes (.ok ()))
  | stop : CommandRun r .stop (stopEvents r) (unitRes (.ok ()))
  | fnack : CommandRun r .fnack (fnackEvents r) (unitRes (.ok ()))
  | wbit {b : BitVec 1} {es : List Event} {q : Ret Unit} (h : SclwRun r es q) :
      CommandRun r (.wbit b) (bitSetup r (b.getLsbD 0) ++ es) (unitRes q)
  | wbyte {v : Byte} {es : List Event} {q : Ret Bool} (h : ByteWrite r v es q) :
      CommandRun r (.wbyte v) es (ackRes q)
  | rbyte {vs : List Level} {es : List Event} (h : ByteRead r vs es (.ok ())) :
      CommandRun r .rbyte es (byteRes (.ok (byteOf vs)))
  | rbyteTimeout {vs : List Level} {es : List Event} (h : ByteRead r vs es (.err .timeout)) :
      CommandRun r .rbyte es (byteRes (.err .timeout))

/-- The state `t` a command leaves in `s` ends a run of these events with this result. -/
structure RanWith (s t : State) (es : List Event) (res : Word) : Prop where
  trace : t.trace = s.trace ++ (.acquire s.host.issuer :: (es ++ [.release s.host.issuer]))
  host : t.host = answeredPort s.host (.result res)

theorem ranWith_release {s u : State} {es : List Event} {w : Word} (h : Ran (acquire s) u es) :
    RanWith s (release w u) es w := by
  obtain ⟨htrace, -, -, -, -, -, hhost⟩ := micro_release w h
  exact ⟨htrace, hhost⟩

theorem runCommand_run (i : Instr) (s : State) :
    ∃ es res, RanWith s (runCommand i s) es res ∧ CommandRun s.regs i es res := by
  cases i with
  | xferW addr byte =>
    obtain ⟨es, _, _, _, hrun, htrace, -, -, -, -, -, hhost⟩ := transfer_spec addr 0#1 byte s
    exact ⟨es, _, ⟨htrace, hhost⟩, .xferW hrun⟩
  | xferR addr init =>
    obtain ⟨es, _, _, _, hrun, htrace, -, -, -, -, -, hhost⟩ := transfer_spec addr 1#1 init s
    exact ⟨es, _, ⟨htrace, hhost⟩, .xferR hrun⟩
  | sclw =>
    obtain ⟨_, hran, hrun, -⟩ := sclw_spec (acquire s)
    exact ⟨_, _, ranWith_release hran, .sclw hrun⟩
  | start =>
    obtain ⟨_, _, hrun, hran, -⟩ := start_spec (acquire s)
    exact ⟨_, _, ranWith_release hran, .start hrun⟩
  | stop => exact ⟨_, _, ranWith_release (stop_spec (acquire s)).1, .stop⟩
  | fnack => exact ⟨_, _, ranWith_release (fnack_spec (acquire s)).1, .fnack⟩
  | wbit b =>
    obtain ⟨_, hrun, hran, -⟩ := wbit_spec (b.getLsbD 0) (acquire s)
    exact ⟨_, _, ranWith_release hran, .wbit hrun⟩
  | wbyte v =>
    obtain ⟨_, _, hrun, hran, -⟩ := wbyte_spec v (acquire s)
    exact ⟨_, _, ranWith_release hran, .wbyte hrun⟩
  | rbyte =>
    obtain ⟨vs, es, q, _, hrun, hran, -, -, -, hresult⟩ := rbyte_spec (acquire s)
    refine ⟨es, _, ranWith_release hran, ?_⟩
    cases q with
    | ok _ =>
      obtain ⟨hok, -⟩ := hresult
      rw [hok]
      exact .rbyte hrun
    | err e =>
      obtain ⟨rfl, htimeout, -⟩ := hresult
      rw [htimeout]
      exact .rbyteTimeout hrun

/-! ### Counting events -/

/-- The events of SCLW's loop, which only waits for SCL have. -/
def isWaiting (e : Event) : Bool := isSclSample e || isNow e || isSleep e

/-- `p` picks at most `w` events of a wait for SCL, and of any other event at most `c`: none if that is 0. -/
structure Counts (p : Event → Bool) (r : NumRegs) (c w : Nat) : Prop where
  wait : ∀ {es : List Event} {q : Ret Unit}, SclwRun r es q → es.countP p ≤ w
  other : ∀ {e : Event}, isWaiting e = false → [e].countP p ≤ c

section Counting

variable {p : Event → Bool} {r : NumRegs} {c w : Nat} {es : List Event}

theorem Counts.others (h : Counts p r c w) {es : List Event} (hothers : es.all (fun e => !isWaiting e) = true) :
    es.countP p ≤ c * es.length := by
  induction es with
  | nil => exact Nat.zero_le _
  | cons e es ih =>
    obtain ⟨he, hes⟩ := Bool.and_eq_true_iff.mp (List.all_cons ▸ hothers)
    have hhead : [e].countP p ≤ c := h.other (by simpa using he)
    have htail := ih hes
    rw [← List.singleton_append, List.countP_append, List.singleton_append, List.length_cons, Nat.mul_succ]
    omega

theorem Counts.startEvents (h : Counts p r c w) {q : Ret Unit} (hwait : SclwRun r es q) :
    (startEvents r es).countP p ≤ 5 * c + w := by
  have hfirst : [Event.drive .sda .rel].countP p ≤ c * 1 := h.others rfl
  have hlast : [Event.delayUs r.cfgHalf, .drive .sda .low, .delayUs r.cfgHalf, .drive .scl .low].countP p ≤ c * 4 :=
    h.others rfl
  have hes := h.wait hwait
  rw [Safety.startEvents, ← List.singleton_append, List.countP_append, List.countP_append]
  omega

theorem Counts.stopEvents (h : Counts p r c w) : (stopEvents r).countP p ≤ 6 * c :=
  Nat.mul_comm c 6 ▸ h.others rfl

theorem Counts.fnackEvents (h : Counts p r c w) : (fnackEvents r).countP p ≤ 8 * c :=
  Nat.mul_comm c 8 ▸ h.others rfl

theorem Counts.bitSetup (h : Counts p r c w) (b : Bool) : (bitSetup r b).countP p ≤ 3 * c :=
  Nat.mul_comm c 3 ▸ h.others rfl

/-- One bit written: its setup and its wait (R150). -/
theorem Counts.bit (h : Counts p r c w) (b : Bool) {q : Ret Unit} (hwait : SclwRun r es q) :
    (Safety.bitSetup r b ++ es).countP p ≤ 3 * c + w := by
  rw [List.countP_append]
  exact Nat.add_le_add (h.bitSetup b) (h.wait hwait)

theorem Counts.writeBits (h : Counts p r c w) {v : Byte} {n : Nat} {q : Ret Unit} (hbits : WriteBits r v n es q) :
    es.countP p ≤ n * (3 * c + w) := by
  induction hbits with
  | done => exact Nat.zero_le _
  | bit hwait _ ih =>
    rw [← List.append_assoc, List.countP_append, Nat.succ_mul, Nat.add_comm]
    exact Nat.add_le_add ih (h.bit _ hwait)
  | timeout hwait =>
    rw [Nat.succ_mul]
    exact (h.bit _ hwait).trans (Nat.le_add_left _ _)

theorem Counts.byteWrite (h : Counts p r c w) {v : Byte} {q : Ret Bool} (hbyte : ByteWrite r v es q) :
    es.countP p ≤ 29 * c + 9 * w := by
  cases hbyte with
  | bitTimeout hbits =>
    have hes := h.writeBits hbits
    omega
  | ackTimeout hbits hwait =>
    have hes := h.writeBits hbits
    have hack := h.bit true hwait
    rw [List.countP_append]
    omega
  | acknowledge a hbits hwait =>
    have hes := h.writeBits hbits
    have hsetup := h.bitSetup true
    have hfs := h.wait hwait
    have hlast : [Event.sample .sda a, .drive .scl .low].countP p ≤ c * 2 := h.others rfl
    rw [List.countP_append, List.countP_append, List.countP_append]
    omega

theorem Counts.readBits (h : Counts p r c w) {n : Nat} {vs : List Level} {q : Ret Unit}
    (hbits : ReadBits r n vs es q) : es.countP p ≤ n * (3 * c + w) := by
  induction hbits with
  | done => exact Nat.zero_le _
  | @bit n _ es fs _ v hwait _ ih =>
    have hes := h.wait hwait
    have hclock : [Event.sample .sda v, .drive .scl .low, .delayUs r.cfgHalf].countP p ≤ c * 3 := h.others rfl
    have hsplit : (es ++ (.sample .sda v :: .drive .scl .low :: .delayUs r.cfgHalf :: fs)).countP p =
        es.countP p + ([Event.sample .sda v, .drive .scl .low, .delayUs r.cfgHalf].countP p + fs.countP p) := by
      rw [← List.countP_append, List.countP_append]
      rfl
    rw [hsplit, Nat.succ_mul]
    omega
  | timeout hwait =>
    have hes := h.wait hwait
    rw [Nat.succ_mul]
    omega

theorem Counts.byteRead (h : Counts p r c w) {vs : List Level} {q : Ret Unit} (hbyte : ByteRead r vs es q) :
    es.countP p ≤ 26 * c + 8 * w := by
  obtain ⟨fs, hbits, rfl⟩ := hbyte
  have hfs := h.readBits hbits
  have hfirst : [Event.drive .sda .rel, .delayUs r.cfgHalf].countP p ≤ c * 2 := h.others rfl
  have hsplit : (Event.drive .sda .rel :: .delayUs r.cfgHalf :: fs).countP p =
      [Event.drive .sda .rel, .delayUs r.cfgHalf].countP p + fs.countP p :=
    List.countP_append (l₁ := [_, _])
  omega

/-! ### Transfers -/

/-- One attempt, and for each retry one more with its STOP and START (R180). -/
theorem Counts.addressRun (h : Counts p r c w) {ab : Byte} {n k : Nat} {q : Ret Unit}
    (hrun : AddressRun r ab n k es q) : es.countP p ≤ 29 * c + 9 * w + n * (40 * c + 10 * w) := by
  induction hrun with
  | acknowledged hbyte | timeout hbyte | exhausted hbyte => exact (h.byteWrite hbyte).trans (Nat.le_add_right _ _)
  | @retry n _ _ _ _ _ _ hbyte hwait _ ih =>
    have hattempt := h.byteWrite hbyte
    have hstop := h.stopEvents
    have hstart := h.startEvents hwait
    rw [List.countP_append, List.countP_append, List.countP_append, Nat.succ_mul n]
    omega

/-- A write's data phase has the most events, where a wait counts as much as five others (R182, R183). -/
theorem Counts.dataRun (h : Counts p r c w) (hlong : 5 * c ≤ w) {dir : BitVec 1} {byte m : Byte} {e : Option Err}
    (hdata : DataRun r dir byte es e m) : es.countP p ≤ 29 * c + 9 * w := by
  cases hdata with
  | written _ hbyte | notAcknowledged _ hbyte | writeTimeout _ hbyte => exact h.byteWrite hbyte
  | read _ hbyte =>
    have hes := h.byteRead hbyte
    have hnack := h.fnackEvents
    rw [List.countP_append]
    omega
  | readTimeout _ hbyte =>
    have hes := h.byteRead hbyte
    omega

theorem Counts.transferRun (h : Counts p r c w) (hlong : 5 * c ≤ w) {addr : BitVec 16} {dir : BitVec 1}
    {byte m : Byte} {k : Option Nat} {e : Option Err} (hrun : TransferRun r addr dir byte es k e m) :
    es.countP p ≤ 69 * c + 19 * w + r.cfgRetries.toNat * (40 * c + 10 * w) := by
  have hstop := h.stopEvents
  cases hrun with
  | unaddressed _ hwait hdata =>
    have hstart := h.startEvents hwait
    have hes := h.dataRun hlong hdata
    rw [List.countP_append, List.countP_append]
    omega
  | addressed _ hwait haddress hdata =>
    have hstart := h.startEvents hwait
    have has := h.addressRun haddress
    have hds := h.dataRun hlong hdata
    rw [List.countP_append, List.countP_append, List.countP_append]
    omega
  | addressFailed _ hwait haddress =>
    have hstart := h.startEvents hwait
    have has := h.addressRun haddress
    rw [List.countP_append, List.countP_append]
    omega

/-! ### Whole commands -/

/-- How many waits and other events a command has at most, where each wait counts `w` and each other event `c`. -/
def countBound (retries c w : Nat) : Instr → Nat
  | .xferW _ _ => 69 * c + 19 * w + retries * (40 * c + 10 * w)
  | .xferR _ _ => 69 * c + 19 * w + retries * (40 * c + 10 * w)
  | .sclw => w
  | .start => 5 * c + w
  | .stop => 6 * c
  | .fnack => 8 * c
  | .wbit _ => 3 * c + w
  | .wbyte _ => 29 * c + 9 * w
  | .rbyte => 26 * c + 8 * w

theorem Counts.commandRun (h : Counts p r c w) (hlong : 5 * c ≤ w) {i : Instr} {res : Word}
    (hrun : CommandRun r i es res) : es.countP p ≤ countBound r.cfgRetries.toNat c w i := by
  cases hrun with
  | xferW hrun | xferR hrun => exact h.transferRun hlong hrun
  | sclw hwait => exact h.wait hwait
  | start hwait => exact h.startEvents hwait
  | stop => exact h.stopEvents
  | fnack => exact h.fnackEvents
  | wbit hwait => exact h.bit _ hwait
  | wbyte hbyte => exact h.byteWrite hbyte
  | rbyte hbyte | rbyteTimeout hbyte => exact h.byteRead hbyte

theorem countBound_zero (retries : Nat) (i : Instr) : countBound retries 0 0 i = 0 := by
  cases i <;> rfl

end Counting

section Counted

variable (r : NumRegs)

/-- All events: SCLW has at most ten (R117). -/
theorem counts_all : Counts (fun _ => true) r 1 10 where
  wait hwait := by
    obtain ⟨-, -, -, hevents⟩ := sclwRun_bounds hwait
    exact List.countP_true ▸ hevents
  other _ := Nat.le_refl 1

/-- Sleeps: SCLW has at most two, and nothing else sleeps (R117). -/
theorem counts_sleeps : Counts isSleep r 0 2 where
  wait hwait := by
    obtain ⟨-, hsleeps, -⟩ := sclwRun_bounds hwait
    exact hsleeps
  other {e} he := by
    cases e with
    | sleepTicks => cases he
    | drive | sample | delayUs | now | acquire | release => exact Nat.le_refl 0

/-- Without read-back no command has an event of SCLW's loop (R113, R119). -/
theorem counts_waiting (hrd : r.sclReadable = false) : Counts isWaiting r 0 0 where
  wait hwait := by
    rw [(sclwRun_of_no_readback hwait hrd).1]
    exact Nat.le_refl 0
  other he := by simp [he]

end Counted

/-- Without read-back a command has no event of SCLW's loop, whichever of them are counted. -/
theorem countP_of_no_readback {r : NumRegs} {i : Instr} {es : List Event} {res : Word} (hrun : CommandRun r i es res)
    (hrd : r.sclReadable = false) {p : Event → Bool} (hp : ∀ e, p e = true → isWaiting e = true) :
    es.countP p = 0 := by
  have hnone := (counts_waiting r hrd).commandRun (Nat.zero_le 0) hrun
  rw [countBound_zero] at hnone
  exact Nat.eq_zero_of_le_zero ((List.countP_mono_left fun e _ => hp e).trans hnone)

theorem isWaiting_of_isSclSample (e : Event) (h : isSclSample e = true) : isWaiting e = true := by
  simp [isWaiting, h]

theorem isWaiting_of_isNow (e : Event) (h : isNow e = true) : isWaiting e = true := by
  simp [isWaiting, h]

theorem isWaiting_of_isSleep (e : Event) (h : isSleep e = true) : isWaiting e = true := by
  simp [isWaiting, h]

/-- Settles O42: the counts of all events and of sleeps, for each command's number of waits and other events. -/
theorem eventAndSleepBounds : Obligations.EventAndSleepBounds := by
  intro i s hfree _
  obtain ⟨es, res, hran, hrun⟩ := runCommand_run i s
  refine ⟨runCommand i s, es, exec_free i hfree, hran.trace,
    fun hrd => countP_of_no_readback hrun hrd isWaiting_of_isSleep, ?_⟩
  have hlength : es.length ≤ countBound s.regs.cfgRetries.toNat 1 10 i :=
    List.countP_true ▸ (counts_all s.regs).commandRun (by decide) hrun
  have hsleeps := (counts_sleeps s.regs).commandRun (by decide) hrun
  cases i with
  | xferW | xferR =>
    simp only [countBound] at hlength hsleeps
    exact ⟨by omega, by omega⟩
  | sclw | start | wbit | wbyte | rbyte => exact hlength
  | stop | fnack => cases hrun; rfl

/-! ### Results without read-back -/

section NoReadback

variable {r : NumRegs} {es : List Event} (hrd : r.sclReadable = false)

include hrd

theorem writeBits_ok {v : Byte} {n : Nat} {q : Ret Unit} (h : WriteBits r v n es q) : q = .ok () := by
  induction h with
  | done => rfl
  | bit _ _ ih => exact ih
  | timeout hwait => cases (sclwRun_of_no_readback hwait hrd).2

theorem byteWrite_ne_timeout {v : Byte} {q : Ret Bool} (h : ByteWrite r v es q) : q ≠ .err .timeout := by
  cases h with
  | bitTimeout hbits => cases writeBits_ok hrd hbits
  | ackTimeout _ hwait => cases (sclwRun_of_no_readback hwait hrd).2
  | acknowledge => exact nofun

theorem readBits_ok {n : Nat} {vs : List Level} {q : Ret Unit} (h : ReadBits r n vs es q) : q = .ok () := by
  induction h with
  | done => rfl
  | bit _ _ _ ih => exact ih
  | timeout hwait => cases (sclwRun_of_no_readback hwait hrd).2

theorem byteRead_ok {vs : List Level} {q : Ret Unit} (h : ByteRead r vs es q) : q = .ok () := by
  obtain ⟨_, hbits, -⟩ := h
  exact readBits_ok hrd hbits

theorem addressRun_ne_timeout {ab : Byte} {n k : Nat} {q : Ret Unit} (h : AddressRun r ab n k es q) :
    q ≠ .err .timeout := by
  induction h with
  | acknowledged | exhausted => exact nofun
  | timeout hbyte => exact absurd rfl (byteWrite_ne_timeout hrd hbyte)
  | retry _ _ _ ih => exact ih

theorem dataRun_ne_timeout {dir : BitVec 1} {byte m : Byte} {e : Option Err} (h : DataRun r dir byte es e m) :
    e ≠ some .timeout := by
  cases h with
  | written | notAcknowledged | read => exact nofun
  | writeTimeout _ hbyte => exact absurd rfl (byteWrite_ne_timeout hrd hbyte)
  | readTimeout _ hbyte => cases byteRead_ok hrd hbyte

theorem transferRun_ne_timeout {addr : BitVec 16} {dir : BitVec 1} {byte m : Byte} {k : Option Nat} {e : Option Err}
    (h : TransferRun r addr dir byte es k e m) : e ≠ some .timeout := by
  cases h with
  | unaddressed _ _ hdata | addressed _ _ _ hdata => exact dataRun_ne_timeout hrd hdata
  | addressFailed _ _ haddress =>
    rintro ⟨⟩
    exact addressRun_ne_timeout hrd haddress rfl

end NoReadback

theorem errCode_ne_timeout {e : Option Err} (h : e ≠ some .timeout) : errCode e ≠ 1#2 := by
  rcases e with _ | _ | _ | _
  · decide
  · exact absurd rfl h
  · decide
  · decide

theorem resCode_resWord_ne_timeout {code : BitVec 2} (h : code ≠ 1#2) (ackr : Bool) (byter : Byte) :
    resCode (resWord code ackr byter) ≠ 1#2 := by
  rwa [MessageByte.resCode_resWord]

/-- Without read-back no result word reports a `Timeout` (R119). -/
theorem resCode_of_no_readback {r : NumRegs} {i : Instr} {es : List Event} {res : Word} (hrun : CommandRun r i es res)
    (hrd : r.sclReadable = false) : resCode res ≠ 1#2 := by
  cases hrun with
  | xferW hrun | xferR hrun =>
    exact resCode_resWord_ne_timeout (errCode_ne_timeout (transferRun_ne_timeout hrd hrun)) _ _
  | sclw hwait | wbit hwait =>
    obtain rfl := (sclwRun_of_no_readback hwait hrd).2
    exact resCode_resWord_ne_timeout (by decide) _ _
  | start | stop | fnack | rbyte => exact resCode_resWord_ne_timeout (by decide) _ _
  | @wbyte _ _ q hbyte =>
    cases q with
    | ok a => exact resCode_resWord_ne_timeout (by decide) _ _
    | err e =>
      obtain rfl := hbyte.err_timeout
      exact absurd rfl (byteWrite_ne_timeout hrd hbyte)
  | rbyteTimeout hbyte => cases byteRead_ok hrd hbyte

/-- Settles O44: none of the events between Acquire and Release is one of a wait, and no wait times out. -/
theorem withoutReadbackNothingIsWaitedFor : Obligations.WithoutReadbackNothingIsWaitedFor := by
  intro i s t es res hfree hrd hexec htrace hres
  rw [exec_free i hfree] at hexec
  obtain rfl := Host.Outcome.next.inj hexec
  obtain ⟨fs, res', hran, hrun⟩ := runCommand_run i s
  obtain rfl := List.append_cancel_left (htrace.symm.trans hran.trace)
  obtain rfl := ResultCodes.answeredPort_result_inj (hran.host.symm.trans hres)
  have hnone {p : Event → Bool} (hp : ∀ e, p e = true → isWaiting e = true) :
      (.acquire s.host.issuer :: (fs ++ [.release s.host.issuer]) : List Event).countP p = 0 := by
    have hacquire : p (.acquire s.host.issuer) = false := Bool.eq_false_iff.mpr fun h => nomatch hp _ h
    have hrelease : p (.release s.host.issuer) = false := Bool.eq_false_iff.mpr fun h => nomatch hp _ h
    simp [hacquire, hrelease, countP_of_no_readback hrun hrd hp]
  exact ⟨hnone isWaiting_of_isSclSample, hnone isWaiting_of_isNow, hnone isWaiting_of_isSleep,
    resCode_of_no_readback hrun hrd⟩

end Sys2Proof.Proofs.Bounds
end

section
/-! The START, STOP and FNACK commands (R130, R132, R134, R136), and the start and stop conditions a transfer makes with
them (R131, R133, R137): the SDA transitions of each primitive's events, from the drivers it is entered with. -/

namespace Sys2Proof.Proofs.Conditions

open Sys2Proof Sys2Proof.Machine Sys2Proof.Safety Sys2Proof.Proofs.LineTiming Sys2Proof.Proofs.MessageAddress

/-! ### The commands -/

/-- Settles O14: START's law between an Acquire and a Release. -/
theorem startCommand : Obligations.StartCommand := by
  refine ⟨by decide, fun s hfree => ?_⟩
  obtain ⟨es, q, hrun, hran, hlines, hwork⟩ := start_spec (acquire s)
  have ht0 : (runStart s).work.t0 = startTick s.work.t0 es := congrArg WorkRegs.t0 hwork
  refine ⟨runStart s, es, q, exec_free .start hfree, microRan_of_ran _ hfree hran, hrun, hlines, ht0 ▸ hwork,
    fun hrd => ht0 ▸ sclwRun_of_readback hrun hrd _, fun hrd => ?_⟩
  obtain ⟨rfl, -⟩ := sclwRun_of_no_readback hrun hrd
  exact hwork

/-- Settles O15: STOP's law between an Acquire and a Release. -/
theorem stopCommand : Obligations.StopCommand := by
  refine ⟨by decide, fun s hfree => ?_⟩
  obtain ⟨hran, hlines, hwork, henv⟩ := stop_spec (acquire s)
  exact ⟨runStop s, exec_free .stop hfree, microRan_of_ran _ hfree hran, hlines, hwork, henv⟩

/-- Settles O16: FNACK's law between an Acquire and a Release. -/
theorem fnackCommand : Obligations.FnackCommand := by
  refine ⟨by decide, fun s hfree => ?_⟩
  obtain ⟨hran, hlines, hwork, henv⟩ := fnack_spec (acquire s)
  exact ⟨runFnack s, exec_free .fnack hfree, microRan_of_ran _ hfree hran, hlines, hwork, henv⟩

/-! ### The drivers along a trace -/

/-- The drivers after these events, from drivers `x` (R42). -/
def linesAfter : Lines → List Event → Lines
  | x, [] => x
  | x, .drive l d :: es => linesAfter (x.set l d) es
  | x, _ :: es => linesAfter x es

theorem linesAfter_append (x : Lines) (es fs : List Event) :
    linesAfter x (es ++ fs) = linesAfter (linesAfter x es) fs := by
  induction es generalizing x with
  | nil => rfl
  | cons e es ih => cases e <;> exact ih _

/-- The SDA transitions of a trace are those of its parts, the second from where the first leaves the drivers. -/
theorem sdaEdges_append (x : Lines) (es fs : List Event) :
    sdaEdges x (es ++ fs) = sdaEdges x es ++ sdaEdges (linesAfter x es) fs := by
  induction es generalizing x with
  | nil => rfl
  | cons e es ih =>
    cases e with
    | drive l d =>
      cases l with
      | scl => exact ih _
      | sda =>
        by_cases hsame : x.sda = d
        · subst hsame; simpa [sdaEdges, linesAfter] using ih x
        · simpa [sdaEdges, linesAfter, hsame] using ih { x with sda := d }
    | sample | delayUs | now | sleepTicks | acquire | release => exact ih x

/-- The SDA transitions made with SCL released: those the wire reads as start and stop conditions (R131, R133). -/
def conditions (x : Lines) (es : List Event) : List (Drv × Drv) := (sdaEdges x es).filter fun e => e.2 == .rel

theorem conditions_append (x : Lines) (es fs : List Event) :
    conditions x (es ++ fs) = conditions x es ++ conditions (linesAfter x es) fs := by
  rw [conditions, sdaEdges_append, List.filter_append]
  rfl

section Primitives

variable {r : NumRegs} {es : List Event}

/-- SCLW leaves SDA's driver alone (R118). -/
theorem linesAfter_sclwRun {q : Ret Unit} (h : SclwRun r es q) (x : Lines) :
    linesAfter x es = { x with scl := .rel } := by
  cases h <;> rfl

theorem conditions_sclwRun {q : Ret Unit} (h : SclwRun r es q) (x : Lines) : conditions x es = [] := by
  cases h <;> rfl

theorem linesAfter_startEvents (r : NumRegs) (es : List Event) (x : Lines) :
    linesAfter x (startEvents r es) = { sda := .low, scl := .low } := by
  rw [startEvents, linesAfter, linesAfter_append]
  rfl

/-- From released lines START makes the start condition and no other SDA transition (R131). -/
theorem sdaEdges_startEvents {q : Ret Unit} (h : SclwRun r es q) :
    sdaEdges { sda := .rel, scl := .rel } (startEvents r es) = [(.low, .rel)] := by
  cases h <;> rfl

theorem conditions_startEvents {q : Ret Unit} (h : SclwRun r es q) :
    conditions { sda := .rel, scl := .rel } (startEvents r es) = [(.low, .rel)] := by
  rw [conditions, sdaEdges_startEvents h]
  rfl

theorem linesAfter_stopEvents (r : NumRegs) (x : Lines) :
    linesAfter x (stopEvents r) = { sda := .rel, scl := .rel } := rfl

/-- STOP pulls SDA low, which is a transition where it was released, and ends with the stop condition (R132, R133). -/
theorem sdaEdges_stopEvents (r : NumRegs) (x : Lines) :
    sdaEdges x (stopEvents r) = (if x.sda = .low then [] else [(.low, x.scl)]) ++ [(.rel, .rel)] := by
  rw [stopEvents, sdaEdges]
  split <;> simp [sdaEdges, *]

/-- The stop condition is STOP's only condition, unless STOP finds both lines released and makes a start condition first
(R132 corner case (b), R137). -/
theorem conditions_stopEvents (r : NumRegs) (x : Lines) :
    conditions x (stopEvents r) = [(.rel, .rel)] ∨ (x.scl ≠ .low ∧ conditions x (stopEvents r) = startStop) := by
  obtain ⟨sda, scl⟩ := x
  cases sda with
  | low => exact .inl rfl
  | rel =>
    cases scl with
    | low => exact .inl rfl
    | rel => exact .inr ⟨nofun, rfl⟩

theorem conditions_stopEvents_of_low {x : Lines} (hscl : x.scl = .low) :
    conditions x (stopEvents r) = [(.rel, .rel)] :=
  (conditions_stopEvents r x).resolve_right fun h => h.1 hscl

/-- A bit's value is put on SDA with SCL low (R150). -/
theorem conditions_bitSetup (r : NumRegs) (b : Bool) (x : Lines) : conditions x (bitSetup r b) = [] := by
  simp only [conditions, bitSetup, sdaEdges]
  split <;> rfl

theorem conditions_writeBits {v : Byte} {n : Nat} {q : Ret Unit} (h : WriteBits r v n es q) (x : Lines) :
    conditions x es = [] := by
  induction h generalizing x with
  | done => rfl
  | bit hwait _ ih => simp [conditions_append, conditions_bitSetup, conditions_sclwRun hwait, ih]
  | timeout hwait => simp [conditions_append, conditions_bitSetup, conditions_sclwRun hwait]

theorem conditions_byteWrite {v : Byte} {q : Ret Bool} (h : ByteWrite r v es q) (x : Lines) : conditions x es = [] := by
  cases h with
  | bitTimeout hbits => exact conditions_writeBits hbits x
  | ackTimeout hbits hwait =>
    simp [conditions_append, conditions_writeBits hbits, conditions_bitSetup, conditions_sclwRun hwait]
  | acknowledge a hbits hwait =>
    simp only [conditions_append, conditions_writeBits hbits, conditions_bitSetup, conditions_sclwRun hwait]
    rfl

/-- A byte sent to its acknowledge leaves SCL low (R152). -/
theorem linesAfter_byteWrite_ok {v : Byte} {a : Bool} (h : ByteWrite r v es (.ok a)) (x : Lines) :
    (linesAfter x es).scl = .low := by
  cases h
  simp only [linesAfter_append]
  rfl

/-- A read bit moves SDA's driver not at all, and SCL low again unless its wait times out (R155). -/
theorem readBits_lines {n : Nat} {vs : List Level} {q : Ret Unit} (h : ReadBits r n vs es q) (x : Lines) :
    conditions x es = [] ∧ (x.scl = .low → q ≠ .err .timeout → (linesAfter x es).scl = .low) := by
  induction h generalizing x with
  | done => exact ⟨rfl, fun hscl _ => hscl⟩
  | bit v hwait _ ih =>
    obtain ⟨hnone, hlow⟩ := ih { x with scl := .low }
    rw [conditions_append, conditions_sclwRun hwait, linesAfter_append, linesAfter_sclwRun hwait]
    exact ⟨hnone, fun _ => hlow rfl⟩
  | timeout hwait => exact ⟨conditions_sclwRun hwait x, fun _ h => absurd rfl h⟩

/-- RBYTE releases SDA while SCL is low (R155). -/
theorem byteRead_lines {vs : List Level} {q : Ret Unit} (h : ByteRead r vs es q) {x : Lines} (hscl : x.scl = .low) :
    conditions x es = [] ∧ (q ≠ .err .timeout → (linesAfter x es).scl = .low) := by
  obtain ⟨fs, hbits, rfl⟩ := h
  have hsetup : conditions x [.drive .sda .rel, .delayUs r.cfgHalf] = [] := by
    simp only [conditions, sdaEdges, hscl]
    split <;> rfl
  obtain ⟨hnone, hlow⟩ := readBits_lines hbits { x with sda := .rel }
  have happend := conditions_append x [.drive .sda .rel, .delayUs r.cfgHalf] fs
  exact ⟨happend.trans (by rw [hsetup]; exact hnone), hlow hscl⟩

theorem conditions_fnackEvents {x : Lines} (hscl : x.scl = .low) : conditions x (fnackEvents r) = [] := by
  obtain ⟨sda, _⟩ := x
  cases hscl
  cases sda <;> rfl

/-! ### Between a start condition and the final STOP -/

/-- Entered after a start condition with drivers `x`, these events make `n` stop and start conditions in turn and no
other condition; SCL is driven low at their end unless `late`, which stands for a wait that timed out (R137). -/
structure InTransaction (x : Lines) (es : List Event) (n : Nat) (late : Prop) : Prop where
  inTurn : (.low, .rel) :: conditions x es = (List.replicate n startStop).flatten ++ [(.low, .rel)]
  clock : ¬late → (linesAfter x es).scl = .low

theorem inTransaction_of_none {x : Lines} {late : Prop} (hnone : conditions x es = [])
    (hclock : ¬late → (linesAfter x es).scl = .low) : InTransaction x es 0 late :=
  ⟨by rw [hnone]; rfl, hclock⟩

/-- Events that make no condition, after events that did not time out. -/
theorem InTransaction.append {x : Lines} {fs : List Event} {n : Nat} {late : Prop} (h : InTransaction x es n False)
    (k : InTransaction (linesAfter x es) fs 0 late) : InTransaction x (es ++ fs) n late := by
  have hnone : conditions (linesAfter x es) fs = [] := List.tail_eq_of_cons_eq k.inTurn
  refine ⟨?_, fun hlate => ?_⟩
  · rw [conditions_append, hnone, List.append_nil, h.inTurn]
  · rw [linesAfter_append]; exact k.clock hlate

theorem inTransaction_byteWrite {v : Byte} {q : Ret Bool} (h : ByteWrite r v es q) (x : Lines) :
    InTransaction x es 0 (q = .err .timeout) := by
  refine inTransaction_of_none (conditions_byteWrite h x) fun hlate => ?_
  cases q with
  | ok a => exact linesAfter_byteWrite_ok h x
  | err e => exact absurd (congrArg Ret.err h.err_timeout) hlate

/-- Every retry is a stop and a start condition (R180). -/
theorem inTransaction_addressRun {ab : Byte} {n k : Nat} {q : Ret Unit} (h : AddressRun r ab n k es q) (x : Lines) :
    InTransaction x es k (q = .err .timeout) := by
  induction h generalizing x with
  | acknowledged hbyte | timeout hbyte | exhausted hbyte => simpa using inTransaction_byteWrite hbyte x
  | @retry n k es fs gs _ q hbyte hwait _ ih =>
    obtain ⟨hinTurn, hclock⟩ := ih { sda := .low, scl := .low }
    have hlow := linesAfter_byteWrite_ok hbyte x
    have hmore : conditions x (es ++ (stopEvents r ++ (startEvents r fs ++ gs))) =
        (.rel, .rel) :: (.low, .rel) :: conditions { sda := .low, scl := .low } gs := by
      simp only [conditions_append, conditions_byteWrite hbyte, conditions_stopEvents_of_low hlow,
        linesAfter_stopEvents, conditions_startEvents hwait, linesAfter_startEvents]
      rfl
    refine ⟨by rw [hmore, hinTurn]; rfl, fun hlate => ?_⟩
    simp only [linesAfter_append, linesAfter_startEvents]
    exact hclock hlate

/-- The data phase, entered with SCL low, makes no condition (R182, R183). -/
theorem inTransaction_dataRun {dir : BitVec 1} {byte m : Byte} {e : Option Err} (h : DataRun r dir byte es e m)
    {x : Lines} (hscl : x.scl = .low) : InTransaction x es 0 (e = some .timeout) := by
  cases h with
  | written _ hbyte | notAcknowledged _ hbyte | writeTimeout _ hbyte => simpa using inTransaction_byteWrite hbyte x
  | read _ hbyte =>
    obtain ⟨hnone, hlow⟩ := byteRead_lines hbyte hscl
    refine inTransaction_of_none ?_ fun _ => ?_
    · rw [conditions_append, hnone, conditions_fnackEvents (hlow nofun)]; rfl
    · rw [linesAfter_append]; rfl
  | readTimeout _ hbyte => exact inTransaction_of_none (byteRead_lines hbyte hscl).1 fun h => absurd rfl h

/-- A transfer is START, what happens in the transaction, and the final STOP (R178). -/
theorem transferRun_inTransaction {addr : BitVec 16} {dir : BitVec 1} {byte m : Byte} {k : Option Nat} {e : Option Err}
    (h : TransferRun r addr dir byte es k e m) :
    ∃ fs q body n, SclwRun r fs q ∧ es = startEvents r fs ++ (body ++ stopEvents r) ∧
      InTransaction { sda := .low, scl := .low } body n (e = some .timeout) := by
  cases h with
  | unaddressed _ hwait hdata => exact ⟨_, _, _, 0, hwait, rfl, inTransaction_dataRun hdata rfl⟩
  | @addressed fs as ds q n _ _ _ hwait haddress hdata =>
    have hfirst : InTransaction { sda := .low, scl := .low } as n False := by
      simpa using inTransaction_addressRun haddress { sda := .low, scl := .low }
    refine ⟨fs, q, as ++ ds, n, hwait, by rw [List.append_assoc], hfirst.append ?_⟩
    exact inTransaction_dataRun hdata (hfirst.clock not_false)
  | @addressFailed fs as q n e _ hwait haddress =>
    refine ⟨fs, q, as, n, hwait, rfl, ?_⟩
    simpa using inTransaction_addressRun haddress { sda := .low, scl := .low }

/-- From released lines START makes the first transition, the start condition, and the final STOP the last, the stop
condition. -/
theorem sdaEdges_transferRun {addr : BitVec 16} {dir : BitVec 1} {byte m : Byte} {k : Option Nat} {e : Option Err}
    (h : TransferRun r addr dir byte es k e m) :
    ∃ mid, sdaEdges { sda := .rel, scl := .rel } es = (.low, .rel) :: (mid ++ [(.rel, .rel)]) := by
  obtain ⟨fs, q, body, n, hwait, rfl, -⟩ := transferRun_inTransaction h
  rw [sdaEdges_append, sdaEdges_startEvents hwait, sdaEdges_append, sdaEdges_stopEvents, List.singleton_append,
    ← List.append_assoc]
  exact ⟨_, rfl⟩

/-- From released lines a transfer's conditions are start and stop in turn; the final STOP makes a start condition of
its own only where SCL is not driven low, which is after a timeout (R137). -/
theorem conditions_transferRun {addr : BitVec 16} {dir : BitVec 1} {byte m : Byte} {k : Option Nat} {e : Option Err}
    (h : TransferRun r addr dir byte es k e m) :
    ∃ n, conditions { sda := .rel, scl := .rel } es = (List.replicate (n + 1) startStop).flatten ∨
      (e = some .timeout ∧ conditions { sda := .rel, scl := .rel } es =
        (List.replicate n startStop).flatten ++ ((.low, .rel) :: startStop)) := by
  obtain ⟨fs, q, body, n, hwait, rfl, hinTurn, hclock⟩ := transferRun_inTransaction h
  have hbefore : conditions { sda := .rel, scl := .rel } (startEvents r fs ++ (body ++ stopEvents r)) =
      (List.replicate n startStop).flatten ++
        ((.low, .rel) :: conditions (linesAfter { sda := .low, scl := .low } body) (stopEvents r)) := by
    rw [conditions_append, conditions_startEvents hwait, linesAfter_startEvents, conditions_append,
      List.singleton_append, ← List.cons_append, hinTurn, List.append_assoc, List.singleton_append]
  refine ⟨n, ?_⟩
  rw [hbefore]
  rcases conditions_stopEvents r (linesAfter { sda := .low, scl := .low } body) with hstop | ⟨hscl, hstop⟩
  · left
    rw [hstop, List.replicate_succ', List.flatten_append]
    rfl
  · right
    exact ⟨Decidable.not_not.mp fun hlate => hscl (hclock hlate), by rw [hstop]⟩

end Primitives

/-! ### Whole transfers -/

/-- Settles O38, from the events a transfer has between its Acquire and its Release. -/
theorem startAndStopBracketEveryTransfer : Obligations.StartAndStopBracketEveryTransfer := by
  intro dir addr byte s t es hfree hreleased hexec htrace
  rw [exec_free _ hfree, runCommand_transferCommand] at hexec
  obtain rfl := Host.Outcome.next.inj hexec
  obtain ⟨fs, _, e, _, hrun, hfs, -, ⟨_, hwork, -⟩, -⟩ := transfer_spec addr dir byte s
  obtain rfl : es = fs := by simpa using htrace.symm.trans hfs
  have herr : (transfer addr dir byte s).work.err = e := congrArg WorkRegs.err hwork
  rw [hreleased, herr]
  exact ⟨sdaEdges_transferRun hrun, conditions_transferRun hrun⟩

/-! ### START and then STOP -/

/-- With read-back, an SCLW whose first sample finds SCL high waits no longer (R120). -/
theorem sclw_ran_of_high {s : State} {rs : List Level} (hrd : s.regs.sclReadable = true)
    (hscl : s.env.sclIn = .hi :: rs) :
    Ran s (sclw s).2 [.drive .scl .rel, .now s.env.laterTick, .sample .scl .hi, .delayUs s.regs.cfgHalf] := by
  have hlevel : sampled .scl (nowT0 (drive .scl .rel s)) = .hi := by simp [sampled, Env.others, hscl]
  rw [sclw_of_readback hrd, pollScl_high 2 hlevel]
  exact ((ran_drive .scl .rel s).trans (ran_nowT0 _)).trans (hlevel ▸ ran_high _)

/-- START's events around those of its SCLW (R130). -/
theorem start_ran_of_sclw {s : State} {es : List Event}
    (h : Ran (drive .sda .rel s) (sclw (drive .sda .rel s)).2 es) : Ran s (start s) (startEvents s.regs es) := by
  have hran := (((((ran_drive .sda .rel s).trans h).trans (ran_halfBit _)).trans (ran_drive .sda .low _)).trans
    (ran_halfBit _)).trans (ran_drive .scl .low _)
  simpa [startEvents, start, h.regs] using hran

/-- Settles O17: START's SCLW finds SCL high at once, and STOP starts from the drivers START leaves. -/
theorem startThenStopMakesTwoSdaTransitions : Obligations.StartThenStopMakesTwoSdaTransitions := by
  intro s rs hfree hreleased hrd hscl
  have hwait := sclw_ran_of_high (s := drive .sda .rel (acquire s)) hrd hscl
  have hstart : MicroRan s (runStart s) _ _ := microRan_of_ran _ hfree (start_ran_of_sclw hwait)
  have hfree' : (runStart s).lock.guard = .free := hstart.lock ▸ hfree
  have hstop : MicroRan (runStart s) (runStop (runStart s)) _ _ :=
    microRan_of_ran _ hfree' (stop_spec (acquire (runStart s))).1
  have hissuer : (runStart s).host.issuer = s.host.issuer := by rw [hstart.host]; rfl
  have hregs : (acquire (runStart s)).regs = s.regs := hstart.regs
  refine ⟨_, _, _, _, exec_free .start hfree, exec_free .stop hfree', hstart.trace, hissuer ▸ hstop.trace, ?_, ?_⟩
  · rw [hregs]; rfl
  · rw [hreleased, sdaEdges_append, linesAfter_startEvents, hregs]; rfl

end Sys2Proof.Proofs.Conditions
end

section
/-! The bit and byte shifters (R150 to R156, R159): the WBIT, WBYTE and RBYTE commands, the byte RBYTE assembles from its
samples of SDA, and what it returns of the bits WBYTE drove. -/

namespace Sys2Proof.Proofs.Shift

open Sys2Proof Sys2Proof.Machine Sys2Proof.Safety Sys2Proof.Proofs.LineTiming Sys2Proof.Proofs.Encoding

/-! ### Writing a bit and a byte -/

theorem getLsbD_zero_eq_beq_one (b : BitVec 1) : b.getLsbD 0 = (b == 1#1) := by
  revert b
  decide

/-- Settles O18: WBIT's law between an Acquire and a Release. -/
theorem wbitCommand : Obligations.WbitCommand := by
  refine ⟨by decide, by decide, fun b s hfree => ?_⟩
  obtain ⟨es, hrun, hran, hlines, hwork⟩ := wbit_spec (b == 1#1) (acquire s)
  have ht : runCommand (.wbit b) s = runWbit (b == 1#1) s := congrArg (runWbit · s) (getLsbD_zero_eq_beq_one b)
  have ht0 : (runWbit (b == 1#1) s).work.t0 = startTick s.work.t0 es := congrArg WorkRegs.t0 hwork
  refine ⟨runWbit (b == 1#1) s, es, _, ht ▸ exec_free (.wbit b) hfree, microRan_of_ran _ hfree hran, hrun, hlines,
    ht0 ▸ hwork, fun hrd => ht0 ▸ sclwRun_of_readback hrun hrd _, fun hrd => ?_⟩
  obtain ⟨rfl, -⟩ := sclwRun_of_no_readback hrun hrd
  exact hwork

/-- The word of WBYTE is its OP with the byte above it (R80, R83). -/
theorem encode_wbyte_eq_or (v : Byte) : encode (.wbyte v) = 0x0000000D#32 ||| (v.setWidth 32 <<< 8) := by
  revert v
  decide

/-- Settles O19: WBYTE's law between an Acquire and a Release; ACK is read off the one sample of SDA, or none. -/
theorem wbyteCommand : Obligations.WbyteCommand := by
  refine ⟨fun v => encode_wbyte_eq_or v ▸ decodeOfEncodeIsTheCommand (.wbyte v), fun v s hfree => ?_⟩
  obtain ⟨es, k, hrun, hran, hwork, hbit, hend⟩ := wbyte_spec v (acquire s)
  have hk : (runWbyte v s).work.bit = k := congrArg WorkRegs.bit hwork
  have hack : (runWbyte v s).work.ack = ackAfter s.work.ack (sdaSamples es) := congrArg WorkRegs.ack hwork
  refine ⟨runWbyte v s, es, _, exec_free (.wbyte v) hfree, microRan_of_ran _ hfree hran, hrun, ?_, hk ▸ hbit,
    fun a hq => ?_, fun e hq => ?_⟩
  · rw [hk, hack]
    exact hwork
  · rw [hq] at hrun hend
    obtain ⟨l, hsample, hl⟩ := hrun.sdaSamples_ok
    exact ⟨by rw [hack, hsample, ← hl]; rfl, hend.2⟩
  · rw [hq] at hrun hend
    obtain ⟨he, hscl, hsda⟩ := hend
    have hsamples := hrun.sdaSamples_err
    exact ⟨he, by rw [hack, hsamples]; rfl, hscl, hsda, hsamples⟩

/-! ### Reading a byte -/

/-- A sampled level shifts the accumulator up by one, as long as no bit falls out of it (R155). -/
theorem toNat_shiftIn {b : Byte} (h : b.toNat < 2 ^ 7) (l : Level) :
    (shiftIn b l).toNat = 2 * b.toNat + (levelBit l).toNat := by
  have hlow : (b.extractLsb' 0 7).toNat = b.toNat := by
    rw [BitVec.extractLsb'_toNat, Nat.shiftRight_zero, Nat.mod_eq_of_lt h]
  rw [shiftIn, BitVec.toNat_append, hlow, BitVec.toNat_ofBool,
    ← Nat.shiftLeft_add_eq_or_of_lt (Bool.toNat_lt _), Nat.shiftLeft_eq, Nat.mul_comm]

/-- The value of the levels `vs`, most significant first (R156). -/
def levelsValue (vs : List Level) : Nat :=
  ∑ k ∈ Finset.range vs.length, if vs[k]? = some .hi then 2 ^ (vs.length - 1 - k) else 0

theorem levelsValue_cons (l : Level) (vs : List Level) :
    levelsValue (l :: vs) = (levelBit l).toNat * 2 ^ vs.length + levelsValue vs := by
  rw [levelsValue, List.length_cons, Finset.sum_range_succ', Nat.add_comm]
  congr 1
  · cases l <;> simp [levelBit]
  · refine Finset.sum_congr rfl fun k _ => ?_
    rw [List.getElem?_cons_succ, Nat.add_sub_cancel, Nat.sub_add_eq, Nat.sub_right_comm]

/-- Levels shifted into an accumulator with room for them weigh in most significant first (R155, R156). -/
theorem toNat_foldl_shiftIn {vs : List Level} {n : Nat} {b : Byte} (hb : b.toNat < 2 ^ n)
    (hroom : n + vs.length ≤ 8) :
    (vs.foldl shiftIn b).toNat = 2 ^ vs.length * b.toNat + levelsValue vs := by
  induction vs generalizing n b with
  | nil => simp [levelsValue]
  | cons l vs ih =>
    rw [List.length_cons] at hroom
    have hshift : (shiftIn b l).toNat = 2 * b.toNat + (levelBit l).toNat :=
      toNat_shiftIn (hb.trans_le (Nat.pow_le_pow_right (by decide) (by omega))) l
    have hroom' : (shiftIn b l).toNat < 2 ^ (n + 1) := by
      have := (levelBit l).toNat_le
      rw [hshift, Nat.pow_succ]
      omega
    rw [List.foldl_cons, ih hroom' (by omega), hshift, levelsValue_cons, List.length_cons]
    ring

theorem toNat_byteOf {vs : List Level} (h : vs.length = 8) :
    (byteOf vs).toNat = ∑ k ∈ Finset.range 8, if vs[k]? = some .hi then 2 ^ (7 - k) else 0 := by
  rw [byteOf, toNat_foldl_shiftIn (n := 0) (by decide) (by omega), levelsValue, h]
  simp

/-- Settles O21: RBYTE's law between an Acquire and a Release. -/
theorem rbyteCommand : Obligations.RbyteCommand := by
  refine ⟨by decide, fun s hfree => ?_⟩
  obtain ⟨vs, es, q, k, hrun, hran, hsda, hwork, hbit, hend⟩ := rbyte_spec (acquire s)
  have hk : (runRbyte s).work.bit = k := congrArg WorkRegs.bit hwork
  have hmicro : MicroRan s (runRbyte s) es (byteRes (rbyte (acquire s)).1) := microRan_of_ran _ hfree hran
  refine ⟨runRbyte s, vs, es, q, exec_free .rbyte hfree, hrun, hsda, hrun.sdaSamples_eq, hk ▸ hwork, hk ▸ hbit,
    fun hq => ?_, fun e hq => ?_⟩
  · rw [hq] at hend hrun
    obtain ⟨hresult, hscl, -⟩ := hend
    obtain ⟨_, hbits, -⟩ := hrun
    have hlength : vs.length = 8 := hbits.length_ok rfl
    rw [hresult] at hmicro
    exact ⟨hmicro, hscl, hlength, toNat_byteOf hlength⟩
  · rw [hq] at hend
    obtain ⟨he, hresult, hscl⟩ := hend
    rw [hresult] at hmicro
    exact ⟨he, hmicro, hscl⟩

/-! ### Loop-back -/

/-- The drives of SDA for the bits `n - 1` down to 0 of a byte (R92, R152). -/
def dataDrives (v : Byte) : Nat → List Drv
  | 0 => []
  | n + 1 => drvOf (v.getLsbD n) :: dataDrives v n

theorem length_dataDrives (v : Byte) (n : Nat) : (dataDrives v n).length = n := by
  induction n with
  | zero => rfl
  | succ n ih => rw [dataDrives, List.length_cons, ih]

theorem writeBits_drives {r : NumRegs} {v : Byte} {n : Nat} {es : List Event} {q : Ret Unit}
    (h : WriteBits r v n es q) : sdaDrives es <+: dataDrives v n := by
  induction h with
  | done => exact List.prefix_rfl
  | bit hwait _ ih => simpa [hwait.sdaDrives_nil, dataDrives] using ih
  | timeout hwait => simp [hwait.sdaDrives_nil, dataDrives]

/-- WBYTE's data clocks drive SDA as the bits of the byte, as far as they come (R154). -/
theorem byteWrite_drives {r : NumRegs} {v : Byte} {es : List Event} {q : Ret Bool} (h : ByteWrite r v es q) :
    (sdaDrives es).take 8 <+: dataDrives v 8 := by
  cases h with
  | bitTimeout hbits => exact (List.take_prefix 8 _).trans (writeBits_drives hbits)
  | ackTimeout hbits | acknowledge _ hbits =>
    rw [sdaDrives_append, List.take_left' (hbits.drives_ok rfl)]
    exact writeBits_drives hbits

/-- Sampling the drive of bit `n` shifts the byte's bits above `n` on by that bit. -/
theorem shiftIn_ushiftRight (v : Byte) (n : Nat) :
    shiftIn (v >>> (n + 1)) (levelOf (drvOf (v.getLsbD n))) = v >>> n := by
  have hlevel : levelBit (levelOf (drvOf (v.getLsbD n))) = v.getLsbD n := by cases v.getLsbD n <;> rfl
  have hbit : (v.getLsbD n).toNat = v.toNat / 2 ^ n % 2 := Nat.toNat_testBit v.toNat n
  have hhalf : (v >>> (n + 1)).toNat = v.toNat / 2 ^ n / 2 := by
    rw [BitVec.toNat_ushiftRight, Nat.shiftRight_eq_div_pow, Nat.pow_succ, Nat.div_div_eq_div_mul]
  have hlt : v.toNat / 2 ^ n < 2 ^ 8 := (Nat.div_le_self _ _).trans_lt v.isLt
  apply BitVec.eq_of_toNat_eq
  rw [toNat_shiftIn (by omega), hlevel, hbit, hhalf, BitVec.toNat_ushiftRight, Nat.shiftRight_eq_div_pow]
  omega

theorem foldl_shiftIn_dataDrives (v : Byte) (n : Nat) :
    ((dataDrives v n).map levelOf).foldl shiftIn (v >>> n) = v := by
  induction n with
  | zero => exact BitVec.ushiftRight_zero v
  | succ n ih =>
    rw [dataDrives, List.map_cons, List.foldl_cons, shiftIn_ushiftRight, ih]

/-- RBYTE's byte is WBYTE's where it samples what WBYTE drove (R159). -/
theorem byteOf_dataDrives (v : Byte) : byteOf ((dataDrives v 8).map levelOf) = v := by
  have hzero : v >>> 8 = 0#8 := BitVec.ushiftRight_eq_zero (Nat.le_refl 8)
  rw [byteOf, ← hzero, foldl_shiftIn_dataDrives v 8]

theorem readBits_timeout_length {r : NumRegs} {n : Nat} {vs : List Level} {es : List Event} {q : Ret Unit}
    (h : ReadBits r n vs es q) {e : Err} (hq : q = .err e) : vs.length < n := by
  induction h with
  | done => cases hq
  | bit _ _ _ ih => exact Nat.succ_lt_succ (ih hq)
  | timeout _ => exact Nat.succ_pos _

/-- The events of a micro-op are those its trace gained between Acquire and Release. -/
theorem microRan_events {s t : State} {es fs : List Event} {w : Word} (h : MicroRan s t es w)
    (htrace : t.trace = s.trace ++ (.acquire s.host.issuer :: (fs ++ [.release s.host.issuer]))) : fs = es := by
  simpa using htrace.symm.trans h.trace

/-- Settles O23: eight samples are a whole RBYTE, and as many drives are all the bits of WBYTE's byte. -/
theorem loopBackReturnsTheByte : Obligations.LoopBackReturnsTheByte := by
  intro v s u s' t es fs hfree hwrite hes hfree' hread hfs height hloop
  obtain ⟨_, _, _, hexec, hmicro, hrun, -⟩ := wbyteCommand.2 v s hfree
  obtain rfl := Host.Outcome.next.inj (hwrite.symm.trans hexec)
  obtain rfl := microRan_events hmicro hes
  obtain ⟨_, vs, gs, q, hexec', hrun', -, hvs, -, -, hok, herr⟩ := rbyteCommand.2 s' hfree'
  obtain rfl := Host.Outcome.next.inj (hread.symm.trans hexec')
  have hdrives : (sdaDrives es).take 8 = dataDrives v 8 :=
    (byteWrite_drives hrun).eq_of_length (by rw [length_dataDrives, ← List.length_map, ← hloop, height])
  match q, hrun', hok, herr with
  | .ok (), _, hok, _ =>
    obtain ⟨hmicro', -⟩ := hok rfl
    obtain rfl := microRan_events hmicro' hfs
    rwa [← hvs, hloop, hdrives, byteOf_dataDrives] at hmicro'
  | .err e, ⟨_, hbits, _⟩, _, herr =>
    obtain ⟨-, hmicro', -⟩ := herr e rfl
    obtain rfl := microRan_events hmicro' hfs
    exact absurd (hvs ▸ height) (readBits_timeout_length hbits rfl).ne

end Sys2Proof.Proofs.Shift
end

section
/-! The byte shifters on a bus that never holds SCL low (R154, R157, R158): their exact events, up to the answers of the
clock, which are the time source's. -/

namespace Sys2Proof.Proofs.PromptShift

open Sys2Proof Sys2Proof.Machine Sys2Proof.Safety Sys2Proof.Proofs.LineTiming Sys2Proof.Proofs.MessageAddress
open Sys2Proof.Proofs.Conditions Sys2Proof.Proofs.Shift

/-! ### Runs up to the answers of the clock -/

/-- `s` ran to `t` emitting `es`, the answers of `Now()` left out. -/
def RanUntimed (s t : State) (es : List Event) : Prop := ∃ fs, Ran s t fs ∧ fs.map untimed = es

theorem ranUntimed_of_ran {s t : State} {es : List Event} (h : Ran s t es) : RanUntimed s t (es.map untimed) :=
  ⟨es, h, rfl⟩

theorem ranUntimed_work (w : WorkRegs) (s : State) : RanUntimed s { s with work := w } [] :=
  ranUntimed_of_ran (ran_work w s)

theorem RanUntimed.trans {s t u : State} {es fs : List Event} (h : RanUntimed s t es) (k : RanUntimed t u fs) :
    RanUntimed s u (es ++ fs) := by
  obtain ⟨es', hran, rfl⟩ := h
  obtain ⟨fs', kran, rfl⟩ := k
  exact ⟨es' ++ fs', hran.trans kran, List.map_append⟩

theorem RanUntimed.regs {s t : State} {es : List Event} (h : RanUntimed s t es) : t.regs = s.regs := by
  obtain ⟨_, hran, -⟩ := h
  exact hran.regs

theorem sdaDrives_map_untimed (es : List Event) : sdaDrives (es.map untimed) = sdaDrives es := by
  induction es with
  | nil => rfl
  | cons e es ih =>
    cases e with
    | drive l d => cases l <;> simp [sdaDrives, untimed, ih]
    | _ => simp [sdaDrives, untimed, ih]

theorem countP_isDelay_map_untimed (es : List Event) : (es.map untimed).countP isDelay = es.countP isDelay := by
  rw [List.countP_map]
  refine List.countP_congr fun e _ => ?_
  cases e <;> rfl

/-! ### A bus that never holds SCL low -/

/-- The environment's next `n` samples of SCL answer HI, where there is read-back, and its next samples of SDA answer
`bits`. -/
structure Answers (r : NumRegs) (n : Nat) (bits : List Level) (e : Env) : Prop where
  scl : r.sclReadable = true → ∃ rs, e.sclIn = List.replicate n .hi ++ rs
  sda : ∃ ra, e.sdaIn = bits ++ ra

section Prompt

variable {s : State} {n : Nat} {a : Level} {bits : List Level}

/-- An SCLW that finds SCL high at once (R120). -/
theorem sclw_prompt (h : Answers s.regs (n + 1) bits s.env) :
    ∃ t, sclw s = (.ok (), t) ∧ RanUntimed s t (promptSclw s.regs) ∧ Answers s.regs n bits t.env := by
  cases hrd : s.regs.sclReadable with
  | false =>
    have hran := ranUntimed_of_ran ((ran_drive .scl .rel s).trans (ran_halfBit _))
    refine ⟨_, sclw_of_no_readback hrd, by simpa [promptSclw, hrd, untimed] using hran, ⟨fun h => ?_, h.sda⟩⟩
    cases hrd.symm.trans h
  | true =>
    obtain ⟨rs, hscl⟩ := h.scl hrd
    have hlevel : sampled .scl (nowT0 (drive .scl .rel s)) = .hi := by
      simp [sampled, Env.others, hscl, List.replicate_succ]
    have hwait := pollScl_high 2 hlevel
    have hran := ranUntimed_of_ran (sclw_ran_of_high hrd hscl)
    rw [sclw_of_readback hrd, hwait] at hran
    refine ⟨_, (sclw_of_readback hrd).trans hwait, by simpa [promptSclw, hrd, untimed] using hran,
      ⟨fun _ => ⟨rs, by simp [hscl, List.replicate_succ]⟩, h.sda⟩⟩

theorem sampled_sda_of_answers (h : Answers s.regs n (a :: bits) s.env) (hrel : s.lines.sda = .rel) :
    sampled .sda s = a := by
  obtain ⟨ra, hsda⟩ := h.sda
  simp [sampled, hrel, Env.others, hsda]

theorem answers_sample_sda (h : Answers s.regs n (a :: bits) s.env) : Answers s.regs n bits (sample .sda s).env := by
  obtain ⟨ra, hsda⟩ := h.sda
  exact ⟨h.scl, ra, by simp [hsda]⟩

theorem sclw_keeps {q : Ret Unit} {u : State} (h : sclw s = (q, u)) :
    u.work.shift = s.work.shift ∧ u.lines.sda = s.lines.sda := by
  obtain ⟨_, -, -, hlines, hwork⟩ := sclw_spec s
  rw [h] at hlines hwork
  exact ⟨congrArg (·.shift) hwork, congrArg (·.sda) hlines⟩

theorem wbit_keeps {b : Bool} {q : Ret Unit} {u : State} (h : wbit b s = (q, u)) :
    u.work.shift = s.work.shift ∧ u.lines.sda = drvOf b := by
  obtain ⟨_, -, -, hlines, hwork⟩ := wbit_spec b s
  rw [h] at hlines hwork
  exact ⟨congrArg (·.shift) hwork, congrArg (·.sda) hlines⟩

theorem wbit_prompt (b : Bool) (h : Answers s.regs (n + 1) bits s.env) :
    ∃ t, wbit b s = (.ok (), t) ∧ RanUntimed s t (bitSetup s.regs b ++ promptSclw s.regs) ∧
      Answers s.regs n bits t.env := by
  obtain ⟨t, hsclw, hran, hanswers⟩ := sclw_prompt (s := halfBit (drive .sda (drvOf b) (drive .scl .low s))) h
  have hsetup : RanUntimed s _ (bitSetup s.regs b) :=
    ranUntimed_of_ran (((ran_drive .scl .low s).trans (ran_drive .sda (drvOf b) _)).trans (ran_halfBit _))
  exact ⟨t, hsclw, hsetup.trans hran, hanswers⟩

/-- WBYTE's bits, each with one HI sample of SCL (R154). -/
theorem wbits_prompt (m : Nat) (h : Answers s.regs (m + n) bits s.env) :
    ∃ t, wbits m s = (.ok (), t) ∧ RanUntimed s t (promptBits s.regs s.work.shift m) ∧
      Answers s.regs n bits t.env := by
  induction m generalizing s with
  | zero => exact ⟨s, rfl, ranUntimed_work s.work s, Nat.zero_add n ▸ h⟩
  | succ m ih =>
    obtain ⟨u, hbit, hran, hanswers⟩ :=
      wbit_prompt (s := setBit (Fin.ofNat 8 m) s) (s.work.shift.getLsbD m) (Nat.succ_add m n ▸ h)
    have hregs : u.regs = s.regs := hran.regs
    have hshift : u.work.shift = s.work.shift := (wbit_keeps hbit).1
    obtain ⟨t, hbits, hrest, hanswers'⟩ := ih (s := u) (hregs ▸ hanswers)
    rw [hregs, hshift] at hrest
    have hsetBit : RanUntimed s (setBit (Fin.ofNat 8 m) s) [] := ranUntimed_work _ s
    exact ⟨t, (wbits_ok hbit).trans hbits, by simpa [promptBits] using (hsetBit.trans hran).trans hrest,
      hregs ▸ hanswers'⟩

/-- The acknowledge pulse's sample of SDA is the environment's next answer (R152). -/
theorem ackPulse_prompt (h : Answers s.regs (n + 1) (a :: bits) s.env) :
    ∃ t, ackPulse s = (.ok (ackOf a), t) ∧
      RanUntimed s t (bitSetup s.regs true ++ (promptSclw s.regs ++ [.sample .sda a, .drive .scl .low])) := by
  obtain ⟨u, hbit, hran, hanswers⟩ := wbit_prompt true h
  have hsample : sampled .sda u = a := sampled_sda_of_answers (hran.regs ▸ hanswers) (wbit_keeps hbit).2
  have hlast : Ran u (setAck (ackOf a) (drive .scl .low (sample .sda u)))
      [.sample .sda (sampled .sda u), .drive .scl .low] := ⟨by simp, rfl, rfl, rfl, rfl⟩
  have hack := ackPulse_ok hbit
  rw [hsample] at hack hlast
  exact ⟨_, hack, List.append_assoc .. ▸ hran.trans (ranUntimed_of_ran hlast)⟩

theorem wbyte_prompt (v : Byte) (h : Answers s.regs 9 (a :: bits) s.env) :
    ∃ t, wbyte v s = (.ok (ackOf a), t) ∧ RanUntimed s t (promptWbyte s.regs v a) := by
  obtain ⟨u, hbits, hran, hanswers⟩ := wbits_prompt (s := setShift v s) (n := 1) 8 h
  obtain ⟨t, hack, hran'⟩ := ackPulse_prompt (s := u) (hran.regs ▸ hanswers)
  have hsetShift : RanUntimed s (setShift v s) [] := ranUntimed_work _ s
  have hregs : u.regs = s.regs := hran.regs
  rw [hregs] at hran'
  exact ⟨t, (wbyte_ok hbits).trans hack, (hsetShift.trans hran).trans hran'⟩

/-- RBYTE's bit after its SCLW, SHIFT taking the value `v` (R155). -/
def clockedBit (v : Byte) (s : State) : State := halfBit (drive .scl .low (setShift v (sample .sda s)))

theorem ran_clockedBit (v : Byte) (s : State) :
    Ran s (clockedBit v s) [.sample .sda (sampled .sda s), .drive .scl .low, .delayUs s.regs.cfgHalf] :=
  ⟨by simp [clockedBit], rfl, rfl, rfl, rfl⟩

/-- RBYTE's bits, each with one HI sample of SCL and the environment's next answer of SDA (R157). -/
theorem rbits_prompt (hrel : s.lines.sda = .rel) (h : Answers s.regs bits.length bits s.env) :
    ∃ t, rbits bits.length s = (.ok (), t) ∧ RanUntimed s t (promptReads s.regs bits) ∧
      t.work.shift = bits.foldl shiftIn s.work.shift := by
  induction bits generalizing s with
  | nil => exact ⟨s, rfl, ranUntimed_work s.work s, rfl⟩
  | cons b bits ih =>
    obtain ⟨u, hsclw, hran, hanswers⟩ := sclw_prompt (s := setBit (Fin.ofNat 8 bits.length) s) h
    have hregs : u.regs = s.regs := hran.regs
    have hshift : u.work.shift = s.work.shift := (sclw_keeps hsclw).1
    have hrel' : u.lines.sda = .rel := (sclw_keeps hsclw).2.trans hrel
    have hanswers' : Answers u.regs bits.length (b :: bits) u.env := hregs ▸ hanswers
    have hstep := rbits_ok hsclw
    have hclock := ranUntimed_of_ran (ran_clockedBit (shiftIn u.work.shift b) u)
    rw [sampled_sda_of_answers hanswers' hrel'] at hstep hclock
    obtain ⟨t, hbits, hrest, hread⟩ := ih (s := clockedBit (shiftIn u.work.shift b) u) hrel'
      (answers_sample_sda hanswers')
    have hsetBit : RanUntimed s (setBit (Fin.ofNat 8 bits.length) s) [] := ranUntimed_work _ s
    have hall := (hsetBit.trans hran).trans (hclock.trans hrest)
    refine ⟨t, hstep.trans hbits, by simpa [promptReads, clockedBit, hregs, untimed] using hall, ?_⟩
    rw [hread, List.foldl_cons, ← hshift]
    rfl

theorem rbyte_prompt (hlength : bits.length = 8) (h : Answers s.regs 8 bits s.env) :
    ∃ t, rbyte s = (.ok (byteOf bits), t) ∧ RanUntimed s t (promptRbyte s.regs bits) := by
  obtain ⟨t, hbits, hran, hshift⟩ := rbits_prompt (s := setShift 0#8 (halfBit (drive .sda .rel s))) rfl (hlength ▸ h)
  rw [hlength] at hbits
  have hresult := rbyte_ok hbits
  rw [hshift] at hresult
  have hstart := (ranUntimed_of_ran ((ran_drive .sda .rel s).trans (ran_halfBit _))).trans
    (ranUntimed_work { s.work with shift := 0#8 } _)
  exact ⟨t, hresult, hstart.trans hran⟩

end Prompt

/-! ### Counting the events -/

theorem promptSclw_counts (r : NumRegs) :
    (promptSclw r).length = (if r.sclReadable then 4 else 2) ∧ (promptSclw r).countP isDelay = 1 ∧
      sdaDrives (promptSclw r) = [] := by
  cases hrd : r.sclReadable <;> simp [promptSclw, hrd, isDelay, sdaDrives, List.countP_cons]

theorem length_bitSetup (r : NumRegs) (b : Bool) : (bitSetup r b).length = 3 := rfl

theorem delays_bitSetup (r : NumRegs) (b : Bool) : (bitSetup r b).countP isDelay = 1 := rfl

/-- Five events a bit, or seven with read-back; two half bits; one drive of SDA (R154). -/
theorem promptBits_counts (r : NumRegs) (v : Byte) (n : Nat) :
    (promptBits r v n).length = n * (if r.sclReadable then 7 else 5) ∧ (promptBits r v n).countP isDelay = n * 2 ∧
      sdaDrives (promptBits r v n) = dataDrives v n := by
  obtain ⟨hlength, hdelays, hdrives⟩ := promptSclw_counts r
  induction n with
  | zero => exact ⟨(Nat.zero_mul _).symm, rfl, rfl⟩
  | succ n ih =>
    obtain ⟨ihlength, ihdelays, ihdrives⟩ := ih
    rw [promptBits, List.length_append, List.length_append, length_bitSetup, hlength, ihlength, List.countP_append,
      List.countP_append, delays_bitSetup, hdelays, ihdelays, sdaDrives_append, sdaDrives_append, sdaDrives_bitSetup,
      hdrives, ihdrives]
    exact ⟨by split <;> omega, by omega, rfl⟩

/-- One bit group before the others (R157). -/
theorem promptReads_cons (r : NumRegs) (b : Level) (bits : List Level) :
    promptReads r (b :: bits) =
      promptSclw r ++ ([.sample .sda b, .drive .scl .low, .delayUs r.cfgHalf] ++ promptReads r bits) := by
  rw [promptReads, List.flatMap_cons, List.append_assoc, promptReads]

/-- Five events a bit, or seven with read-back, and two half bits (R157). -/
theorem promptReads_counts (r : NumRegs) (bits : List Level) :
    (promptReads r bits).length = bits.length * (if r.sclReadable then 7 else 5) ∧
      (promptReads r bits).countP isDelay = bits.length * 2 := by
  obtain ⟨hlength, hdelays, -⟩ := promptSclw_counts r
  induction bits with
  | nil => exact ⟨(Nat.zero_mul _).symm, rfl⟩
  | cons b bits ih =>
    obtain ⟨ihlength, ihdelays⟩ := ih
    have hlength' : [Event.sample .sda b, .drive .scl .low, .delayUs r.cfgHalf].length = 3 := rfl
    have hdelays' : [Event.sample .sda b, .drive .scl .low, .delayUs r.cfgHalf].countP isDelay = 1 := rfl
    rw [promptReads_cons, List.length_append, List.length_append, hlength, hlength', ihlength, List.countP_append,
      List.countP_append, hdelays, hdelays', ihdelays, List.length_cons]
    exact ⟨by split <;> omega, by omega⟩

/-! ### The commands -/

/-- Settles O20: WBYTE's run with every sample of SCL HI, its events counted bit by bit. -/
theorem promptWbyteSendsEveryBit : Obligations.PromptWbyteSendsEveryBit := by
  intro v a s rs ra hfree hscl hsda
  obtain ⟨t, hwbyte, es, hran, hes⟩ :=
    wbyte_prompt (s := acquire s) (a := a) (bits := []) v ⟨fun hrd => ⟨rs, hscl hrd⟩, ra, hsda⟩
  replace hes : es.map untimed = promptWbyte s.regs v a := hes
  have hrun : runWbyte v s = release (resWord 0#2 (ackOf a) 0#8) t := by rw [runWbyte, hwbyte]; rfl
  obtain ⟨hlength, hdelays, -⟩ := promptSclw_counts s.regs
  obtain ⟨hlength8, hdelays8, hdrives8⟩ := promptBits_counts s.regs v 8
  refine ⟨_, es, (exec_free (.wbyte v) hfree).trans (congrArg _ hrun), microRan_of_ran _ hfree hran, hes, ?_, ?_, ?_⟩
  · rw [← sdaDrives_map_untimed, hes, promptWbyte, sdaDrives_append, hdrives8]
    rfl
  · rw [← List.length_map untimed, hes, promptWbyte]
    simp only [List.length_append, hlength8, hlength]
    split <;> rfl
  · rw [← countP_isDelay_map_untimed, hes, promptWbyte]
    simp only [List.countP_append, hdelays8, hdelays]
    rfl

/-- Settles O22: RBYTE's run with every sample of SCL HI, the byte weighed as in O21. -/
theorem promptRbyteAssemblesTheByte : Obligations.PromptRbyteAssemblesTheByte := by
  intro bits s rs ra hfree hscl hbits hsda
  obtain ⟨t, hrbyte, es, hran, hes⟩ :=
    rbyte_prompt (s := acquire s) hbits ⟨fun hrd => ⟨rs, hscl hrd⟩, ra, hsda⟩
  replace hes : es.map untimed = promptRbyte s.regs bits := hes
  have hrun : runRbyte s = release (resWord 0#2 false (byteOf bits)) t := by rw [runRbyte, hrbyte]; rfl
  obtain ⟨hlength, hdelays⟩ := promptReads_counts s.regs bits
  refine ⟨_, es, _, (exec_free .rbyte hfree).trans (congrArg _ hrun), microRan_of_ran _ hfree hran,
    toNat_byteOf hbits, hes, ?_, ?_⟩
  · rw [← List.length_map untimed, hes, promptRbyte, List.length_cons, List.length_cons, hlength, hbits]
    split <;> rfl
  · rw [← countP_isDelay_map_untimed, hes, promptRbyte, List.countP_cons, List.countP_cons, hdelays, hbits]
    rfl

end Sys2Proof.Proofs.PromptShift
end

section
/-! PHASE (R186): the lines of the invariant write it only along the table. -/

namespace Sys2Proof.Proofs.PhaseTable

open Sys2Proof Sys2Proof.Machine Sys2Proof.Safety Sys2Proof.Proofs.Invariant

/-- Only a PHASE write moves PHASE, and lines that can be run write it along the table. -/
theorem runLine_phase {m : Micro} {rest : List Micro} {s : State} {more : Bool}
    (hlines : linesOk s.seq.phase more (m :: rest) = true) :
    (runLine m rest s).seq.phase = s.seq.phase ∨ phaseStep s.seq.phase (runLine m rest s).seq.phase = true := by
  cases m with
  | setPhase p => exact .inr (Bool.and_eq_true_iff.mp hlines).1
  | pollScl | checkTime | writeDecide => simp only [runLine]; split <;> exact .inl rfl
  | _ => exact .inl rfl

/-- Settles O47: under the invariant the running command's next line is one that can be run. -/
theorem phaseMovesAlongTheTable : Obligations.PhaseMovesAlongTheTable := by
  intro s c h hheld
  obtain ⟨-, hlines⟩ := (sequencerOk_held hheld).mp h.sequencer
  cases hpos : s.seq.pos with
  | nil => rw [hpos] at hlines; cases hlines
  | cons m rest =>
    rw [tick_cons hpos]
    exact runLine_phase (hpos ▸ hlines)

end Sys2Proof.Proofs.PhaseTable
end

section
/-! The transfer commands (R170 to R185): the address byte, and the trace, registers and result word of XFER.W and XFER.R
on every path, from the law of TRANSFER. -/

namespace Sys2Proof.Proofs.Transfers

open Sys2Proof Sys2Proof.Machine Sys2Proof.Safety Sys2Proof.Proofs.MessageByte Sys2Proof.Proofs.MessageAddress
open Sys2Proof.Proofs.Registers

/-! ### The address byte -/

theorem toNat_addressByte (addr : BitVec 16) (dir : BitVec 1) :
    (addressByte addr dir).toNat = 2 * (addr.toNat % 2 ^ 7) + dir.toNat := by
  rw [addressByte, BitVec.toNat_append, BitVec.extractLsb'_toNat, Nat.shiftRight_zero,
    ← Nat.shiftLeft_add_eq_or_of_lt dir.isLt, Nat.shiftLeft_eq, Nat.mul_comm]

/-- Settles O25: bits 6:0 of the address weigh twice what they do in it, and the direction is bit 0. -/
theorem addressByteComposition : Obligations.AddressByteComposition := by
  refine ⟨fun addr dir => ?_, by decide, by decide, by decide, by decide, by decide⟩
  have hdir : dir.toNat < 2 ^ 1 := dir.isLt
  rw [toNat_addressByte]
  omega

/-! ### SEND and RECV -/

/-- Settles O41: SEND and RECV are XFER.W and XFER.R by definition, and RECV reads CODE and BYTER of the result word. -/
theorem sendAndReceiveIgnoreFlags : Obligations.SendAndReceiveIgnoreFlags := by
  refine ⟨fun _ _ _ _ => rfl, fun _ _ _ => rfl, fun code ackr b => ?_⟩
  rw [recvByte, resCode_resWord, resByte_resWord]

/-! ### TRANSFER in one law -/

/-- A transfer that found the guard free: its frame, its run, and its working registers. -/
theorem transfer_ran (addr : BitVec 16) (dir : BitVec 1) (byte : Byte) {s : State} (hfree : s.lock.guard = .free) :
    ∃ es k e m, TransferRan s (transfer addr dir byte s) es e m ∧ TransferRun s.regs addr dir byte es k e m ∧
      ∃ b, (transfer addr dir byte s).work =
        { msgAddr := addr, msgDir := dir, msgByte := m, err := e
          shift := transferShift addr dir byte k (sdaSamples es), bit := b, t0 := startTick s.work.t0 es
          ack := transferAck dir k s.work.ack (sdaSamples es)
          attempt := match k with | none => s.work.attempt | some k => BitVec.ofNat 32 k } ∧
        (e ≠ some .timeout → b = 0) := by
  obtain ⟨es, k, e, m, hrun, htrace, hregs, ⟨b, hwork, hbit⟩, hlines, hseq, hlock, hhost⟩ :=
    transfer_spec addr dir byte s
  exact ⟨es, k, e, m,
    ⟨htrace, hregs, by rw [hwork], by rw [hwork], hlines, hseq, by rw [hlock, ← hfree], hhost⟩, hrun, b, hwork, hbit⟩

/-- The events of a transfer are those its trace gained between Acquire and Release. -/
theorem transferRan_events {s t : State} {es fs : List Event} {e : Option Err} {m : Byte} (h : TransferRan s t es e m)
    (htrace : t.trace = s.trace ++ (.acquire s.host.issuer :: (fs ++ [.release s.host.issuer]))) : fs = es := by
  simpa using htrace.symm.trans h.trace

section Run

variable {r : NumRegs} {addr : BitVec 16} {dir : BitVec 1} {byte m : Byte} {es : List Event} {k : Option Nat}
  {e : Option Err}

/-- Retries are counted exactly where the address phase runs (R171, R180). -/
theorem transferRun_counts (h : TransferRun r addr dir byte es k e m) :
    if r.addressed dir then ∃ n, k = some n ∧ n ≤ r.cfgRetries.toNat else k = none := by
  cases h with
  | unaddressed hsent => rw [hsent]; rfl
  | addressed hsent _ hrun => rw [if_pos hsent]; exact ⟨_, rfl, hrun.retries_le⟩
  | addressFailed hsent _ hrun => rw [if_pos hsent]; exact ⟨_, rfl, hrun.retries_le⟩

/-- A transfer's last events are the final STOP's (R185). -/
theorem transferRun_stop (h : TransferRun r addr dir byte es k e m) : ∃ fs, es = fs ++ stopEvents r := by
  cases h with
  | @unaddressed fs ds => exact ⟨startEvents r fs ++ ds, by rw [List.append_assoc]⟩
  | @addressed fs as ds => exact ⟨startEvents r fs ++ (as ++ ds), by simp only [List.append_assoc]⟩
  | @addressFailed fs as => exact ⟨startEvents r fs ++ as, by rw [List.append_assoc]⟩

/-- The acknowledge samples of the address phase come first: one for each attempt that did not time out. -/
theorem transferRun_addressSamples {n : Nat} (h : TransferRun r addr dir byte es (some n) e m) :
    (∃ ds, sdaSamples es = addressSamples n (.ok ()) ++ ds) ∨ ∃ x, sdaSamples es = addressSamples n (.err x) := by
  cases h with
  | @addressed fs as ds _ _ _ _ _ hstart haddress =>
    refine .inl ⟨sdaSamples ds, ?_⟩
    simp [sdaSamples_startEvents hstart, haddress.sdaSamples_eq]
  | @addressFailed fs as _ _ x _ hstart haddress =>
    refine .inr ⟨x, ?_⟩
    simp [sdaSamples_startEvents hstart, haddress.sdaSamples_eq]

/-- A sample of SDA answers LO only once the address was acknowledged (R181). -/
theorem transferRun_lo_mem_take {n : Nat} (h : TransferRun r addr dir byte es (some n) e m) :
    .lo ∈ (sdaSamples es).take (n + 1) ↔ .lo ∈ sdaSamples es := by
  rcases transferRun_addressSamples h with ⟨ds, hsamples⟩ | ⟨x, hsamples⟩ <;> rw [hsamples]
  · have hlength : (addressSamples n (.ok ())).length = n + 1 := by simp [addressSamples]
    have hlo : .lo ∈ addressSamples n (.ok ()) := by simp [addressSamples]
    rw [List.take_left' hlength]
    exact iff_of_true hlo (List.mem_append_left _ hlo)
  · rw [List.take_of_length_le (addressSamples_err n x).1]

end Run

/-! ### The commands -/

/-- After a write ACK is the last acknowledge of the address phase and the data phase together (R176). -/
theorem transferAck_write (n : Nat) (a : Bool) (vs : List Level) : transferAck 0#1 (some n) a vs = ackAfter a vs :=
  (ackAfter_append a (vs.take (n + 1)) (vs.drop (n + 1))).symm.trans (by rw [List.take_append_drop])

/-- Settles O26: a write runs the address phase, and every sample of SDA is an acknowledge. -/
theorem xferWCommand : Obligations.XferWCommand := by
  intro addr byte s hfree
  obtain ⟨es, k, e, m, hran, hrun, b, hwork, hbit⟩ := transfer_ran addr 0#1 byte hfree
  obtain ⟨n, rfl, hle⟩ : ∃ n, k = some n ∧ n ≤ s.regs.cfgRetries.toNat := transferRun_counts hrun
  obtain rfl := transferRun_msgByte hrun (.inl rfl)
  refine ⟨transfer addr 0#1 m s, es, n, e, exec_free (.xferW addr m) hfree, hran, hrun, ?_⟩
  rw [hwork]
  exact ⟨rfl, rfl, rfl, hle, transferAck_write n _ _, rfl, if_congr (transferRun_lo_mem_take hrun) rfl rfl, hbit⟩

/-- Settles O27: of the samples of SDA those of the address phase, if it runs, are acknowledges, and the others the bits
read. -/
theorem xferRCommand : Obligations.XferRCommand := by
  intro addr init s hfree
  obtain ⟨es, k, e, m, hran, hrun, b, hwork, hbit⟩ := transfer_ran addr 1#1 init hfree
  have hcounts := transferRun_counts hrun
  refine ⟨transfer addr 1#1 init s, es, k, e, m, exec_free (.xferR addr init) hfree, hran, hrun, ?_⟩
  rw [hwork]
  refine ⟨rfl, rfl, rfl, hbit, fun hsent => ?_, fun hsent => ?_⟩
  · rw [if_pos (show s.regs.addressed 1#1 = true from hsent)] at hcounts
    obtain ⟨n, rfl, hle⟩ := hcounts
    exact ⟨n, rfl, hle, rfl, rfl, rfl⟩
  · rw [show s.regs.addressed 1#1 = false from hsent] at hcounts
    obtain rfl : k = none := hcounts
    exact ⟨rfl, rfl, rfl, rfl⟩

theorem lastErrorWord_eq_resCode (e : Option Err) (m : Byte) :
    lastErrorWord e = (resCode (resWord (errCode e) false m)).setWidth 32 := by
  rw [resCode_resWord]
  rcases e with _ | _ | _ | _ <;> rfl

/-- Settles O28: every run of a transfer ends with the final STOP, and the Release and the result follow. -/
theorem everyTransferEndsWithTheFinalStop : Obligations.EveryTransferEndsWithTheFinalStop := by
  intro dir addr byte s hfree
  obtain ⟨es, k, e, m, hran, hrun, -⟩ := transfer_ran addr dir byte hfree
  obtain ⟨fs, rfl⟩ := transferRun_stop hrun
  refine ⟨_, fs, _, (exec_free _ hfree).trans (congrArg _ (runCommand_transferCommand dir addr byte s)), ?_,
    hran.lines, by rw [hran.seq], by rw [hran.lock, hfree], hran.host, ?_⟩
  · rw [hran.trace, List.append_assoc]
  · rw [hran.regs]
    exact lastErrorWord_eq_resCode e m

/-- Settles O40: a read without an address phase sends no address byte. -/
theorem unaddressedReadIgnoresTheAddress : Obligations.UnaddressedReadIgnoresTheAddress := by
  intro addr addr' init s t hfree hunaddressed hexec
  rw [exec_free _ hfree] at hexec
  obtain rfl := Host.Outcome.next.inj hexec
  have hsent : s.regs.addressed 1#1 = false := hunaddressed
  rw [exec_free _ hfree]
  exact congrArg _ (transfer_withAddr (fun h => absurd h (by rw [hsent]; decide)) init)

end Sys2Proof.Proofs.Transfers
end

section
/-! How a transfer ends, read off its samples: a write's error off its acknowledges (R219), and what is left of a transfer
whose clock is held low (R192). -/

namespace Sys2Proof.Proofs.TransferOutcomes

open Sys2Proof Sys2Proof.Machine Sys2Proof.Safety Sys2Proof.Proofs.MessageAddress Sys2Proof.Proofs.MessageByte
open Sys2Proof.Proofs.Transfers Sys2Proof.Proofs.ResultCodes

/-! ### A write's acknowledges -/

/-- The samples of SDA a write with `retries` retries allowed can have made where it ended with this error. -/
def WriteSamples (retries : Nat) (vs : List Level) : Option Err → Prop
  | none => ∃ k, k ≤ retries ∧ vs = List.replicate k .hi ++ [.lo, .lo]
  | some .io => ∃ k, k ≤ retries ∧ vs = List.replicate k .hi ++ [.lo, .hi]
  | some .noAcknowledge => vs = List.replicate (retries + 1) .hi
  | some .timeout => ∃ k, k ≤ retries ∧ (vs = List.replicate k .hi ∨ vs = List.replicate k .hi ++ [.lo])

section Run

variable {r : NumRegs} {es : List Event}

theorem byteWrite_ack_samples {v : Byte} (h : ByteWrite r v es (.ok true)) : sdaSamples es = [.lo] := by
  obtain ⟨l, hsamples, hack⟩ := h.sdaSamples_ok
  cases l with
  | lo => exact hsamples
  | hi => cases hack

theorem byteWrite_nack_samples {v : Byte} (h : ByteWrite r v es (.ok false)) : sdaSamples es = [.hi] := by
  obtain ⟨l, hsamples, hack⟩ := h.sdaSamples_ok
  cases l with
  | lo => cases hack
  | hi => exact hsamples

/-- NoAcknowledge comes only after all retries (R180). -/
theorem addressRun_exhausted {ab : Byte} {n k : Nat} {q : Ret Unit} (h : AddressRun r ab n k es q)
    (hq : q = .err .noAcknowledge) : k = n := by
  induction h with
  | acknowledged | timeout => cases hq
  | exhausted => rfl
  | retry _ _ _ ih => rw [ih hq]

/-- The data byte's acknowledge after that of the address (R182). -/
theorem dataRun_writeSamples {byte m : Byte} {e : Option Err} (h : DataRun r 0#1 byte es e m) {retries k : Nat}
    (hle : k ≤ retries) : WriteSamples retries (List.replicate k .hi ++ (.lo :: sdaSamples es)) e := by
  cases h with
  | written _ hbyte => exact ⟨k, hle, by rw [byteWrite_ack_samples hbyte]⟩
  | notAcknowledged _ hbyte => exact ⟨k, hle, by rw [byteWrite_nack_samples hbyte]⟩
  | writeTimeout _ hbyte => exact ⟨k, hle, .inr (by rw [hbyte.sdaSamples_err])⟩
  | read hdir | readTimeout hdir => exact absurd hdir (by decide)

theorem transferRun_writeSamples {addr : BitVec 16} {byte m : Byte} {k : Option Nat} {e : Option Err}
    (h : TransferRun r addr 0#1 byte es k e m) : WriteSamples r.cfgRetries.toNat (sdaSamples es) e := by
  cases h with
  | unaddressed hsent => cases hsent
  | @addressed _ _ _ _ k _ _ _ hstart haddress hdata =>
    have hsamples := dataRun_writeSamples hdata haddress.retries_le
    simpa [sdaSamples_startEvents hstart, haddress.sdaSamples_eq, addressSamples] using hsamples
  | @addressFailed _ _ _ k x _ hstart haddress =>
    have hsamples : WriteSamples r.cfgRetries.toNat (addressSamples k (.err x)) (some x) := by
      cases x with
      | timeout => exact ⟨k, haddress.retries_le, .inl rfl⟩
      | noAcknowledge => rw [addressRun_exhausted haddress rfl]; rfl
      | io => exact absurd rfl (addressRun_ne_io haddress)
    simpa [sdaSamples_startEvents hstart, haddress.sdaSamples_eq] using hsamples

end Run

/-- Settles O37: the acknowledge samples of each way a write can run. -/
theorem writeOutcomeIsReadOffTheAcknowledges : Obligations.WriteOutcomeIsReadOffTheAcknowledges := by
  intro addr byte s t es hfree hexec htrace
  rw [exec_free _ hfree] at hexec
  obtain rfl := Host.Outcome.next.inj hexec
  obtain ⟨fs, k, e, m, hran, hrun, -⟩ := transfer_ran addr 0#1 byte hfree
  obtain rfl := transferRan_events hran htrace
  have hsamples := transferRun_writeSamples hrun
  rw [← hran.err] at hsamples
  exact hsamples

/-! ### A clock held low -/

/-- Every sample of SCL answered LO. -/
def SclLow (es : List Event) : Prop := ∀ v, Event.sample .scl v ∈ es → v = .lo

theorem sclLow_append {es fs : List Event} : SclLow (es ++ fs) ↔ SclLow es ∧ SclLow fs := by
  simp only [SclLow, List.mem_append, or_imp, forall_and]

section Low

variable {r : NumRegs} {es : List Event}

theorem not_sclLow_of_hi_mem (h : Event.sample .scl .hi ∈ es) : ¬SclLow es := fun hlow => nomatch hlow _ h

/-- With read-back, SCLW succeeds only on a HI sample (R120). -/
theorem sclwRun_of_low {q : Ret Unit} (hrd : r.sclReadable = true) (h : SclwRun r es q) (hlow : SclLow es) :
    q = .err .timeout := by
  cases h with
  | noReadback hno => cases hno.symm.trans hrd
  | highAtFirst | highAtSecond | highAtThird => exact absurd hlow (not_sclLow_of_hi_mem (by simp))
  | timeoutAtFirst | timeoutAtSecond | timeoutAtThird => rfl

/-- No bit but the first is begun. -/
theorem writeBits_of_low {v : Byte} {n : Nat} {q : Ret Unit} (hrd : r.sclReadable = true)
    (h : WriteBits r v (n + 1) es q) (hlow : SclLow es) :
    q = .err .timeout ∧ ∃ fs, SclwRun r fs (.err .timeout) ∧ es = bitSetup r (v.getLsbD n) ++ fs := by
  cases h with
  | bit hwait =>
    obtain ⟨-, hlow⟩ := sclLow_append.mp hlow
    cases sclwRun_of_low hrd hwait (sclLow_append.mp hlow).1
  | timeout hwait => exact ⟨rfl, _, hwait, rfl⟩

theorem byteWrite_of_low {v : Byte} {q : Ret Bool} (hrd : r.sclReadable = true) (h : ByteWrite r v es q)
    (hlow : SclLow es) :
    q = .err .timeout ∧ ∃ fs, SclwRun r fs (.err .timeout) ∧ es = bitSetup r (v.getLsbD 7) ++ fs := by
  cases h with
  | bitTimeout hbits => exact ⟨rfl, (writeBits_of_low hrd hbits hlow).2⟩
  | ackTimeout hbits | acknowledge _ hbits =>
    cases (writeBits_of_low hrd hbits (sclLow_append.mp hlow).1).1

theorem byteRead_of_low {vs : List Level} {q : Ret Unit} (hrd : r.sclReadable = true) (h : ByteRead r vs es q)
    (hlow : SclLow es) :
    q = .err .timeout ∧
      ∃ fs, SclwRun r fs (.err .timeout) ∧ es = [.drive .sda .rel, .delayUs r.cfgHalf] ++ fs := by
  obtain ⟨fs, hbits, rfl⟩ := h
  obtain ⟨-, hlow⟩ := (sclLow_append (es := [.drive .sda .rel, .delayUs r.cfgHalf])).mp hlow
  cases hbits with
  | bit _ hwait => cases sclwRun_of_low hrd hwait (sclLow_append.mp hlow).1
  | timeout hwait => exact ⟨rfl, _, hwait, rfl⟩

/-- A timeout in the address phase is not retried (R181). -/
theorem addressRun_of_low {ab : Byte} {n k : Nat} {q : Ret Unit} (hrd : r.sclReadable = true)
    (h : AddressRun r ab n k es q) (hlow : SclLow es) :
    q = .err .timeout ∧ ∃ fs, SclwRun r fs (.err .timeout) ∧ es = bitSetup r (ab.getLsbD 7) ++ fs := by
  cases h with
  | timeout hbyte => exact ⟨rfl, (byteWrite_of_low hrd hbyte hlow).2⟩
  | acknowledged hbyte | exhausted hbyte => cases (byteWrite_of_low hrd hbyte hlow).1
  | retry hbyte => cases (byteWrite_of_low hrd hbyte (sclLow_append.mp hlow).1).1

theorem dataRun_read_of_low {byte m : Byte} {e : Option Err} (hrd : r.sclReadable = true)
    (h : DataRun r 1#1 byte es e m) (hlow : SclLow es) :
    e = some .timeout ∧
      ∃ fs, SclwRun r fs (.err .timeout) ∧ es = [.drive .sda .rel, .delayUs r.cfgHalf] ++ fs := by
  cases h with
  | written hdir | notAcknowledged hdir | writeTimeout hdir => exact absurd hdir (by decide)
  | read _ hbyte => cases (byteRead_of_low hrd hbyte (sclLow_append.mp hlow).1).1
  | readTimeout _ hbyte => exact ⟨rfl, (byteRead_of_low hrd hbyte hlow).2⟩

theorem sclLow_of_startEvents {fs : List Event} (h : SclLow (startEvents r fs)) : SclLow fs :=
  fun v hv => h v (List.mem_cons_of_mem _ (List.mem_append_left _ hv))

/-- Only a read can leave the address out (R171). -/
theorem dir_of_unaddressed {dir : BitVec 1} (h : r.addressed dir = false) : dir = 1#1 := by
  rcases BitVec.eq_zero_or_eq_one dir with rfl | rfl
  · cases h
  · rfl

theorem transferRun_of_low {addr : BitVec 16} {dir : BitVec 1} {byte m : Byte} {k : Option Nat} {e : Option Err}
    (hrd : r.sclReadable = true) (h : TransferRun r addr dir byte es k e m) (hlow : SclLow es) :
    e = some .timeout ∧ ∃ f1 f2, SclwRun r f1 (.err .timeout) ∧ SclwRun r f2 (.err .timeout) ∧
      es = startEvents r f1 ++
        ((if r.addressed dir then bitSetup r ((addressByte addr dir).getLsbD 7)
          else [.drive .sda .rel, .delayUs r.cfgHalf]) ++ (f2 ++ stopEvents r)) := by
  cases h with
  | unaddressed hsent hstart hdata =>
    obtain ⟨hlow1, hlow2⟩ := sclLow_append.mp hlow
    obtain rfl := sclwRun_of_low hrd hstart (sclLow_of_startEvents hlow1)
    obtain rfl := dir_of_unaddressed hsent
    obtain ⟨rfl, f2, hwait, rfl⟩ := dataRun_read_of_low hrd hdata (sclLow_append.mp hlow2).1
    exact ⟨rfl, _, f2, hstart, hwait, by rw [hsent]; rfl⟩
  | addressed _ _ haddress =>
    obtain ⟨-, hlow2⟩ := sclLow_append.mp hlow
    cases (addressRun_of_low hrd haddress (sclLow_append.mp hlow2).1).1
  | addressFailed hsent hstart haddress =>
    obtain ⟨hlow1, hlow2⟩ := sclLow_append.mp hlow
    obtain rfl := sclwRun_of_low hrd hstart (sclLow_of_startEvents hlow1)
    obtain ⟨hq, f2, hwait, rfl⟩ := addressRun_of_low hrd haddress (sclLow_append.mp hlow2).1
    cases hq
    exact ⟨rfl, _, f2, hstart, hwait, by rw [if_pos hsent, List.append_assoc]⟩

end Low

/-- Settles O36: of the ways a transfer can run, the one with no HI sample of SCL. -/
theorem clockHeldLowTimesOut : Obligations.ClockHeldLowTimesOut := by
  intro dir addr byte s t es hfree hrd _ hexec htrace hlow
  rw [exec_free _ hfree, runCommand_transferCommand] at hexec
  obtain rfl := Host.Outcome.next.inj hexec
  obtain ⟨fs, k, e, m, hran, hrun, -⟩ := transfer_ran addr dir byte hfree
  obtain rfl := transferRan_events hran htrace
  obtain ⟨rfl, hevents⟩ := transferRun_of_low hrd hrun hlow
  obtain rfl := transferRun_msgByte hrun (.inr (by decide))
  exact ⟨hran, hevents⟩

end Sys2Proof.Proofs.TransferOutcomes
end

section
/-! Transfers on a bus that never holds SCL low (R188, R189): the exact sequence of each path, up to the answers of the
clock. -/

namespace Sys2Proof.Proofs.PromptTransfer

open Sys2Proof Sys2Proof.Machine Sys2Proof.Safety Sys2Proof.Proofs.MessageAddress Sys2Proof.Proofs.Conditions
open Sys2Proof.Proofs.Grains Sys2Proof.Proofs.PromptShift Sys2Proof.Proofs.Transfers

/-- `s` ran to `t` emitting `es`, the answers of `Now()` left out, with the numbered registers as they were; unlike in
`RanUntimed`, PHASE may have moved. -/
def Emits (s t : State) (es : List Event) : Prop :=
  t.regs = s.regs ∧ ∃ fs, t.trace = s.trace ++ fs ∧ fs.map untimed = es

theorem Emits.regs {s t : State} {es : List Event} (h : Emits s t es) : t.regs = s.regs := h.1

theorem Emits.trans {s t u : State} {es fs : List Event} (h : Emits s t es) (k : Emits t u fs) :
    Emits s u (es ++ fs) := by
  obtain ⟨hregs, es', htrace, rfl⟩ := h
  obtain ⟨kregs, fs', ktrace, rfl⟩ := k
  exact ⟨kregs.trans hregs, es' ++ fs', by rw [ktrace, htrace, List.append_assoc], List.map_append⟩

theorem emits_of_ranUntimed {s t : State} {es : List Event} (h : RanUntimed s t es) : Emits s t es := by
  obtain ⟨fs, hran, hfs⟩ := h
  exact ⟨hran.regs, fs, hran.trace, hfs⟩

theorem emits_nil (s : State) : Emits s s [] := ⟨rfl, [], (List.append_nil _).symm, rfl⟩

/-! A PHASE write or a register transfer is silent, before a run and after it. -/

theorem Emits.of_setPhase {p : Phase} {s t : State} {es : List Event} (h : Emits (setPhase p s) t es) : Emits s t es := h

theorem Emits.of_setAttempt {w : Word} {s t : State} {es : List Event} (h : Emits (setAttempt w s) t es) :
    Emits s t es := h

theorem Emits.setAttempt {s t : State} {es : List Event} (h : Emits s t es) (w : Word) :
    Emits s (Machine.setAttempt w t) es := h

theorem Emits.setMsgByte {s t : State} {es : List Event} (h : Emits s t es) (b : Byte) :
    Emits s (Machine.setMsgByte b t) es := h

theorem Emits.enterError {s t : State} {es : List Event} (h : Emits s t es) (e : Err) :
    Emits s (Machine.enterError e t) es := h

theorem stop_emits (s : State) : Emits s (stop s) (stopEvents s.regs) :=
  emits_of_ranUntimed (ranUntimed_of_ran (stop_spec s).1)

theorem fnack_emits (s : State) : Emits s (fnack s) (fnackEvents s.regs) :=
  emits_of_ranUntimed (ranUntimed_of_ran (fnack_spec s).1)

section Prompt

variable {s : State} {n m : Nat} {a : Level} {bits : List Level} {ab : Byte}

/-! ### What is left of the answers -/

theorem answers_weaken (h : Answers s.regs (n + m) bits s.env) : Answers s.regs n bits s.env :=
  ⟨fun hrd => by
    obtain ⟨rs, hscl⟩ := h.scl hrd
    exact ⟨List.replicate m .hi ++ rs, by rw [hscl, List.replicate_add, List.append_assoc]⟩, h.sda⟩

theorem start_prompt (h : Answers s.regs (n + 1) bits s.env) :
    Emits s (start s) (promptStart s.regs) ∧ Answers s.regs n bits (start s).env := by
  obtain ⟨u, hwait, ⟨es, hran, hes⟩, hanswers⟩ := sclw_prompt (s := drive .sda .rel s) h
  have hu : (sclw (drive .sda .rel s)).2 = u := by rw [hwait]
  have hstart := start_ran_of_sclw (hu.symm ▸ hran)
  have henv : (start s).env = u.env := (congrArg State.env hu :)
  refine ⟨⟨hstart.regs, _, hstart.trace, ?_⟩, henv ▸ hanswers⟩
  rw [startEvents, List.map_cons, List.map_append, hes]
  rfl

theorem ackPulse_answers (h : Answers s.regs (n + 1) (a :: bits) s.env) :
    Answers s.regs n bits (ackPulse s).2.env := by
  obtain ⟨u, hbit, hran, hanswers⟩ := wbit_prompt true h
  rw [ackPulse_ok hbit]
  exact hran.regs ▸ answers_sample_sda (hran.regs ▸ hanswers)

/-- WBYTE takes nine answers of SCL and the acknowledge. -/
theorem wbyte_answers (v : Byte) (h : Answers s.regs (9 + n) (a :: bits) s.env) :
    ∃ t, wbyte v s = (.ok (ackOf a), t) ∧ Emits s t (promptWbyte s.regs v a) ∧ Answers s.regs n bits t.env := by
  obtain ⟨t, hbyte, hran⟩ := wbyte_prompt v (answers_weaken h)
  obtain ⟨u, hbits, hran', hanswers⟩ := wbits_prompt (s := setShift v s) (n := n + 1) 8
    (by rwa [Nat.add_comm n, ← Nat.add_assoc])
  have ht : t = (ackPulse u).2 := by rw [← wbyte_ok hbits, hbyte]
  exact ⟨t, hbyte, emits_of_ranUntimed hran, ht ▸ hran'.regs ▸ ackPulse_answers (hran'.regs ▸ hanswers)⟩

/-! ### The address phase -/

/-- One NACKed attempt with a retry left (R180). -/
theorem addressPhase_nack_prompt (h : Answers s.regs (10 + m) (.hi :: bits) s.env) :
    ∃ u, addressPhase (n + 1) ab s = addressPhase n ab u ∧ Emits s u (nackedAttempt s.regs ab) ∧
      Answers s.regs m bits u.env ∧ u.work.attempt = s.work.attempt + 1#32 := by
  obtain ⟨t, hbyte, hemits, hanswers⟩ := wbyte_answers (n := m + 1) (s := setPhase .addr s) ab
    (by rwa [Nat.add_comm m, ← Nat.add_assoc])
  have hregs : t.regs = s.regs := hemits.regs
  have hstopped : (stop t).regs = s.regs := hregs
  obtain ⟨hstart, hanswers'⟩ := start_prompt (s := stop t) (n := m) (bits := bits) (hstopped.symm ▸ hanswers)
  have hattempt : (start (stop t)).work.attempt = s.work.attempt := by
    have hsent := (wbyte_sameAttempt ab (setPhase .addr s)).attempt
    rw [hbyte] at hsent
    exact (start_sameAttempt (stop t)).attempt.trans hsent
  have hall := hemits.of_setPhase.trans ((stop_emits t).trans hstart)
  refine ⟨_, addressPhase_nack hbyte, Emits.setAttempt ?_ _, hstopped ▸ hanswers', by rw [← hattempt]; rfl⟩
  simpa [nackedAttempt, hregs, hstopped] using hall

/-- `k` NACKed attempts with retries left (R180). -/
theorem addressPhase_nacks_prompt (k : Nat) (h : Answers s.regs (10 * k + m) (List.replicate k .hi ++ bits) s.env) :
    ∃ u, addressPhase (n + k) ab s = addressPhase n ab u ∧
      Emits s u (List.replicate k (nackedAttempt s.regs ab)).flatten ∧ Answers s.regs m bits u.env ∧
      u.work.attempt = s.work.attempt + BitVec.ofNat 32 k := by
  induction k generalizing s with
  | zero => exact ⟨s, rfl, emits_nil s, by simpa using h, (BitVec.add_zero _).symm⟩
  | succ k ih =>
    obtain ⟨t, hnack, hemits, hanswers, hattempt⟩ := addressPhase_nack_prompt (n := n + k) (ab := ab)
      (m := 10 * k + m) (bits := List.replicate k .hi ++ bits) (s := s)
      (by rwa [← Nat.add_assoc, Nat.add_comm 10, ← Nat.mul_succ])
    have hregs : t.regs = s.regs := hemits.regs
    obtain ⟨u, hrest, hemits', hanswers', hattempt'⟩ := ih (s := t) (hregs ▸ hanswers)
    rw [hregs] at hemits' hanswers'
    exact ⟨u, hnack.trans hrest, hemits.trans hemits', hanswers', by rw [hattempt', hattempt, ofNat_succ_attempt]⟩

/-- The attempt after `k` NACKs, with `n` retries left after it (R180). -/
theorem addressPhase_attempt_prompt (k : Nat)
    (h : Answers s.regs (10 * k + (9 + m)) (List.replicate k .hi ++ (a :: bits)) s.env) :
    ∃ u t, addressPhase (n + k) ab s = addressPhase n ab u ∧ wbyte ab (setPhase .addr u) = (.ok (ackOf a), t) ∧
      Emits s t ((List.replicate k (nackedAttempt s.regs ab)).flatten ++ promptWbyte s.regs ab a) ∧
      Answers s.regs m bits t.env ∧ t.work.attempt = s.work.attempt + BitVec.ofNat 32 k := by
  obtain ⟨u, hnacks, hemits, hanswers, hattempt⟩ := addressPhase_nacks_prompt (n := n) (ab := ab) k h
  have hregs : u.regs = s.regs := hemits.regs
  obtain ⟨t, hbyte, hemits', hanswers'⟩ := wbyte_answers (s := setPhase .addr u) ab (hregs.symm ▸ hanswers)
  replace hemits' : Emits u t (promptWbyte s.regs ab a) := hregs ▸ hemits'.of_setPhase
  have hattempt' := (wbyte_sameAttempt ab (setPhase .addr u)).attempt
  rw [hbyte] at hattempt'
  exact ⟨u, t, hnacks, hbyte, hemits.trans hemits', hregs ▸ hanswers', hattempt'.trans hattempt⟩

/-! ### What the phases leave of the message -/

/-- MSG_DIR, MSG_BYTE and ERR are as they were. -/
structure SameMessage (s t : State) : Prop where
  dir : t.work.msgDir = s.work.msgDir
  byte : t.work.msgByte = s.work.msgByte
  err : t.work.err = s.work.err

theorem wbyte_sameMessage (v : Byte) (s : State) : SameMessage s (wbyte v s).2 := by
  obtain ⟨_, _, -, -, hwork, -⟩ := wbyte_spec v s
  exact ⟨by rw [hwork], by rw [hwork], by rw [hwork]⟩

theorem rbyte_sameMessage (s : State) : SameMessage s (rbyte s).2 := by
  obtain ⟨_, _, _, _, -, -, -, hwork, -⟩ := rbyte_spec s
  exact ⟨by rw [hwork], by rw [hwork], by rw [hwork]⟩

theorem addressPhase_sameMessage (n : Nat) (ab : Byte) (s : State) : SameMessage s (addressPhase n ab s).2 := by
  obtain ⟨_, _, _, -, -, hwork, -⟩ := addressPhase_spec n ab s
  exact ⟨by rw [hwork], by rw [hwork], by rw [hwork]⟩

/-! ### The phases between START and FINISH -/

/-- What the address phase emits until attempt `k` has sent its byte and sampled `a` (R180). -/
def promptAttempts (r : NumRegs) (ab : Byte) (k : Nat) (a : Level) : List Event :=
  (List.replicate k (nackedAttempt r ab)).flatten ++ promptWbyte r ab a

/-- An address acknowledged after `k` NACKs is followed by the data phase (R181). -/
theorem phases_acknowledged_prompt {k : Nat} (hsent : s.regs.addressed s.work.msgDir = true)
    (hle : k ≤ s.regs.cfgRetries.toNat)
    (h : Answers s.regs (10 * k + (9 + m)) (List.replicate k .hi ++ (.lo :: bits)) s.env) :
    ∃ t, phases s = dataPhase t ∧
      Emits s t (promptAttempts s.regs (addressByte s.work.msgAddr s.work.msgDir) k .lo) ∧
      Answers s.regs m bits t.env ∧ SameMessage s t := by
  obtain ⟨u, t, hnacks, hbyte, hemits, hanswers, -⟩ := addressPhase_attempt_prompt (n := s.regs.cfgRetries.toNat - k)
    (ab := addressByte s.work.msgAddr s.work.msgDir) (s := setAttempt 0#32 s) k h
  have hphase := hnacks.trans (addressPhase_ack hbyte)
  rw [Nat.sub_add_cancel hle] at hphase
  have hsame := addressPhase_sameMessage s.regs.cfgRetries.toNat (addressByte s.work.msgAddr s.work.msgDir)
    (setAttempt 0#32 s)
  rw [hphase] at hsame
  exact ⟨t, phases_acknowledged hsent hphase, hemits.of_setAttempt, hanswers, hsame.dir, hsame.byte, hsame.err⟩

/-- An address never acknowledged ends the transfer with NoAcknowledge, the retries all counted (R180). -/
theorem phases_exhausted_prompt {k : Nat} (hsent : s.regs.addressed s.work.msgDir = true)
    (hlast : s.regs.cfgRetries.toNat = k)
    (h : Answers s.regs (10 * k + (9 + m)) (List.replicate k .hi ++ (.hi :: bits)) s.env) :
    Emits s (phases s) (promptAttempts s.regs (addressByte s.work.msgAddr s.work.msgDir) k .hi) ∧
      (phases s).work.err = some .noAcknowledge ∧ (phases s).work.msgByte = s.work.msgByte ∧
      (phases s).work.attempt = s.regs.cfgRetries ∧ (phases s).work.ack = false := by
  obtain ⟨u, t, hnacks, hbyte, hemits, -, hattempt⟩ := addressPhase_attempt_prompt (n := 0)
    (ab := addressByte s.work.msgAddr s.work.msgDir) (s := setAttempt 0#32 s) k h
  have hphase := hnacks.trans (addressPhase_last_nack hbyte)
  rw [Nat.zero_add, ← hlast] at hphase
  have hsame := addressPhase_sameMessage s.regs.cfgRetries.toNat (addressByte s.work.msgAddr s.work.msgDir)
    (setAttempt 0#32 s)
  rw [hphase] at hsame
  have hack : t.work.ack = false := wbyte_ack hbyte
  rw [phases_failed hsent hphase]
  exact ⟨hemits.of_setAttempt.enterError _, rfl, hsame.byte, hattempt.trans (by simp [← hlast]), hack⟩

/-- The data byte of a write and its acknowledge (R182). -/
theorem dataPhase_write_prompt (hdir : s.work.msgDir = 0#1) (h : Answers s.regs 9 (a :: bits) s.env) :
    Emits s (dataPhase s) (promptWbyte s.regs s.work.msgByte a) ∧
      (dataPhase s).work.err = (if ackOf a then s.work.err else some .io) ∧
      (dataPhase s).work.msgByte = s.work.msgByte := by
  obtain ⟨t, hbyte, hemits, -⟩ := wbyte_answers (n := 0) (s := setPhase .data s) s.work.msgByte h
  have hsame := wbyte_sameMessage s.work.msgByte (setPhase .data s)
  rw [hbyte] at hsame
  rw [dataPhase_write hdir]
  cases a with
  | lo => rw [writePhase_ack hbyte]; exact ⟨hemits.of_setPhase, hsame.err, hsame.byte⟩
  | hi => rw [writePhase_nack hbyte]; exact ⟨hemits.of_setPhase.enterError .io, rfl, hsame.byte⟩

/-- The data byte of a read and FNACK (R183). -/
theorem dataPhase_read_prompt (hdir : s.work.msgDir ≠ 0#1) (hlength : bits.length = 8)
    (h : Answers s.regs 8 bits s.env) :
    Emits s (dataPhase s) (promptRbyte s.regs bits ++ fnackEvents s.regs) ∧
      (dataPhase s).work.err = s.work.err ∧ (dataPhase s).work.msgByte = byteOf bits := by
  obtain ⟨t, hbyte, hran⟩ := rbyte_prompt (s := setPhase .data s) hlength h
  have hsame := rbyte_sameMessage (setPhase .data s)
  rw [hbyte] at hsame
  have hregs : t.regs = s.regs := hran.regs
  have hemits := (emits_of_ranUntimed hran).of_setPhase.setMsgByte (byteOf bits)
  have hfnack := fnack_emits (setMsgByte (byteOf bits) t)
  rw [dataPhase_read hdir, readPhase_ok hbyte]
  rw [setMsgByte_regs, hregs] at hfnack
  exact ⟨hemits.trans hfnack, hsame.err, rfl⟩

end Prompt

/-! ### The whole transfer -/

/-- A transfer after its START (R178). -/
def started (addr : BitVec 16) (dir : BitVec 1) (byte : Byte) (s : State) : State :=
  start (setPhase .started (loadMessage addr dir byte (acquire s)))

section Transfer

variable {addr : BitVec 16} {dir : BitVec 1} {byte : Byte} {s : State} {n : Nat} {bits : List Level}

section Started

variable (addr dir byte s)

theorem started_work : ∃ t0, (started addr dir byte s).work =
    { s.work with msgAddr := addr, msgDir := dir, msgByte := byte, err := none, t0 := t0 } := by
  obtain ⟨_, _, -, -, -, hwork⟩ := start_spec (setPhase .started (loadMessage addr dir byte (acquire s)))
  exact ⟨_, hwork⟩

@[simp] theorem started_regs : (started addr dir byte s).regs = s.regs := by
  obtain ⟨_, _, -, hran, -⟩ := start_spec (setPhase .started (loadMessage addr dir byte (acquire s)))
  exact hran.regs

@[simp] theorem started_msgAddr : (started addr dir byte s).work.msgAddr = addr := by
  obtain ⟨_, hwork⟩ := started_work addr dir byte s
  rw [hwork]

@[simp] theorem started_msgDir : (started addr dir byte s).work.msgDir = dir := by
  obtain ⟨_, hwork⟩ := started_work addr dir byte s
  rw [hwork]

@[simp] theorem started_msgByte : (started addr dir byte s).work.msgByte = byte := by
  obtain ⟨_, hwork⟩ := started_work addr dir byte s
  rw [hwork]

@[simp] theorem started_err : (started addr dir byte s).work.err = none := by
  obtain ⟨_, hwork⟩ := started_work addr dir byte s
  rw [hwork]

/-- Whether the transfer runs the address phase (R171). -/
theorem started_addressed :
    (started addr dir byte s).regs.addressed (started addr dir byte s).work.msgDir = s.regs.addressed dir := by
  rw [started_regs, started_msgDir]

theorem started_prompt (h : Answers s.regs (n + 1) bits s.env) :
    Emits (acquire s) (started addr dir byte s) (promptStart s.regs) ∧
      Answers (started addr dir byte s).regs n bits (started addr dir byte s).env := by
  rw [started_regs]
  exact start_prompt (s := setPhase .started (loadMessage addr dir byte (acquire s))) h

end Started

theorem finish_trace (s : State) : (finish s).trace = s.trace ++ (stopEvents s.regs ++ [.release s.host.issuer]) := by
  simp [finish, returnFromTransfer, stop, stopEvents]

/-- A transfer emits START's events, those of its phases and the final STOP's (R178, R185). -/
theorem transferRan_of_phases {ps : List Event} (hfree : s.lock.guard = .free)
    (h : Answers s.regs (n + 1) bits s.env)
    (hphases : Emits (started addr dir byte s) (phases (started addr dir byte s)) ps) :
    ∃ es, TransferRan s (transfer addr dir byte s) es (phases (started addr dir byte s)).work.err
        (phases (started addr dir byte s)).work.msgByte ∧
      es.map untimed = promptStart s.regs ++ (ps ++ stopEvents s.regs) := by
  obtain ⟨es, k, e, m, hran, -⟩ := transfer_ran addr dir byte hfree
  obtain rfl : (phases (started addr dir byte s)).work.err = e := hran.err
  obtain rfl : (phases (started addr dir byte s)).work.msgByte = m := hran.msgByte
  obtain ⟨hregs, fs, htrace, hfs⟩ := (started_prompt addr dir byte s h).1.trans hphases
  refine ⟨es, hran, ?_⟩
  have hall : s.trace ++ (.acquire s.host.issuer :: (es ++ [.release s.host.issuer])) =
      s.trace ++ (.acquire s.host.issuer :: ((fs ++ stopEvents s.regs) ++
        [.release (phases (started addr dir byte s)).host.issuer])) := by
    have hregs' : (phases (started addr dir byte s)).regs = s.regs := hregs
    rw [← hran.trace, show transfer addr dir byte s = finish (phases (started addr dir byte s)) from rfl, finish_trace,
      htrace, hregs']
    simp
  have hes := List.append_inj_left' (List.cons.inj (List.append_cancel_left hall)).2 rfl
  rw [hes, List.map_append, hfs, List.append_assoc]
  rfl

end Transfer

/-- Settles O33: every attempt is NACKed, the last with no retry left. -/
theorem addressNeverAcknowledged : Obligations.AddressNeverAcknowledged := by
  intro dir addr byte s rs ra hfree hsent hscl hsda
  have h : Answers s.regs (10 * s.regs.cfgRetries.toNat + (9 + 0) + 1)
      (List.replicate s.regs.cfgRetries.toNat .hi ++ [.hi]) s.env :=
    ⟨fun hrd => ⟨rs, hscl hrd⟩, ra, by rw [← List.replicate_succ']; exact hsda⟩
  have hanswers := (started_prompt addr dir byte s h).2
  obtain ⟨hemits, herr, hbyte, hattempt, hack⟩ :=
    phases_exhausted_prompt (m := 0) ((started_addressed addr dir byte s).trans hsent) (by rw [started_regs]) hanswers
  obtain ⟨es, hran, hes⟩ := transferRan_of_phases hfree h hemits
  rw [herr, hbyte, started_msgByte] at hran
  rw [started_regs, started_msgAddr, started_msgDir, promptAttempts, List.append_assoc] at hes
  exact ⟨_, es, (exec_free _ hfree).trans (congrArg _ (runCommand_transferCommand dir addr byte s)), hran, hes,
    hattempt.trans (by rw [started_regs]), hack⟩

/-- Settles O34: the acknowledged address, then the data byte. -/
theorem writeAcknowledgedAtAttempt : Obligations.WriteAcknowledgedAtAttempt := by
  intro addr byte k a s rs ra hfree hle hscl hsda
  have h : Answers s.regs (10 * k + (9 + 9) + 1) (List.replicate k .hi ++ (.lo :: [a])) s.env :=
    ⟨fun hrd => ⟨rs, hscl hrd⟩, ra, by rw [hsda, List.append_assoc]; rfl⟩
  have hanswers := (started_prompt addr 0#1 byte s h).2
  obtain ⟨t, hphases, hemits, hanswers', hsame⟩ :=
    phases_acknowledged_prompt (k := k) (m := 9) ((started_addressed addr 0#1 byte s).trans rfl)
      (by rwa [started_regs]) hanswers
  rw [← hemits.regs] at hanswers'
  obtain ⟨hdata, herr, hbyte⟩ := dataPhase_write_prompt (by rw [hsame.dir, started_msgDir]) hanswers'
  rw [← hphases] at hdata herr hbyte
  obtain ⟨es, hran, hes⟩ := transferRan_of_phases hfree h (hemits.trans hdata)
  rw [herr, hbyte, hsame.err, hsame.byte, started_err, started_msgByte] at hran
  rw [hemits.regs, hsame.byte, started_regs, started_msgAddr, started_msgDir, started_msgByte, promptAttempts,
    List.append_assoc, List.append_assoc] at hes
  exact ⟨_, es, exec_free (.xferW addr byte) hfree, hran, hes⟩

theorem read_ne_write : (1#1 : BitVec 1) ≠ 0#1 := by decide

/-- A read without an address phase: START, the byte, FNACK (R171, R177). -/
theorem transfer_unaddressed_read_prompt {addr : BitVec 16} {init : Byte} {bits : List Level} {s : State}
    (hfree : s.lock.guard = .free) (hlength : bits.length = 8) (hsent : s.regs.readAddressPhase = false)
    (h : Answers s.regs (8 + 1) bits s.env) :
    ∃ es, TransferRan s (transfer addr 1#1 init s) es none (byteOf bits) ∧
      es.map untimed =
        promptStart s.regs ++ (promptRbyte s.regs bits ++ (fnackEvents s.regs ++ stopEvents s.regs)) := by
  have hanswers := (started_prompt addr 1#1 init s h).2
  have hphases : phases (started addr 1#1 init s) = dataPhase (started addr 1#1 init s) :=
    phases_unaddressed ((started_addressed addr 1#1 init s).trans hsent)
  obtain ⟨hdata, herr, hbyte⟩ :=
    dataPhase_read_prompt (by rw [started_msgDir]; exact read_ne_write) hlength hanswers
  rw [← hphases] at hdata herr hbyte
  obtain ⟨es, hran, hes⟩ := transferRan_of_phases hfree h hdata
  rw [herr, hbyte, started_err] at hran
  rw [started_regs, List.append_assoc] at hes
  exact ⟨es, hran, hes⟩

/-- A read whose address is acknowledged after `k` NACKs (R180, R183). -/
theorem transfer_addressed_read_prompt {addr : BitVec 16} {init : Byte} {bits : List Level} {k : Nat} {s : State}
    (hfree : s.lock.guard = .free) (hlength : bits.length = 8) (hsent : s.regs.readAddressPhase = true)
    (hle : k ≤ s.regs.cfgRetries.toNat)
    (h : Answers s.regs (10 * k + (9 + 8) + 1) (List.replicate k .hi ++ (.lo :: bits)) s.env) :
    ∃ es, TransferRan s (transfer addr 1#1 init s) es none (byteOf bits) ∧
      es.map untimed =
        promptStart s.regs ++
          ((List.replicate k (nackedAttempt s.regs (addressByte addr 1#1))).flatten ++
            (promptWbyte s.regs (addressByte addr 1#1) .lo ++
              (promptRbyte s.regs bits ++ (fnackEvents s.regs ++ stopEvents s.regs)))) := by
  have hanswers := (started_prompt addr 1#1 init s h).2
  obtain ⟨t, hphases, hemits, hanswers', hsame⟩ :=
    phases_acknowledged_prompt (k := k) (m := 8) ((started_addressed addr 1#1 init s).trans hsent)
      (by rwa [started_regs]) hanswers
  rw [← hemits.regs] at hanswers'
  obtain ⟨hdata, herr, hbyte⟩ :=
    dataPhase_read_prompt (by rw [hsame.dir, started_msgDir]; exact read_ne_write) hlength hanswers'
  rw [← hphases] at hdata herr hbyte
  obtain ⟨es, hran, hes⟩ := transferRan_of_phases hfree h (hemits.trans hdata)
  rw [herr, hbyte, hsame.err, started_err] at hran
  rw [hemits.regs, started_regs, started_msgAddr, started_msgDir, promptAttempts] at hes
  exact ⟨es, hran, by simpa only [List.append_assoc] using hes⟩

/-- Settles O35: the two successful reads. -/
theorem readPaths : Obligations.ReadPaths := by
  intro addr init bits s rs ra hfree hlength
  refine ⟨fun hsent hscl hsda => ?_, fun k hsent hle hscl hsda => ?_⟩
  · obtain ⟨es, hran, hes⟩ := transfer_unaddressed_read_prompt (addr := addr) (init := init) hfree hlength hsent
      ⟨fun hrd => ⟨rs, hscl hrd⟩, ra, hsda⟩
    exact ⟨_, es, exec_free (.xferR addr init) hfree, hran, hes⟩
  · obtain ⟨es, hran, hes⟩ := transfer_addressed_read_prompt (addr := addr) (init := init) hfree hlength hsent hle
      ⟨fun hrd => ⟨rs, hscl hrd⟩, ra, by rw [hsda, List.append_assoc]; rfl⟩
    exact ⟨_, es, exec_free (.xferR addr init) hfree, hran, hes⟩

end Sys2Proof.Proofs.PromptTransfer
end

section
/-! Half-bit delays (R257). SCLW settles once, on Ok only; what each primitive adds to its waits is fixed. -/

namespace Sys2Proof.Proofs.HalfBitDelays

open Sys2Proof Sys2Proof.Machine Sys2Proof.Safety Sys2Proof.Proofs.LineTiming Sys2Proof.Proofs.Conditions
open Sys2Proof.Proofs.PromptShift

/-- The events a run appended to the trace are its own. -/
theorem ran_events {s t : State} {es fs : List Event} (h : Ran s t fs) (htrace : t.trace = s.trace ++ es) : es = fs :=
  List.append_cancel_left (htrace.symm.trans h.trace)

section Grammar

variable {r : NumRegs} {es : List Event}

/-- Every form of SCLW that succeeds ends with its one settle delay, and no other form has one (R116, R120). -/
theorem delays_sclwRun {q : Ret Unit} (h : SclwRun r es q) : es.countP isDelay = if q = .ok () then 1 else 0 := by
  cases h with
  | noReadback | highAtFirst | highAtSecond | highAtThird => rfl
  | timeoutAtFirst | timeoutAtSecond | timeoutAtThird => rfl

theorem delays_startEvents {q : Ret Unit} (h : SclwRun r es q) :
    (startEvents r es).countP isDelay = if q = .ok () then 3 else 2 := by
  have hlast : [Event.delayUs r.cfgHalf, .drive .sda .low, .delayUs r.cfgHalf, .drive .scl .low].countP isDelay = 2 :=
    rfl
  have hsplit : (startEvents r es).countP isDelay = es.countP isDelay + 2 := by
    rw [startEvents, List.countP_cons_of_neg Bool.false_ne_true, List.countP_append, hlast]
  rw [hsplit, delays_sclwRun h]
  split <;> rfl

/-- A bit written has its setup's delay and its SCLW's (R150). -/
theorem delays_bit (b : Bool) (h : SclwRun r es (.ok ())) : (bitSetup r b ++ es).countP isDelay = 2 := by
  rw [List.countP_append, delays_bitSetup, delays_sclwRun h]
  rfl

theorem delays_writeBits {v : Byte} {n : Nat} {q : Ret Unit} (h : WriteBits r v n es q) (hq : q = .ok ()) :
    es.countP isDelay = 2 * n := by
  induction h with
  | done => rfl
  | bit hwait _ ih =>
    rw [← List.append_assoc, List.countP_append, delays_bit _ hwait, ih hq, Nat.mul_succ, Nat.add_comm]
  | timeout => cases hq

/-- WBYTE writes eight bits, and its acknowledge pulse has the delays of a ninth (R152). -/
theorem delays_byteWrite {v : Byte} {a : Bool} (h : ByteWrite r v es (.ok a)) : es.countP isDelay = 18 := by
  cases h with
  | acknowledge l hbits hwait =>
    rw [← List.append_assoc (bitSetup r true), List.countP_append, List.countP_append, delays_writeBits hbits rfl,
      delays_bit true hwait]
    rfl

theorem delays_readBits {n : Nat} {vs : List Level} {q : Ret Unit} (h : ReadBits r n vs es q) (hq : q = .ok ()) :
    es.countP isDelay = 2 * n := by
  induction h with
  | done => rfl
  | bit v hwait _ ih =>
    rw [List.countP_append, delays_sclwRun hwait, List.countP_cons_of_neg Bool.false_ne_true,
      List.countP_cons_of_neg Bool.false_ne_true, List.countP_cons_of_pos rfl, ih hq, if_pos rfl]
    omega
  | timeout => cases hq

/-- RBYTE has one delay before its eight bits (R155). -/
theorem delays_byteRead {vs : List Level} (h : ByteRead r vs es (.ok ())) : es.countP isDelay = 17 := by
  obtain ⟨fs, hbits, rfl⟩ := h
  rw [List.countP_cons_of_neg Bool.false_ne_true, List.countP_cons_of_pos rfl, delays_readBits hbits rfl]

end Grammar

/-- Settles O24: each primitive's events are those of its law, whose delays are counted above. -/
theorem halfBitDelaysPerPrimitive : Obligations.HalfBitDelaysPerPrimitive := by
  intro s es
  refine ⟨fun htrace => delays_sclwRun (sclwRun_of_trace htrace), fun htrace => ?start,
    fun htrace => ran_events (stop_spec s).1 htrace ▸ rfl, fun htrace => ran_events (fnack_spec s).1 htrace ▸ rfl,
    fun b htrace hok => ?wbit, fun v a htrace hok => ?wbyte, fun b htrace hok => ?rbyte⟩
  case start =>
    obtain ⟨fs, hran, hrun, -⟩ := sclw_spec (drive .sda .rel s)
    rw [ran_events (start_ran_of_sclw hran) htrace]
    exact delays_startEvents hrun
  case wbit =>
    obtain ⟨fs, hrun, hran, -⟩ := wbit_spec b s
    rw [ran_events hran htrace]
    exact delays_bit b (hok ▸ hrun)
  case wbyte =>
    obtain ⟨fs, _, hrun, hran, -⟩ := wbyte_spec v s
    rw [ran_events hran htrace]
    exact delays_byteWrite (hok ▸ hrun)
  case rbyte =>
    obtain ⟨vs, fs, q, _, hrun, hran, -, -, -, hend⟩ := rbyte_spec s
    rw [ran_events hran htrace]
    cases q with
    | ok _ => exact delays_byteRead hrun
    | err e =>
      obtain ⟨-, herr, -⟩ := hend
      cases hok.symm.trans herr

end Sys2Proof.Proofs.HalfBitDelays
end

section
/-! Creation (R240 to R242), and a handle to no bus (R247). -/

namespace Sys2Proof.Proofs.Creation

open Sys2Proof Sys2Proof.Machine Sys2Proof.Safety

/-- The check of creation is the preconditions of R241. -/
theorem createArgs_ok_iff (a : CreateArgs) :
    a.ok = true ↔ ∃ p, a.pins = some p ∧ p.driveSda = true ∧ p.driveScl = true ∧ p.readSda = true ∧ p.delayUs = true ∧
      (p.readScl = true → a.time.now = true ∧ a.time.sleepTicks = true) := by
  cases hpins : a.pins with
  | none => simp [CreateArgs.ok, hpins]
  | some p => cases hscl : p.readScl <;> simp [CreateArgs.ok, hpins, hscl, and_assoc]

theorem create_of_ok {a : CreateArgs} (h : a.ok = true) : create a = .next a.bus := if_pos h

/-- Creation gives the bus or its one refusal (R240, R241). -/
theorem create_refused_iff (a : CreateArgs) : create a = .refused .creationRefused ↔ ¬a.ok = true := by
  by_cases h : a.ok = true
  · rw [create_of_ok h]
    exact ⟨nofun, fun hnot => absurd h hnot⟩
  · exact ⟨fun _ => h, fun _ => if_neg h⟩

/-- Settles O57: a refusal is a precondition of R241 that fails. -/
theorem creationIsRefusedWithoutItsPorts : Obligations.CreationIsRefusedWithoutItsPorts := fun a =>
  (create_refused_iff a).trans (not_congr (createArgs_ok_iff a))

/-- CAP is whether the pin port given can read SCL (R30, R242). -/
theorem regs_cap_of_pins {a : CreateArgs} {p : PinPort} (h : a.pins = some p) :
    a.regs.cap = if p.readScl then 1#32 else 0#32 := by
  rw [CreateArgs.regs, h]
  rfl

/-- Settles O56: the bus creation gives holds each value by definition; that CFG_TIMEOUT is not 0 is the invariant's. -/
theorem creationLeavesTheStatedValues : Obligations.CreationLeavesTheStatedValues := fun a hok =>
  ⟨a.bus, create_of_ok hok, rfl, rfl, rfl, (Invariant.regsOk_create a).timeout, rfl,
    fun _ hpins => regs_cap_of_pins hpins, rfl, rfl, rfl, rfl, rfl⟩

/-- Settles O58: on a bus that was not created a step does nothing but refuse a word in the port. -/
theorem commandToNoBusIsRefused : Obligations.CommandToNoBusIsRefused := by
  intro s r rest hcreated hport
  rw [step, hcreated, hport]
  rfl

end Sys2Proof.Proofs.Creation
end
